-- ==== Sys2Proof/Word.lean ====
section
/-! DEFINITION. The word types of the CEC: the 32-bit data word and the 26-bit byte offset of the host bus
(00_scope R8, 20_memory R60), and the byte. -/

namespace Sys2Proof

/-- One byte of a buffer. -/
abbrev Byte := BitVec 8

/-- The 32-bit word a transaction moves (R61, R63); also a command word (R90). -/
abbrev Word := BitVec 32

/-- A byte offset from `CEC_BASE` inside the 64 MiB window (R60). -/
abbrev Addr := BitVec 26

end Sys2Proof
end

