-- ==== Sys2Proof/Syntax.lean ====
section
/-! DEFINITION. The instructions of the CEC: its command words (30_encoding R94), one constructor for each row of
spec/opcode_table.json. -/

namespace Sys2Proof

/-- The eleven commands.  A command names no operand: its operands are fixed buffers and the latched
parameters (R100); the KSEL bit is part of the row, as in the table. -/
inductive Instr where
  | nop
  | convX
  | convY
  | descaleX
  | descaleY
  | grad
  | mag
  | dir
  | nms
  | hyst
  | run
deriving DecidableEq, Repr

/-- Every command, in the table's order. -/
def Instr.all : List Instr :=
  [.nop, .convX, .convY, .descaleX, .descaleY, .grad, .mag, .dir, .nms, .hyst, .run]

end Sys2Proof
end

