-- ==== Sys2Proof/WellFormed.lean ====
section
/-! DEFINITION. When a 32-bit word is a legal command word (30_encoding R90 to R96), field by field.  A command of
`Instr` has no operands, so every term of `Instr` is well-formed; what can be ill-formed is a word. -/

namespace Sys2Proof

/-- OPCODE, bits [7:0] (R91). -/
def Word.opcode (w : Word) : Nat := w.toNat % 256

/-- KSEL, bit [8] (R92). -/
def Word.ksel (w : Word) : Bool := w.getLsbD 8

/-- RSVD, bits [31:9] (R93). -/
def Word.rsvd (w : Word) : Nat := w.toNat / 512

/-- The opcodes of R94: 0x00 to 0x07 and 0x0F. -/
def Word.opcodeKnown (w : Word) : Bool := Word.opcode w < 8 || Word.opcode w == 15

/-- KSEL is free for CONV and DESCALE and must be 0 for every other opcode (R92). -/
def Word.kselOk (w : Word) : Bool :=
  !Word.ksel w || Word.opcode w == 1 || Word.opcode w == 2

/-- RSVD must be 0 (R93). -/
def Word.rsvdOk (w : Word) : Bool := Word.rsvd w == 0

/-- A legal command word: none of the causes of R95 applies. -/
def Word.wellFormed (w : Word) : Bool := Word.opcodeKnown w && Word.kselOk w && Word.rsvdOk w

/-- A command has no field that could be out of range (R90: "no register-number fields, no immediates"). -/
def Instr.wellFormed (_ : Instr) : Bool := true

end Sys2Proof
end

