-- ==== Sys2Proof/Decode.lean ====
section
/-! DEFINITION. Decoding of command words, total and rejecting by name, and the encoder (30_encoding R90 to R97).
Decoding depends on the word alone, never on the state (R97). -/

namespace Sys2Proof

/-- Why a word is no command (R95), or why bytes hold no word. -/
inductive DecodeError where
  /-- RSVD is not 0 (R93). -/
  | reservedBits
  /-- OPCODE is not in the table of R94. -/
  | reservedOpcode
  /-- KSEL = 1 with an opcode other than CONV and DESCALE (R92). -/
  | kselNotAllowed
  /-- Fewer than the four bytes of a command word (R90: "there is exactly one length"). -/
  | tooShort
deriving DecidableEq, Repr

/-- The command that an OPCODE selects when KSEL = 0 (R94). -/
def decodePlain : Nat → Option Instr
  | 0 => some .nop
  | 1 => some .convX
  | 2 => some .descaleX
  | 3 => some .grad
  | 4 => some .mag
  | 5 => some .dir
  | 6 => some .nms
  | 7 => some .hyst
  | 15 => some .run
  | _ => none

/-- The command that an OPCODE selects when KSEL = 1: CONV and DESCALE only (R92, R94). -/
def decodeSelected : Nat → Option Instr
  | 1 => some .convY
  | 2 => some .descaleY
  | _ => none

/-- Decoding of one command word (R94, R95). -/
def decode (w : Word) : Except DecodeError Instr :=
  if Word.rsvdOk w then
    match decodePlain (Word.opcode w) with
    | none => .error .reservedOpcode
    | some i =>
      if Word.ksel w then
        match decodeSelected (Word.opcode w) with
        | some j => .ok j
        | none => .error .kselNotAllowed
      else .ok i
  else .error .reservedBits

/-- The word whose bytes, lowest address first, are given (R64: little-endian). -/
def wordOfBytes (b0 b1 b2 b3 : Byte) : Word :=
  BitVec.ofNat 32 (b0.toNat + 256 * (b1.toNat + 256 * (b2.toNat + 256 * b3.toNat)))

/-- The bytes of a word, lowest address first (R64). -/
def bytesOfWord (w : Word) : List Byte :=
  [BitVec.ofNat 8 w.toNat, BitVec.ofNat 8 (w.toNat / 256), BitVec.ofNat 8 (w.toNat / 65536),
    BitVec.ofNat 8 (w.toNat / 16777216)]

/-- Decoding of the first command word of any list of bytes, with the bytes that follow it. -/
def decodeBytes : List Byte → Except DecodeError (Instr × List Byte)
  | b0 :: b1 :: b2 :: b3 :: rest =>
    match decode (wordOfBytes b0 b1 b2 b3) with
    | .ok i => .ok (i, rest)
    | .error e => .error e
  | _ => .error .tooShort

/-- The command word of each command (R94). -/
def encode : Instr → Word
  | .nop => 0x00000000#32
  | .convX => 0x00000001#32
  | .convY => 0x00000101#32
  | .descaleX => 0x00000002#32
  | .descaleY => 0x00000102#32
  | .grad => 0x00000003#32
  | .mag => 0x00000004#32
  | .dir => 0x00000005#32
  | .nms => 0x00000006#32
  | .hyst => 0x00000007#32
  | .run => 0x0000000F#32

/-- The 32-bit word of a table row's bits: the low `nbits` bits of `w`, zero above (one word of 32 bits is the
longest instruction, R90). -/
def tableWord (nbits w : Nat) : Word := BitVec.ofNat 32 (w % 2 ^ nbits)

/-- The instruction the decoder reads from a row of spec/opcode_table.json, laid out as the four bytes the bus
carries and decoded from them. -/
def decodeTableWord (nbits w : Nat) : Option Instr :=
  match decodeBytes (bytesOfWord (tableWord nbits w)) with
  | .ok (i, _) => some i
  | .error _ => none

end Sys2Proof
end

