-- ==== Sys2Proof/Config.lean ====
section
/-! DEFINITION. What an implementation of the CEC fixes (00_scope R7), where a platform puts it (20_memory R60), and what the spec leaves to an
unconstrained draw (70_reset R252, 45_control R210). -/

namespace Sys2Proof

/-- The implementation parameters of R7, which CAP0 and CAP1 show (R23, R24), and `CEC_BASE`, the platform address of the
window, which no register shows (20_memory R60; log 15). -/
structure Params where
  maxH : Nat
  maxW : Nat
  maxN : Nat
  cecBase : Nat
deriving DecidableEq, Repr

/-- The legal values of R7, and the alignment of `CEC_BASE` to 2^26 (R60). -/
abbrev Params.legal (p : Params) : Prop :=
  (1 ≤ p.maxH ∧ p.maxH ≤ 1024) ∧ (1 ≤ p.maxW ∧ p.maxW ≤ 1024) ∧
    (1 ≤ p.maxN ∧ p.maxN ≤ 255 ∧ p.maxN % 2 = 1) ∧ p.cecBase % 2 ^ 26 = 0

/-- The reference configuration of R7.  DESIGN CHOICE (log 15): `CEC_BASE`, which the spec leaves to the platform, is 0
in it. -/
def Params.reference : Params := { maxH := 1024, maxW := 1024, maxN := 255, cecBase := 0 }

/-- The platform address of a window offset: `CEC_BASE + offset` (R60, R98). -/
def Params.address (p : Params) (a : Addr) : Nat := p.cecBase + a.toNat

/-- The window offset of a platform address, if the address lies in the window of 2^26 bytes at `CEC_BASE` (R60). -/
def Params.offset? (p : Params) (addr : Nat) : Option Nat :=
  if p.cecBase ≤ addr ∧ addr < p.cecBase + 2 ^ 26 then some (addr - p.cecBase) else none

/-- FREE VALUE (log 4, 7): the byte that draw number `n` gives the byte offset `a` of the window.  It stands
for "any value of the element type, each a separate draw, stable until written" (R251, R252) and for the
outputs of an aborted stage (R210).  It has no body, so no proof can use what it is. -/
opaque Config.freeByte (n a : Nat) : Byte

end Sys2Proof
end

