-- ==== Sys2Proof/Machine/State.lean ====
section
/-! DEFINITION. The state of the CEC as plain data, with the host that drives it and the turns that say who moves
next; the reasons a step can stop; the state right after reset.  INVENTORY.md, "## State", is the list it holds. -/

namespace Sys2Proof.Machine

/-- The error codes of R222; codes 5 to 7 are never produced. -/
inductive ErrCode where
  | none
  | cmd
  | dim
  | ksize
  | scale
deriving DecidableEq, Repr

/-- A stage of a command (R94, R47, R207).  DESCALE.X, DESCALE.Y and GRAD share the stage code 3 and differ in the
buffers they write (R124, R126), so the stage list tells them apart; `none` is the single stage of NOP (R207). -/
inductive Stage where
  | none
  | convX
  | convY
  | descaleX
  | descaleY
  | descaleXY
  | mag
  | dir
  | nms
  | hyst
deriving DecidableEq, Repr

/-- STATUS (R29), field by field; its reserved bits read 0 and have no storage (R39). -/
structure Status where
  busy : Bool
  done : Bool
  err : Bool
  ovr : Bool
  convOvf : Bool
  stage : BitVec 3
  errcode : ErrCode
deriving DecidableEq, Repr

/-- The six parameter registers at the widths they store (R35 to R38).  The same record is the latched set `P`
(R34). -/
structure ParamRegs where
  imgH : BitVec 16
  imgW : BitVec 16
  ksize : BitVec 8
  scale : BitVec 16
  thHi : Word
  thLo : Word
deriving DecidableEq, Repr

/-- The buffer storage: written bytes by byte offset in the window, addresses strictly rising (`Memory.wf`).  An
unlisted offset holds no written byte; the machine then reads its draw (log 4). -/
abbrev Memory := List Host.Cell

/-- The response of a transaction (R61). -/
inductive BusStatus where
  | okay
  | busError
deriving DecidableEq, Repr

/-- What a transaction answers: its response, and the word of a read (R61); a write carries no word back. -/
structure Response where
  status : BusStatus
  data : Option Word
deriving DecidableEq, Repr

/-- One line of a host program (R98).  `wr` and `rd` are the transactions the CEC sees, with the byte offset from
`CEC_BASE`; labels and `bnz` are the host's own control flow. -/
inductive HostLine where
  | wr (offset : Addr) (value : Word)
  | rd (offset : Addr)
  | label (name : Nat)
  | bnz (bits : Word) (name : Nat)
deriving DecidableEq, Repr

/-- The host agent (R71, R98): its program, the index of its next line, the last word it read, and the response of
its last transaction. -/
structure HostState where
  prog : List HostLine
  pc : Nat
  lastRead : Word
  resp : Option Response
deriving DecidableEq, Repr

/-- Who moves: the host issues its next line, the engine performs a stage, or the platform asserts `rst`
(R71, R72, R250). -/
inductive Turn where
  | host
  | engine
  | rst
deriving DecidableEq, Repr

/-- The whole state.  `turns` is the interleaving still to come (R72, R209: every order is admitted); `resetDraw` and
`nextDraw` number the draws of unspecified buffer bytes (R252, R210). -/
structure State where
  params : Params
  ie : Bool
  status : Status
  cmd : Word
  live : ParamRegs
  latched : ParamRegs
  stages : List Stage
  mem : Memory
  resetDraw : Nat
  nextDraw : Nat
  host : HostState
  turns : List Turn
deriving DecidableEq, Repr

/-- Why the model stops.  The CEC itself has no fault (93_implementation_defined: "The CEC has no `fault` or `stuck`
case"). -/
inductive Fault where
  /-- Raised by the host agent alone, when its program branches to a label the program does not define (R98 gives
  such a program no meaning).  Safe: the model stops where it knows nothing (log 17). -/
  | undefinedLabel (name : Nat)
deriving DecidableEq, Repr

/-- Why an instruction has no meaning. -/
inductive Refusal where
  /-- Raised by `exec` for an instruction whose meaning is not written yet; no arm uses it.  Safe. -/
  | notModelled (mnemonic : String)
deriving DecidableEq, Repr

/-- STATUS after reset (R29, R251). -/
def Status.reset : Status :=
  { busy := false, done := false, err := false, ovr := false, convOvf := false, stage := 0#3, errcode := .none }

/-- The parameter registers after reset (R35 to R38, R251). -/
def ParamRegs.reset : ParamRegs :=
  { imgH := 0#16, imgW := 0#16, ksize := 0#8, scale := 255#16, thHi := 100#32, thLo := 50#32 }

/-- DESIGN CHOICE (log 6): the latched set after reset, which the spec leaves unspecified and no stage reads before
an accept sets it (R34, R251). -/
def ParamRegs.unlatched : ParamRegs :=
  { imgH := 0#16, imgW := 0#16, ksize := 0#8, scale := 0#16, thHi := 0#32, thLo := 0#32 }

/-- DESIGN CHOICE (log 1, 17): the host agent before it is given a program. -/
def HostState.initial : HostState := { prog := [], pc := 0, lastRead := 0#32, resp := none }

/-- The machine right after a hard reset (R251), with the reference parameters (R7). -/
def State.reset : State :=
  { params := Params.reference
    ie := false
    status := Status.reset
    cmd := 0#32
    live := ParamRegs.reset
    latched := ParamRegs.unlatched
    stages := []
    mem := []
    resetDraw := 0
    nextDraw := 1
    host := HostState.initial
    turns := [] }

end Sys2Proof.Machine
end

