-- ==== Sys2Proof/Machine/Ops.lean ====
section
/-! DEFINITION. The named operations over the buffers and the registers: one block read and one block write of bytes,
the elements of the buffers built on them (10_state R40 to R42, 20_memory R62 to R67), the draws of unspecified
bytes, and the refusal of a command, which is all the CEC has in place of an exception (60_exceptions R220, R221). -/

namespace Sys2Proof.Machine

/-! ### Memory -/

/-- Canonical form: byte offsets strictly rising, so each listed once.  What an unlisted offset holds is no written
byte at all, so no entry can repeat it. -/
abbrev Memory.wf (m : Memory) : Prop := m.Pairwise (fun x y => x.1 < y.1)

/-- The written byte at an offset, if there is one. -/
def Memory.read : Memory → Nat → Option Byte
  | [], _ => none
  | (k, v) :: m, a => if k = a then some v else Memory.read m a

/-- The cells of a block of bytes from offset `a` upward. -/
def Memory.block (a : Nat) : List Byte → Memory
  | [] => []
  | b :: bs => (a, b) :: Memory.block (a + 1) bs

/-- Every write of the machine: the bytes `bs` at the offsets `a`, `a + 1`, …; every other offset keeps its cell. -/
def Memory.write (m : Memory) (a : Nat) (bs : List Byte) : Memory :=
  m.filter (fun c => decide (c.1 < a)) ++ Memory.block a bs ++
    m.filter (fun c => decide (a + bs.length ≤ c.1))

/-! ### The buffers (R40) -/

/-- The fourteen buffers of R40. -/
inductive Buf where
  | img
  | kx
  | ky
  | cx
  | cy
  | fx
  | fy
  | mag2
  | sup2
  | mag8
  | phi8
  | q
  | sup8
  | edge
deriving DecidableEq, Repr

/-- Every buffer, in the order of the address map (R62). -/
def Buf.all : List Buf :=
  [.img, .kx, .ky, .cx, .cy, .fx, .fy, .mag2, .sup2, .mag8, .phi8, .q, .sup8, .edge]

/-- Window base (R40, R62). -/
def Buf.base : Buf → Nat
  | .img => 0x00100000
  | .kx => 0x00200000
  | .ky => 0x00240000
  | .cx => 0x00400000
  | .cy => 0x00800000
  | .fx => 0x00C00000
  | .fy => 0x01000000
  | .mag2 => 0x01400000
  | .sup2 => 0x01C00000
  | .mag8 => 0x02400000
  | .phi8 => 0x02500000
  | .q => 0x02600000
  | .sup8 => 0x02700000
  | .edge => 0x02800000

/-- Window size in bytes (R40). -/
def Buf.windowSize : Buf → Nat
  | .img => 0x00100000
  | .kx => 0x00040000
  | .ky => 0x00040000
  | .cx => 0x00400000
  | .cy => 0x00400000
  | .fx => 0x00400000
  | .fy => 0x00400000
  | .mag2 => 0x00800000
  | .sup2 => 0x00800000
  | .mag8 => 0x00100000
  | .phi8 => 0x00100000
  | .q => 0x00100000
  | .sup8 => 0x00100000
  | .edge => 0x00100000

/-- Bytes of window per element: u8 and Q one, i32 four, u64 eight (R40, R64, R65). -/
def Buf.elemBytes : Buf → Nat
  | .img => 1
  | .kx => 4
  | .ky => 4
  | .cx => 4
  | .cy => 4
  | .fx => 4
  | .fy => 4
  | .mag2 => 8
  | .sup2 => 8
  | .mag8 => 1
  | .phi8 => 1
  | .q => 1
  | .sup8 => 1
  | .edge => 1

/-- Capacity in elements: KPIX for the kernels, PIX for the rest (R40). -/
def Buf.capacity (p : Params) : Buf → Nat
  | .kx => p.maxN * p.maxN
  | .ky => p.maxN * p.maxN
  | .img => p.maxH * p.maxW
  | .cx => p.maxH * p.maxW
  | .cy => p.maxH * p.maxW
  | .fx => p.maxH * p.maxW
  | .fy => p.maxH * p.maxW
  | .mag2 => p.maxH * p.maxW
  | .sup2 => p.maxH * p.maxW
  | .mag8 => p.maxH * p.maxW
  | .phi8 => p.maxH * p.maxW
  | .q => p.maxH * p.maxW
  | .sup8 => p.maxH * p.maxW
  | .edge => p.maxH * p.maxW

/-- The byte offset of element `e`: the element's window is `elemAddr b e` and the `elemBytes b` bytes from it
(R64, R65). -/
def Buf.elemAddr (b : Buf) (e : Nat) : Nat := b.base + b.elemBytes * e

/-- Whether a byte offset lies in the window of Q, whose elements hold two bits (R41). -/
def inQ (a : Nat) : Bool := decide (Buf.q.base ≤ a) && decide (a < Buf.q.base + Buf.q.windowSize)

/-- A byte as the buffer at offset `a` stores it: two bits in Q, all eight elsewhere (R41). -/
def storedByte (a : Nat) (v : Byte) : Byte := if inQ a then v &&& 3#8 else v

/-- FREE VALUE (log 4, 7): draw `n` of the byte at offset `a`, of the element's type (R252: "a Q element some value
in 0..3"). -/
def drawByte (n a : Nat) : Byte := storedByte a (Config.freeByte n a)

/-- What the buffer byte at offset `a` holds: the byte last written, or the draw of the last hard reset (R42, R252). -/
def State.byteAt (s : State) (a : Nat) : Byte :=
  match s.mem.read a with
  | some v => v
  | none => drawByte s.resetDraw a

/-- The `k` bytes from offset `a`. -/
def State.bytesAt (s : State) (a k : Nat) : List Byte := (List.range k).map (fun j => s.byteAt (a + j))

/-- The number that bytes form, lowest address least significant (R64, R65). -/
def natOfBytes : List Byte → Nat
  | [] => 0
  | b :: bs => b.toNat + 256 * natOfBytes bs

/-- The `k` bytes of a number, lowest address least significant (R64, R65). -/
def bytesOfNat : Nat → Nat → List Byte
  | 0, _ => []
  | k + 1, v => BitVec.ofNat 8 v :: bytesOfNat k (v / 256)

/-- Element `e` of a buffer as an unsigned number (R13: `Buf.NAME[e]`). -/
def State.elem (s : State) (b : Buf) (e : Nat) : Nat := natOfBytes (s.bytesAt (b.elemAddr e) b.elemBytes)

/-- Element `e` of an i32 buffer: `sext_32` of its pattern (R65). -/
def State.elemInt (s : State) (b : Buf) (e : Nat) : Int := (BitVec.ofNat 32 (s.elem b e)).toInt

/-- Element `e` of Q: the two bits it stores (R41). -/
def State.elemClass (s : State) (e : Nat) : Nat := s.elem .q e % 4

/-- The elements `0 .. n-1` of a buffer, as unsigned numbers. -/
def State.elems (s : State) (b : Buf) (n : Nat) : List Nat := (List.range n).map (s.elem b)

/-- The elements `0 .. n-1` of an i32 buffer. -/
def State.elemInts (s : State) (b : Buf) (n : Nat) : List Int := (List.range n).map (s.elemInt b)

/-- The elements `0 .. n-1` of Q. -/
def State.elemClasses (s : State) (n : Nat) : List Nat := (List.range n).map s.elemClass

/-- The bytes of successive elements of a buffer holding the unsigned numbers `vals`. -/
def regionBytes (b : Buf) (vals : List Nat) : List Byte := vals.flatMap (bytesOfNat b.elemBytes)

/-- A stage writes exactly the elements of its region of an output buffer, from element 0, all of them
(R42, R207); `vals` lists them. -/
def State.writeRegion (s : State) (b : Buf) (vals : List Nat) : State :=
  { s with mem := s.mem.write b.base (regionBytes b vals) }

/-- The two's-complement pattern of an integer narrowed to 32 bits: `wrap32` as the stored word (R12, R122). -/
def pattern32 (z : Int) : Nat := (BitVec.ofInt 32 z).toNat

/-- The elements `0 .. n-1` of a buffer become draw number `d` (R210: "<- any value"). -/
def State.drawRegion (s : State) (b : Buf) (n d : Nat) : State :=
  { s with
    mem := s.mem.write b.base ((List.range (b.elemBytes * n)).map (fun k => drawByte d (b.base + k))) }

/-! ### Stage and error codes -/

/-- The STAGE value of each stage (R47). -/
def Stage.code : Stage → BitVec 3
  | .none => 0#3
  | .convX => 1#3
  | .convY => 2#3
  | .descaleX => 3#3
  | .descaleY => 3#3
  | .descaleXY => 3#3
  | .mag => 4#3
  | .dir => 5#3
  | .nms => 6#3
  | .hyst => 7#3

/-- The output buffers of each stage (R121, R124, R126, R141, R151, R171, R181). -/
def Stage.outputs : Stage → List Buf
  | .none => []
  | .convX => [.cx]
  | .convY => [.cy]
  | .descaleX => [.fx]
  | .descaleY => [.fy]
  | .descaleXY => [.fx, .fy]
  | .mag => [.mag2, .mag8]
  | .dir => [.phi8, .q]
  | .nms => [.sup2, .sup8]
  | .hyst => [.edge]

/-- The ERRCODE value of each error (R222). -/
def ErrCode.code : ErrCode → Nat
  | .none => 0
  | .cmd => 1
  | .dim => 2
  | .ksize => 3
  | .scale => 4

/-! ### Refusal: the CEC's one way to report a command error (R205, R221) -/

/-- A command word refused at accept: CMD takes the word, DONE and ERR are set, ERRCODE takes the code, STAGE is 0;
no buffer, parameter or latched parameter changes and the CEC stays idle (R205, R221).  OVR and CONV_OVF stay.
There is no return to pair with it (R231): the host clears DONE and ERR by a STATUS write. -/
def State.refuse (s : State) (w : Word) (code : ErrCode) : State :=
  { s with cmd := w
           status := { s.status with done := true, err := true, errcode := code, stage := 0#3 } }

end Sys2Proof.Machine
end

