-- ==== Sys2Proof/Machine/Operands.lean ====
section
/-! DEFINITION. The operands of the commands: the numbers the latched parameters stand for (30_encoding R100), the
region and the interior (00_scope R14), zero-padded pixel access (41_convolver R120), and the exact arithmetic of
00_scope R12 that the stages share. -/

namespace Sys2Proof.Machine

/-- `H` of R100. -/
abbrev ParamRegs.H (p : ParamRegs) : Nat := p.imgH.toNat

/-- `W` of R100. -/
abbrev ParamRegs.W (p : ParamRegs) : Nat := p.imgW.toNat

/-- `N` of R100. -/
abbrev ParamRegs.N (p : ParamRegs) : Nat := p.ksize.toNat

/-- `SF` of R100. -/
abbrev ParamRegs.SF (p : ParamRegs) : Nat := p.scale.toNat

/-- `Th` of R100: TH_HI read as a signed integer (R38). -/
abbrev ParamRegs.Th (p : ParamRegs) : Int := p.thHi.toInt

/-- `Tl` of R100: TH_LO read as a signed integer (R38). -/
abbrev ParamRegs.Tl (p : ParamRegs) : Int := p.thLo.toInt

/-- The number of elements of the region (R14). -/
abbrev ParamRegs.region (p : ParamRegs) : Nat := p.H * p.W

/-- Whether the pixel at row `r`, column `c` is interior: `1 <= r <= H-2` and `1 <= c <= W-2` (R14). -/
def interior (h w r c : Nat) : Bool :=
  decide (1 ≤ r) && decide (r + 2 ≤ h) && decide (1 ≤ c) && decide (c + 2 ≤ w)

/-- `pad(y, x)`: the image inside its `h` by `w` grid and 0 outside (R120). -/
def pad (img : List Nat) (h w : Nat) (y x : Int) : Int :=
  if 0 ≤ y ∧ y < h ∧ 0 ≤ x ∧ x < w then (img.getD (y.toNat * w + x.toNat) 0 : Int) else 0

/-- The exact sum of `f 0 .. f (n-1)`. -/
def sumTo : Nat → (Nat → Int) → Int
  | 0, _ => 0
  | n + 1, f => sumTo n f + f n

/-- `clamp(z, lo, hi)` of R12. -/
def clamp (z lo hi : Int) : Int := if z < lo then lo else if hi < z then hi else z

/-- `wrap32(z)` of R12. -/
def wrap32 (z : Int) : Int := (BitVec.ofInt 32 z).toInt

/-- `rhaz(p, q)` of R12: `p / q` to the nearest integer, halves away from zero. -/
def rhaz (p : Int) (q : Nat) : Int :=
  let a := p.natAbs / q
  let r := p.natAbs % q
  let m : Int := ((a + if 2 * r ≥ q then 1 else 0 : Nat) : Int)
  if p < 0 then -m else m

/-- The least of a list of numbers (R143). -/
def leastOf : List Nat → Nat
  | [] => 0
  | [v] => v
  | v :: w :: vs => min v (leastOf (w :: vs))

/-- The greatest of a list of numbers (R143). -/
def greatestOf : List Nat → Nat
  | [] => 0
  | v :: vs => max v (greatestOf vs)

end Sys2Proof.Machine
end

