-- ==== Sys2Proof/Machine/Flags.lean ====
section
/-! DEFINITION. The STATUS and CTRL registers as words, the write-one-to-clear rule, the sticky overflow flag and the
interrupt level (10_state R28 to R33, R45, R46, 60_exceptions R227).  The CEC has no other flag (R46). -/

namespace Sys2Proof.Machine

/-- STATUS as the host reads it (R29): BUSY [0], DONE [1], ERR [2], OVR [3], CONV_OVF [4], STAGE [10:8],
ERRCODE [18:16], every other bit 0. -/
def Status.toWord (t : Status) : Word :=
  BitVec.ofNat 32 (t.busy.toNat + 2 * t.done.toNat + 4 * t.err.toNat + 8 * t.ovr.toNat +
    16 * t.convOvf.toNat + 256 * t.stage.toNat + 65536 * t.errcode.code)

/-- A write of `w` to STATUS: clears each W1C bit whose bit in `w` is 1, and ERRCODE with ERR; BUSY and STAGE are
read-only (R29). -/
def Status.clearBits (t : Status) (w : Word) : Status :=
  { t with done := t.done && !w.getLsbD 1
           err := t.err && !w.getLsbD 2
           ovr := t.ovr && !w.getLsbD 3
           convOvf := t.convOvf && !w.getLsbD 4
           errcode := if w.getLsbD 2 then .none else t.errcode }

/-- CTRL as the host reads it: IE in bit 0, everything else 0 (R28). -/
def State.ctrlWord (s : State) : Word := BitVec.ofNat 32 s.ie.toNat

/-- The sticky overflow flag of a convolution stage: set when some sum left 32 bits, never cleared (R33, R121). -/
def State.orConvOvf (s : State) (ovf : Bool) : State :=
  { s with status := { s.status with convOvf := s.status.convOvf || ovf } }

/-- Whether an exact sum is outside `-2^31 .. 2^31 - 1` (R121). -/
def outside32 (z : Int) : Bool := decide (z < -2147483648) || decide (2147483647 < z)

/-- The interrupt output, at every instant (R45, R227). -/
def State.irq (s : State) : Bool := s.ie && s.status.done

end Sys2Proof.Machine
end

