-- ==== Sys2Proof/Machine/ConvolverStages.lean ====
section
/-! DEFINITION. The stages CONVX, CONVY and DESCALE (41_convolver R120 to R126). -/

namespace Sys2Proof.Machine

/-- The exact sum of R121 at row `r`, column `c`: correlation form, the kernel not flipped (R123). -/
def convAcc (img : List Nat) (ker : List Int) (h w n r c : Nat) : Int :=
  sumTo n (fun di => sumTo n (fun dj =>
    pad img h w ((r : Int) + di - (n / 2 : Nat)) ((c : Int) + dj - (n / 2 : Nat)) * ker.getD (di * n + dj) 0))

/-- The exact sums of the whole region, row by row (R121). -/
def convolve (img : List Nat) (ker : List Int) (h w n : Nat) : List Int :=
  (List.range (h * w)).map (fun e => convAcc img ker h w n (e / w) (e % w))

/-- The sums that a convolution with kernel buffer `k` finds in state `s` (operands of R121). -/
def State.convSums (s : State) (k : Buf) : List Int :=
  convolve (s.elems .img s.latched.region) (s.elemInts k (s.latched.N * s.latched.N))
    s.latched.H s.latched.W s.latched.N

/-- One convolution stage: kernel buffer `k` into `out`, each sum narrowed by `wrap32`, CONV_OVF set if some sum
left 32 bits (R121, R122). -/
def convStage (k out : Buf) (s : State) : State :=
  let sums := s.convSums k
  (s.writeRegion out (sums.map pattern32)).orConvOvf (sums.any outside32)

/-- One DESCALE of a convolution buffer into a gradient buffer (R124). -/
def descaleStage (src out : Buf) (s : State) : State :=
  s.writeRegion out ((s.elemInts src s.latched.region).map (fun c => pattern32 (rhaz c s.latched.SF)))

/-- The DESCALE stage of GRAD and RUN: both components, element by element (R126). -/
def descaleBoth (s : State) : State := descaleStage .cy .fy (descaleStage .cx .fx s)

end Sys2Proof.Machine
end

