-- ==== Sys2Proof/Machine/GradientStages.lean ====
section
/-! DEFINITION. The stages MAG and DIR: the squared magnitude, the min-max normalisation, the direction byte and the
quantizer (42_gradient_direction R140 to R153). -/

namespace Sys2Proof.Machine

/-! ### Min-max normalisation -/

/-- The exact test of R144: whether `k*sqrt(hi) + (255-k)*sqrt(lo) <= 255*sqrt(v)`, in integers. -/
def normTest (lo hi v k : Nat) : Bool :=
  let A : Int := 65025 * (v : Int) - (k : Int) ^ 2 * hi - (255 - (k : Int)) ^ 2 * lo
  decide (0 ≤ A) && decide (4 * (k : Int) ^ 2 * (255 - (k : Int)) ^ 2 * hi * lo ≤ A ^ 2)

/-- The largest `k` up to a bound that passes a test, 0 if none does. -/
def largestUpTo (t : Nat → Bool) : Nat → Nat
  | 0 => 0
  | k + 1 => if t (k + 1) then k + 1 else largestUpTo t k

/-- One value of `norm8` for given least and greatest values (R143, R144). -/
def norm8Value (lo hi v : Nat) : Nat := if hi = lo then 0 else largestUpTo (normTest lo hi v) 255

/-- `norm8` of a list of squared values (R143); a constant list gives all zeros (R145). -/
def norm8 (vs : List Nat) : List Nat :=
  let lo := leastOf vs
  let hi := greatestOf vs
  vs.map (norm8Value lo hi)

/-! ### Magnitude -/

/-- `fx^2 + fy^2`, exact (R141, R142). -/
def magSquared (fx fy : Int) : Nat := (fx * fx + fy * fy).toNat

/-- The squared magnitudes of the region (R141). -/
def State.magSquares (s : State) : List Nat :=
  List.zipWith magSquared (s.elemInts .fx s.latched.region) (s.elemInts .fy s.latched.region)

/-- The MAG stage (R141). -/
def magStage (s : State) : State :=
  let m := s.magSquares
  (s.writeRegion .mag2 m).writeRegion .mag8 (norm8 m)

/-! ### Direction

`phi8` is computed exactly (R147, R148; log 11).  With `u = theta / 360`, a turn count `a` and a vector `z^n` satisfy
`n * u = a + (angle of z^n, in turns)`; doubling `n` carries a turn when the angle is at least half a turn, and adding
1 to `n` carries one when the new angle falls below that of `z`. -/

/-- A vector of integers, taken as the complex number `x + i*y`. -/
structure Vec where
  x : Int
  y : Int
deriving DecidableEq, Repr

/-- The complex product: angles add. -/
def Vec.mul (u v : Vec) : Vec := { x := u.x * v.x - u.y * v.y, y := u.x * v.y + u.y * v.x }

/-- Whether the angle of a nonzero vector, in [0, 360), is at least 180. -/
def Vec.lowerHalf (v : Vec) : Bool := decide (v.y < 0) || (decide (v.y = 0) && decide (v.x < 0))

/-- Whether the angle of `u` is below the angle of `v`, both nonzero, angles in [0, 360). -/
def Vec.angleLt (u v : Vec) : Bool :=
  if u.lowerHalf = v.lowerHalf then decide (0 < u.x * v.y - u.y * v.x) else v.lowerHalf

/-- From `n` to `2*n + 1`: the turn count and `z^n`. -/
def turnStep (z : Vec) (t : Nat × Vec) : Nat × Vec :=
  let sq := t.2.mul t.2
  let next := sq.mul z
  (2 * t.1 + t.2.lowerHalf.toNat + (next.angleLt z).toNat, next)

/-- The turn count and power of `z` after `k` steps from `n = 1`: `n = 2^(k+1) - 1`. -/
def turns (z : Vec) : Nat → Nat × Vec
  | 0 => (0, z)
  | k + 1 => turnStep z (turns z k)

/-- `phi8(fx, fy) = floor(theta * 255 / 360 + 1/2)` (R147): the whole turns of `z^255`, plus one when the rest is at
least half a turn; 0 for the zero vector, whose angle is 0 (R146). -/
def phi8 (fx fy : Int) : Nat :=
  if fx = 0 ∧ fy = 0 then 0
  else
    let t := turns { x := fx, y := fy } 7
    t.1 + t.2.lowerHalf.toNat

/-- The exact quantizer (R150). -/
def qclass (fx fy : Int) : Nat :=
  let a : Int := fx.natAbs
  let b : Int := fy.natAbs
  if fx = 0 ∧ fy = 0 then 0
  else if (a + b) ^ 2 < 2 * a ^ 2 then 0
  else if (a + b) ^ 2 < 2 * b ^ 2 then 2
  else if fx * fy > 0 then 1
  else 3

/-- The DIR stage (R151). -/
def dirStage (s : State) : State :=
  let fx := s.elemInts .fx s.latched.region
  let fy := s.elemInts .fy s.latched.region
  (s.writeRegion .phi8 (List.zipWith phi8 fx fy)).writeRegion .q (List.zipWith qclass fx fy)

end Sys2Proof.Machine
end

