-- ==== Sys2Proof/Machine/HystStage.lean ====
section
/-! DEFINITION. The HYST stage: dual-threshold tracing with 8-connectivity (44_hysteresis R180 to R188).  The traced set
is found by repeated relaxation passes, which 70_reset R263 names as an equivalent of the work list (log 12). -/

namespace Sys2Proof.Machine

/-- Threshold conditioning (R180): both clamped to 0..255 and put in order; the pair is `(th, tl)`. -/
def conditionThresholds (Th Tl : Int) : Nat × Nat :=
  let th := (clamp Th 0 255).toNat
  let tl := (clamp Tl 0 255).toNat
  if th < tl then (tl, th) else (th, tl)

/-- The eight neighbours of the interior pixel at row `r`, column `c`, as elements (R183). -/
def neighbours (w r c : Nat) : List Nat :=
  [(r - 1) * w + (c - 1), (r - 1) * w + c, (r - 1) * w + (c + 1),
    r * w + (c - 1), r * w + (c + 1),
    (r + 1) * w + (c - 1), (r + 1) * w + c, (r + 1) * w + (c + 1)]

/-- Whether element `e` is interior with a normalised value of at least `t`: `Weak` for `tl`, `Strong` for `th`
(R181). -/
def atLeast (n : List Nat) (h w t e : Nat) : Bool :=
  interior h w (e / w) (e % w) && decide (t ≤ n.getD e 0)

/-- One relaxation pass: a weak pixel next to a marked one becomes marked. -/
def relaxPass (n : List Nat) (h w tl : Nat) (marked : List Bool) : List Bool :=
  (List.range (h * w)).map (fun e =>
    marked.getD e false ||
      (atLeast n h w tl e && (neighbours w (e / w) (e % w)).any (fun q => marked.getD q false)))

/-- Passes until nothing changes, at most `fuel` of them. -/
def relax (n : List Nat) (h w tl : Nat) : Nat → List Bool → List Bool
  | 0, marked => marked
  | fuel + 1, marked =>
    let next := relaxPass n h w tl marked
    if next = marked then marked else relax n h w tl fuel next

/-- The set `Edge` of R181 as a list of marks: from the strong pixels through weak ones.  The region has `h * w`
pixels, so that many passes suffice. -/
def traceMarks (n : List Nat) (h w th tl : Nat) : List Bool :=
  relax n h w tl (h * w) ((List.range (h * w)).map (atLeast n h w th))

/-- The edge map of squared values (R181): 255 on `Edge`, 0 elsewhere. -/
def traceEdges (sup : List Nat) (h w : Nat) (Th Tl : Int) : List Nat :=
  let t := conditionThresholds Th Tl
  (traceMarks (norm8 sup) h w t.1 t.2).map (fun b => if b then 255 else 0)

/-- The HYST stage (R181): reads SUP2 alone, writes EDGE alone (R186). -/
def hystStage (s : State) : State :=
  let p := s.latched
  s.writeRegion .edge (traceEdges (s.elems .sup2 p.region) p.H p.W p.Th p.Tl)

end Sys2Proof.Machine
end

