-- ==== Sys2Proof/Machine/NmsStage.lean ====
section
/-! DEFINITION. The NMS stage: suppression along the quantized direction (43_nms R170 to R174). -/

namespace Sys2Proof.Machine

/-- The two neighbour offsets of a class, as (row, column) pairs (R170; 90_conflicts C1: the explicit offsets). -/
def neighbourOffsets (cls : Nat) : (Int × Int) × (Int × Int) :=
  if cls = 0 then ((0, -1), (0, 1))
  else if cls = 1 then ((-1, 1), (1, -1))
  else if cls = 2 then ((-1, 0), (1, 0))
  else ((-1, -1), (1, 1))

/-- The value at row `r`, column `c` displaced by an offset, in a grid of `w` columns. -/
def atOffset (m : List Nat) (w r c : Nat) (d : Int × Int) : Nat :=
  m.getD ((((r : Int) + d.1) * w + ((c : Int) + d.2)).toNat) 0

/-- What NMS writes at row `r`, column `c` (R171): the value when it is at least both neighbours, else 0; 0 on the
border. -/
def nmsValue (m q : List Nat) (h w r c : Nat) : Nat :=
  if interior h w r c then
    let d := neighbourOffsets (q.getD (r * w + c) 0)
    let v := m.getD (r * w + c) 0
    if atOffset m w r c d.1 ≤ v ∧ atOffset m w r c d.2 ≤ v then v else 0
  else 0

/-- The suppressed field of the region, squared (R171). -/
def suppress (m q : List Nat) (h w : Nat) : List Nat :=
  (List.range (h * w)).map (fun e => nmsValue m q h w (e / w) (e % w))

/-- The NMS stage (R171). -/
def nmsStage (s : State) : State :=
  let p := s.latched
  let v := suppress (s.elems .mag2 p.region) (s.elemClasses p.region) p.H p.W
  (s.writeRegion .sup2 v).writeRegion .sup8 (norm8 v)

end Sys2Proof.Machine
end

