-- ==== Sys2Proof/Machine/Control.lean ====
section
/-! DEFINITION. The life of a command: validation, accept, refusal and engine step (45_control R200 to R207), and the two
resets (R210, 70_reset R250 to R253).  Every command's meaning is `commandStep` of that command. -/

namespace Sys2Proof.Machine

/-- Which checks a command makes at accept, beside E_CMD (R206). -/
structure Checks where
  dim : Bool
  ksize : Bool
  scale : Bool
deriving DecidableEq, Repr

/-- The validation table of R206. -/
def checksOf : Instr → Checks
  | .nop => { dim := false, ksize := false, scale := false }
  | .convX => { dim := true, ksize := true, scale := false }
  | .convY => { dim := true, ksize := true, scale := false }
  | .descaleX => { dim := true, ksize := false, scale := true }
  | .descaleY => { dim := true, ksize := false, scale := true }
  | .grad => { dim := true, ksize := true, scale := true }
  | .mag => { dim := true, ksize := false, scale := false }
  | .dir => { dim := true, ksize := false, scale := false }
  | .nms => { dim := true, ksize := false, scale := false }
  | .hyst => { dim := true, ksize := false, scale := false }
  | .run => { dim := true, ksize := true, scale := true }

/-- The stages of each command, in order (R94). -/
def stagesOf : Instr → List Stage
  | .nop => [.none]
  | .convX => [.convX]
  | .convY => [.convY]
  | .descaleX => [.descaleX]
  | .descaleY => [.descaleY]
  | .grad => [.convX, .convY, .descaleXY]
  | .mag => [.mag]
  | .dir => [.dir]
  | .nms => [.nms]
  | .hyst => [.hyst]
  | .run => [.convX, .convY, .descaleXY, .mag, .dir, .nms, .hyst]

/-- `1 <= IMG_H <= MAX_H` and `1 <= IMG_W <= MAX_W` (R206). -/
def dimOk (p : Params) (r : ParamRegs) : Bool :=
  decide (1 ≤ r.H) && decide (r.H ≤ p.maxH) && decide (1 ≤ r.W) && decide (r.W ≤ p.maxW)

/-- KSIZE odd and `1 <= KSIZE <= MAX_N` (R206). -/
def ksizeOk (p : Params) (r : ParamRegs) : Bool :=
  decide (r.N % 2 = 1) && decide (1 ≤ r.N) && decide (r.N ≤ p.maxN)

/-- `SCALE != 0` (R206). -/
def scaleOk (r : ParamRegs) : Bool := decide (r.SF ≠ 0)

/-- The first code that applies, in the order E_DIM, E_KSIZE, E_SCALE (R206, R223); E_CMD is decided before, by the
decoder. -/
def validate (p : Params) (r : ParamRegs) (c : Checks) : ErrCode :=
  if c.dim && !dimOk p r then .dim
  else if c.ksize && !ksizeOk p r then .ksize
  else if c.scale && !scaleOk r then .scale
  else .none

/-- The STAGE value of the first stage of a list, 0 for none (R205). -/
def firstCode : List Stage → BitVec 3
  | [] => 0#3
  | st :: _ => st.code

/-- The accept of a legal, valid command: CMD takes its word, DONE, ERR and ERRCODE are cleared, the parameters are
latched, its stages are listed, BUSY is set and STAGE names the first stage (R205). -/
def State.start (s : State) (i : Instr) : State :=
  { s with cmd := encode i
           status := { s.status with busy := true, done := false, err := false, errcode := .none,
                                     stage := firstCode (stagesOf i) }
           latched := s.live
           stages := stagesOf i }

/-- The accept of a legal command word by an idle CEC (R205): refused with the code that validation gives on the LIVE
registers, or started. -/
def accept (i : Instr) (s : State) : State :=
  match validate s.params s.live (checksOf i) with
  | .none => s.start i
  | .cmd => s.refuse (encode i) .cmd
  | .dim => s.refuse (encode i) .dim
  | .ksize => s.refuse (encode i) .ksize
  | .scale => s.refuse (encode i) .scale

/-- What a stage does to the buffers and to CONV_OVF, with the latched parameters (R207 and the family rules). -/
def performStage : Stage → State → State
  | .none, s => s
  | .convX, s => convStage .kx .cx s
  | .convY, s => convStage .ky .cy s
  | .descaleX, s => descaleStage .cx .fx s
  | .descaleY, s => descaleStage .cy .fy s
  | .descaleXY, s => descaleBoth s
  | .mag, s => magStage s
  | .dir, s => dirStage s
  | .nms, s => nmsStage s
  | .hyst, s => hystStage s

/-- After a stage, with `rest` still to run (R207): done when nothing is left, STAGE then keeping its value; else
STAGE names the next stage. -/
def State.advance (s : State) : List Stage → State
  | [] => { s with stages := [], status := { s.status with busy := false, done := true } }
  | nx :: rest => { s with stages := nx :: rest, status := { s.status with stage := nx.code } }

/-- One engine step of a busy CEC (R207).  A busy CEC always has a stage to run; in the states where it has none, which
no run reaches, the step changes nothing (log 8). -/
def engineStep (s : State) : State :=
  match s.stages with
  | [] => s
  | st :: rest => (performStage st s).advance rest

/-- One step in the life of command `i` (log 9): its accept when the CEC is idle (R205), its next stage when the CEC is
busy with it (R207). -/
def commandStep (i : Instr) (s : State) : Host.Outcome State Fault Refusal :=
  .next (if s.status.busy then engineStep s else accept i s)

/-- Each output region of the stage in progress becomes a draw (R210, I8; log 7). -/
def State.drawOutputs (s : State) (d : Nat) : List Buf → State
  | [] => s
  | b :: bs => (s.drawRegion b s.latched.region d).drawOutputs d bs

/-- Abort of a running command by a soft reset: the stage in progress is the head of the stage list, which STATUS.STAGE
names (R210); its outputs are any value, a new draw, and the stage list is dropped. -/
def State.abort (s : State) : State :=
  if s.status.busy then
    match s.stages with
    | [] => s
    | st :: _ => { s.drawOutputs s.nextDraw st.outputs with stages := [], nextDraw := s.nextDraw + 1 }
  else s

/-- Soft reset (R210, R253): abort, then CTRL, STATUS and CMD at their reset values; parameters and other buffers
keep their values.  DESIGN CHOICE (log 20): the latched set `P`, which neither rule names, is kept as it was. -/
def softReset (s : State) : State :=
  { s.abort with ie := false, status := Status.reset, cmd := 0#32 }

/-- Hard reset (R250, R251): the registers at their reset values, nothing running, every buffer byte a new draw; the
constants, the host and the turns are not the CEC's to reset (log 4, 5, 19). -/
def hardReset (s : State) : State :=
  { State.reset with params := s.params
                     resetDraw := s.nextDraw
                     nextDraw := s.nextDraw + 1
                     host := s.host
                     turns := s.turns }

end Sys2Proof.Machine
end

