-- ==== Sys2Proof/Machine/Convolver.lean ====
section
/-! DEFINITION. The meanings of CONV.X, CONV.Y, DESCALE.X, DESCALE.Y and GRAD (41_convolver). -/

namespace Sys2Proof.Machine

/-- CONV.X (R121, KSEL = 0): checks E_DIM and E_KSIZE; stage CONVX, kernel KX into CX. -/
def execConvX (s : State) : Host.Outcome State Fault Refusal := commandStep .convX s

/-- CONV.Y (R121, KSEL = 1): checks E_DIM and E_KSIZE; stage CONVY, kernel KY into CY. -/
def execConvY (s : State) : Host.Outcome State Fault Refusal := commandStep .convY s

/-- DESCALE.X (R124, KSEL = 0): checks E_DIM and E_SCALE; CX into FX. -/
def execDescaleX (s : State) : Host.Outcome State Fault Refusal := commandStep .descaleX s

/-- DESCALE.Y (R124, KSEL = 1): checks E_DIM and E_SCALE; CY into FY. -/
def execDescaleY (s : State) : Host.Outcome State Fault Refusal := commandStep .descaleY s

/-- GRAD (R126): checks E_DIM, E_KSIZE and E_SCALE; stages CONVX, CONVY, DESCALE of both components. -/
def execGrad (s : State) : Host.Outcome State Fault Refusal := commandStep .grad s

end Sys2Proof.Machine
end

