-- ==== Sys2Proof/Machine/GradientDirection.lean ====
section
/-! DEFINITION. The meanings of MAG and DIR (42_gradient_direction). -/

namespace Sys2Proof.Machine

/-- MAG (R141): checks E_DIM; FX, FY into MAG2 and MAG8. -/
def execMag (s : State) : Host.Outcome State Fault Refusal := commandStep .mag s

/-- DIR (R151): checks E_DIM; FX, FY into PHI8 and Q. -/
def execDir (s : State) : Host.Outcome State Fault Refusal := commandStep .dir s

end Sys2Proof.Machine
end

