-- ==== Sys2Proof/Machine/Hysteresis.lean ====
section
/-! DEFINITION. The meaning of HYST (44_hysteresis). -/

namespace Sys2Proof.Machine

/-- HYST (R181): checks E_DIM; SUP2 and the latched thresholds into EDGE. -/
def execHyst (s : State) : Host.Outcome State Fault Refusal := commandStep .hyst s

end Sys2Proof.Machine
end

