-- ==== Sys2Proof/Machine/Nms.lean ====
section
/-! DEFINITION. The meaning of NMS (43_nms). -/

namespace Sys2Proof.Machine

/-- NMS (R171): checks E_DIM; MAG2, Q into SUP2 and SUP8. -/
def execNms (s : State) : Host.Outcome State Fault Refusal := commandStep .nms s

end Sys2Proof.Machine
end

