-- ==== Sys2Proof/Machine/Pipeline.lean ====
section
/-! DEFINITION. The meanings of NOP and RUN (45_control). -/

namespace Sys2Proof.Machine

/-- NOP (R201): no check; one engine step that writes no buffer. -/
def execNop (s : State) : Host.Outcome State Fault Refusal := commandStep .nop s

/-- RUN (R202, R203): checks E_DIM, E_KSIZE and E_SCALE; stages CONVX, CONVY, DESCALE, MAG, DIR, NMS, HYST. -/
def execRun (s : State) : Host.Outcome State Fault Refusal := commandStep .run s

end Sys2Proof.Machine
end

