-- ==== Sys2Proof/Machine/Dispatch.lean ====
section
/-! DEFINITION. One arm per command of spec/opcode_table.json. -/

namespace Sys2Proof.Machine

/-- One step in the life of a command: its accept by an idle CEC, or its next stage in a busy one (log 9). -/
def exec (i : Instr) (s : State) : Host.Outcome State Fault Refusal :=
  match i with
  | .nop => Sys2Proof.Machine.execNop s
  | .convX => Sys2Proof.Machine.execConvX s
  | .convY => Sys2Proof.Machine.execConvY s
  | .descaleX => Sys2Proof.Machine.execDescaleX s
  | .descaleY => Sys2Proof.Machine.execDescaleY s
  | .grad => Sys2Proof.Machine.execGrad s
  | .mag => Sys2Proof.Machine.execMag s
  | .dir => Sys2Proof.Machine.execDir s
  | .nms => Sys2Proof.Machine.execNms s
  | .hyst => Sys2Proof.Machine.execHyst s
  | .run => Sys2Proof.Machine.execRun s

end Sys2Proof.Machine
end

