-- ==== Sys2Proof/Machine/Bus.lean ====
section
/-! DEFINITION. The host bus: the register map (10_state R22), the address map and access rules (20_memory R60 to R69),
and what each register read and write does. -/

namespace Sys2Proof.Machine

/-- The thirteen registers of R22. -/
inductive Reg where
  | id
  | version
  | cap0
  | cap1
  | ctrl
  | status
  | cmd
  | imgH
  | imgW
  | ksize
  | scale
  | thHi
  | thLo
deriving DecidableEq, Repr

/-- Every register, in the order of R22. -/
def Reg.all : List Reg :=
  [.id, .version, .cap0, .cap1, .ctrl, .status, .cmd, .imgH, .imgW, .ksize, .scale, .thHi, .thLo]

/-- Byte offset of a register (R22). -/
def Reg.offset : Reg → Nat
  | .id => 0x000
  | .version => 0x004
  | .cap0 => 0x008
  | .cap1 => 0x00C
  | .ctrl => 0x010
  | .status => 0x014
  | .cmd => 0x018
  | .imgH => 0x020
  | .imgW => 0x024
  | .ksize => 0x028
  | .scale => 0x02C
  | .thHi => 0x030
  | .thLo => 0x034

/-- The register at a word-aligned offset, if one is mapped there (R22). -/
def Reg.at? (a : Nat) : Option Reg := Reg.all.find? (fun r => r.offset == a)

/-- The buffer whose window holds an offset, if one does (R62). -/
def Buf.at? (a : Nat) : Option Buf :=
  Buf.all.find? (fun b => decide (b.base ≤ a) && decide (a < b.base + b.windowSize))

/-- Where a transaction lands: a register, or the word of a buffer at an offset of the window. -/
inductive Site where
  | reg (r : Reg)
  | buf (b : Buf)
deriving DecidableEq, Repr

/-- The index of the first element that the word at offset `a` of buffer `b` holds (R64, R65, R67). -/
def Buf.elemAt (b : Buf) (a : Nat) : Nat := (a - b.base) / b.elemBytes

/-- Where an access is served; `none` is a busError: misaligned (R63), unmapped (R62, R22), unbacked (R67), or a buffer
while BUSY = 1 (R68). -/
def State.access (s : State) (a : Nat) : Option Site :=
  if a % 4 ≠ 0 then none
  else if a < 0x00100000 then (Reg.at? a).map .reg
  else
    match Buf.at? a with
    | none => none
    | some b =>
      if s.status.busy then none
      else if b.elemAt a < b.capacity s.params then some (.buf b) else none

/-- What a register reads (R23 to R29, R34 to R39); a read changes nothing (R69). -/
def State.regRead (s : State) : Reg → Word
  | .id => 0x43454331#32
  | .version => 0x00010000#32
  | .cap0 => BitVec.ofNat 16 s.params.maxW ++ BitVec.ofNat 16 s.params.maxH
  | .cap1 => (BitVec.ofNat 8 s.params.maxN).zeroExtend 32
  | .ctrl => s.ctrlWord
  | .status => s.status.toWord
  | .cmd => s.cmd
  | .imgH => s.live.imgH.zeroExtend 32
  | .imgW => s.live.imgW.zeroExtend 32
  | .ksize => s.live.ksize.zeroExtend 32
  | .scale => s.live.scale.zeroExtend 32
  | .thHi => s.live.thHi
  | .thLo => s.live.thLo

/-- How many of the four byte lanes of the word at offset `a` of buffer `b` belong to elements below the capacity;
the others read 0 and ignore writes (R67). -/
def lanesBacked (p : Params) (b : Buf) (a : Nat) : Nat :=
  min 4 (b.elemBytes * b.capacity p - (a - b.base))

/-- The word at offset `a` of buffer `b`, little-endian (R64, R65). -/
def State.bufRead (s : State) (b : Buf) (a : Nat) : Word :=
  BitVec.ofNat 32 (natOfBytes (s.bytesAt a (lanesBacked s.params b a)))

/-- A word written at offset `a` of buffer `b`: its backed lanes, a Q element keeping two bits (R41, R64, R65, R67). -/
def State.bufWrite (s : State) (b : Buf) (a : Nat) (v : Word) : State :=
  { s with mem := s.mem.write a (((bytesOfWord v).take (lanesBacked s.params b a)).map (storedByte a)) }

/-- A read transaction (R61, R66): busError reads 0. -/
def State.busRead (s : State) (a : Nat) : BusStatus × Word :=
  match s.access a with
  | none => (.busError, 0#32)
  | some (.reg r) => (.okay, s.regRead r)
  | some (.buf b) => (.okay, s.bufRead b a)

/-- A write of `w` to CMD (R27): an overrun while busy (R208); else the accept of R205: an illegal word is refused with
E_CMD (R95), a legal one runs as its command. -/
def cmdWrite (w : Word) (s : State) : Host.Outcome State Fault Refusal :=
  if s.status.busy then .next { s with status := { s.status with ovr := true } }
  else
    match decode w with
    | .error _ => .next (s.refuse w .cmd)
    | .ok i => exec i s

/-- A write of `w` to CTRL (R28): bit 1 set is a soft reset (R210), else IE takes bit 0. -/
def ctrlWrite (w : Word) (s : State) : State :=
  if w.getLsbD 1 then softReset s else { s with ie := w.getLsbD 0 }

/-- A write of `w` to a register (R22): read-only registers ignore it (R69); a parameter register keeps its low bits
(R35 to R38). -/
def regWrite (r : Reg) (w : Word) (s : State) : Host.Outcome State Fault Refusal :=
  match r with
  | .id => .next s
  | .version => .next s
  | .cap0 => .next s
  | .cap1 => .next s
  | .ctrl => .next (ctrlWrite w s)
  | .status => .next { s with status := s.status.clearBits w }
  | .cmd => cmdWrite w s
  | .imgH => .next { s with live := { s.live with imgH := w.setWidth 16 } }
  | .imgW => .next { s with live := { s.live with imgW := w.setWidth 16 } }
  | .ksize => .next { s with live := { s.live with ksize := w.setWidth 8 } }
  | .scale => .next { s with live := { s.live with scale := w.setWidth 16 } }
  | .thHi => .next { s with live := { s.live with thHi := w } }
  | .thLo => .next { s with live := { s.live with thLo := w } }

/-- The response of a write transaction (R61, R66). -/
def State.writeStatus (s : State) (a : Nat) : BusStatus :=
  match s.access a with
  | none => .busError
  | some _ => .okay

/-- What a write transaction does (R61, R66): busError changes nothing. -/
def busWrite (a : Nat) (v : Word) (s : State) : Host.Outcome State Fault Refusal :=
  match s.access a with
  | none => .next s
  | some (.reg r) => regWrite r v s
  | some (.buf b) => .next (s.bufWrite b a v)

/-! ### Transactions at platform addresses (R60, R61)

An address outside the window is another slave's: the CEC answers nothing and does nothing (log 15). -/

/-- `MemRead(addr, 4)`: the response and the word. -/
def State.memRead (s : State) (addr : Nat) : Option (BusStatus × Word) := (s.params.offset? addr).map s.busRead

/-- The response of `MemWrite(addr, 4, v)`. -/
def State.memWriteStatus (s : State) (addr : Nat) : Option BusStatus := (s.params.offset? addr).map s.writeStatus

/-- What `MemWrite(addr, 4, v)` does. -/
def memWrite (addr : Nat) (v : Word) (s : State) : Host.Outcome State Fault Refusal :=
  match s.params.offset? addr with
  | none => .next s
  | some a => busWrite a v s

end Sys2Proof.Machine
end

