-- ==== Sys2Proof/Machine/Agents.lean ====
section
/-! DEFINITION. The two agents and the reset input (20_memory R71, 70_reset R250), and whose turn it is (R72, R209).  The
host's lines are those of 30_encoding R98. -/

namespace Sys2Proof.Machine

/-- The host's next line becomes the one after its current line (R98: one transaction per line, in order). -/
def State.hostNext (s : State) : State := { s with host := { s.host with pc := s.host.pc + 1 } }

/-- The host notes the response of a write (R61). -/
def State.noteWrite (s : State) (r : Option BusStatus) : State :=
  { s with host := { s.host with resp := r.map (fun st => { status := st, data := none }) } }

/-- The host notes the response and the word of a read (R61, R98: "the last word read"). -/
def State.noteRead (s : State) (r : Option (BusStatus × Word)) : State :=
  { s with host := { s.host with
      lastRead := (r.map Prod.snd).getD s.host.lastRead
      resp := r.map (fun p => { status := p.1, data := some p.2 }) } }

/-- The index of the line after a label, if the program defines the label (R98). -/
def labelTarget (prog : List HostLine) (name : Nat) : Option Nat :=
  if HostLine.label name ∈ prog then some (prog.idxOf (HostLine.label name) + 1) else none

/-- One host line (R98): a transaction at `CEC_BASE + offset`, a label, or a branch on the last word read.  A
label and a branch each take one host turn, as a transaction does: DESIGN CHOICE (log 21). -/
def hostLine (l : HostLine) (s : State) : Host.Outcome State Fault Refusal :=
  match l with
  | .wr a v =>
    memWrite (s.params.address a) v (s.hostNext.noteWrite (s.memWriteStatus (s.params.address a)))
  | .rd a => .next (s.hostNext.noteRead (s.memRead (s.params.address a)))
  | .label _ => .next s.hostNext
  | .bnz bits name =>
    if s.host.lastRead &&& bits = 0#32 then .next s.hostNext
    else
      match labelTarget s.host.prog name with
      | some k => .next { s with host := { s.host with pc := k } }
      | none => .fault (.undefinedLabel name)

/-- The host's turn: its next line; nothing once the program is at its end. -/
def hostTurn (s : State) : Host.Outcome State Fault Refusal :=
  match s.host.prog[s.host.pc]? with
  | none => .next s
  | some l => hostLine l s

/-- The engine's turn (R207): enabled exactly while BUSY = 1.  The command in progress, in CMD, is decoded and its next
stage runs; where CMD held no command, which no busy run reaches, the stage list alone says what runs (log 8). -/
def engineTurn (s : State) : Host.Outcome State Fault Refusal :=
  if s.status.busy then
    match decode s.cmd with
    | .ok i => exec i s
    | .error _ => .next (engineStep s)
  else .next s

/-- One turn of the agent named. -/
def runTurn (t : Turn) (s : State) : Host.Outcome State Fault Refusal :=
  match t with
  | .host => hostTurn s
  | .engine => engineTurn s
  | .rst => .next (hardReset s)

/-- The next agent to move (R72, R209; log 2): the head of `turns`, any interleaving; when none is prescribed, the
engine if it is enabled (weak fairness), else the host. -/
def takeTurn (s : State) : Host.Outcome State Fault Refusal :=
  match s.turns with
  | t :: ts => runTurn t { s with turns := ts }
  | [] => if s.status.busy then engineTurn s else hostTurn s

/-- A host write to CMD placed as the host's next line (log 10). -/
def insertCmdWrite (h : HostState) (w : Word) : HostState :=
  { h with prog := h.prog.take h.pc ++ HostLine.wr (BitVec.ofNat 26 Reg.cmd.offset) w :: h.prog.drop h.pc
           pc := min h.pc h.prog.length }

end Sys2Proof.Machine
end

