-- ==== Sys2Proof/Machine/Step.lean ====
section
/-! DEFINITION. One step of the machine, and the placing of a command word where the next step takes it. -/

namespace Sys2Proof.Machine

/-- One atomic step: one transaction of the host (R61, R72), one engine step (R207), or one hard reset (R250).  DESIGN
CHOICE (log 21): a label line and a BNZ, which R98 calls the host's own control flow, each take a step of their own too, one
host turn, that changes nothing but the host and the turn spent. -/
def step (s : State) : Host.Outcome State Fault Refusal := takeTurn s

/-- The state whose very next step is the host's write of the word to the CMD of an idle CEC (log 10): a command is
started by that write alone (R27, R76). -/
def State.withFetchWord (s : State) (nbits w : Nat) : State :=
  { s with status := { s.status with busy := false }
           stages := []
           host := insertCmdWrite s.host (tableWord nbits w)
           turns := Turn.host :: s.turns }

end Sys2Proof.Machine
end

