-- ==== Sys2Proof/Machine/HostProgram.lean ====
section
/-! DEFINITION. Host programs in the spec's own syntax (30_encoding R98, R99) and the host procedures the spec writes with
it: loading the kernels (40 R114), the boot order (70_reset R254) and the per-image order (R255).  They are lists of host
lines; the step runs them as it runs any program. -/

namespace Sys2Proof.Machine

/-- A target of R98: a register name, a buffer element (`hi` picks the high word of a u64 element), or an offset. -/
inductive Target where
  | reg (r : Reg)
  | elem (b : Buf) (e : Nat) (hi : Bool)
  | off (a : Addr)
deriving DecidableEq, Repr

/-- The offset of a target: for an element, of the word that holds it (R64, R65, R98). -/
def Target.offset : Target → Addr
  | .reg r => BitVec.ofNat 26 r.offset
  | .elem b e hi => BitVec.ofNat 26 (b.base + b.elemBytes * e / 4 * 4 + if hi && b.elemBytes == 8 then 4 else 0)
  | .off a => a

/-- `WR target, value` (R98). -/
def wr (t : Target) (v : Word) : HostLine := .wr t.offset v

/-- `RD target` (R98). -/
def rd (t : Target) : HostLine := .rd t.offset

/-- `ISSUE mnemonic` (R99). -/
def issue (i : Instr) : List HostLine := [wr (.reg .cmd) (encode i)]

/-- `WAIT` with the fresh label `l` (R99): poll STATUS until BUSY = 0. -/
def wait (l : Nat) : List HostLine := [.label l, rd (.reg .status), .bnz 0x1#32 l]

/-- `EXEC mnemonic` with the fresh label `l` (R99). -/
def issueAndWait (i : Instr) (l : Nat) : List HostLine := issue i ++ wait l

/-- `ACK`: clear DONE and ERR (R99). -/
def ack : List HostLine := [wr (.reg .status) 0x6#32]

/-- A kernel pair as the host loads it: side `n`, scale factor, and the `n*n` elements of KX and KY, row by row. -/
structure Kernels where
  n : Nat
  scale : Nat
  kx : List Int
  ky : List Int
deriving DecidableEq, Repr

/-- Writes of the elements of an i32 buffer from element `e` (R65). -/
def writeInts (b : Buf) : Nat → List Int → List HostLine
  | _, [] => []
  | e, z :: zs => wr (.elem b e false) (BitVec.ofInt 32 z) :: writeInts b (e + 1) zs

/-- Loading the kernels: KSIZE, SCALE, then KX and KY with stride `n` (R114). -/
def loadKernels (k : Kernels) : List HostLine :=
  [wr (.reg .ksize) (BitVec.ofNat 32 k.n), wr (.reg .scale) (BitVec.ofNat 32 k.scale)] ++
    writeInts .kx 0 k.kx ++ writeInts .ky 0 k.ky

/-- Writes of the pixels of IMG, four to a word, the lanes past the last pixel 0 (R64, R254 step 6). -/
def writeImage (px : List Nat) : List HostLine :=
  (List.range ((px.length + 3) / 4)).map (fun k =>
    wr (.elem .img (4 * k) false)
      (BitVec.ofNat 32 (px.getD (4 * k) 0 + 256 * (px.getD (4 * k + 1) 0 +
        256 * (px.getD (4 * k + 2) 0 + 256 * px.getD (4 * k + 3) 0)))))

/-- Reads of the EDGE words of the first `n` elements. -/
def readEdges (n : Nat) : List HostLine :=
  (List.range ((n + 3) / 4)).map (fun k => rd (.elem .edge (4 * k) false))

/-- The recommended boot order of R254, steps 1 to 8, for an image of `h` by `w` pixels, with the interrupt enabled. -/
def boot (h w : Nat) (k : Kernels) (thHi thLo : Word) (px : List Nat) (i : Instr) (l : Nat) : List HostLine :=
  [rd (.reg .id), rd (.reg .version), rd (.reg .cap0), rd (.reg .cap1),
    wr (.reg .imgH) (BitVec.ofNat 32 h), wr (.reg .imgW) (BitVec.ofNat 32 w),
    wr (.reg .thHi) thHi, wr (.reg .thLo) thLo] ++
    loadKernels k ++ writeImage px ++ [wr (.reg .ctrl) 0x1#32] ++ issueAndWait i l

/-- One HYST for each threshold pair, reading EDGE after each (R255); labels from `l` upward. -/
def tracePairs (n : Nat) : Nat → List (Word × Word) → List HostLine
  | _, [] => []
  | l, (hi, lo) :: ps =>
    [wr (.reg .thHi) hi, wr (.reg .thLo) lo] ++ issueAndWait .hyst l ++ readEdges n ++ tracePairs n (l + 1) ps

/-- For each scale: load its kernels, GRAD, MAG, DIR, NMS, then every threshold pair (R255); labels from `l` upward. -/
def scales (n : Nat) (pairs : List (Word × Word)) : Nat → List Kernels → List HostLine
  | _, [] => []
  | l, k :: ks =>
    loadKernels k ++ issueAndWait .grad l ++ issueAndWait .mag (l + 1) ++ issueAndWait .dir (l + 2) ++
      issueAndWait .nms (l + 3) ++ tracePairs n (l + 4) pairs ++ scales n pairs (l + 4 + pairs.length) ks

/-- The per-image order of R255, the image's size being set. -/
def perImage (px : List Nat) (ks : List Kernels) (pairs : List (Word × Word)) (l : Nat) : List HostLine :=
  writeImage px ++ scales px.length pairs l ks

/-- The reference threshold pairs of R115. -/
def referencePairs : List (Word × Word) := [(100#32, 50#32), (150#32, 75#32)]

/-- A host that has just been given a program. -/
def State.load (s : State) (prog : List HostLine) : State :=
  { s with host := { s.host with prog := prog, pc := 0 } }

end Sys2Proof.Machine
end

