-- ==== Sys2Proof/Machine/Reference.lean ====
section
/-! DEFINITION. The spec's formulas over the REAL numbers, as it writes them: the normalisation, the direction angle and
its classes (42_gradient_direction R143, R146, R147, R149), and the host's kernel synthesis (40_kernel_synthesis R110 to
R115; log 18).  No step calls them: statements hold the integer functions of the machine against them. -/

namespace Sys2Proof.Machine.Reference

/-- The value `norm8` gives to a squared value `v` between the least and the greatest (R143). -/
noncomputable def rescale (lo hi v : Nat) : Int :=
  ⌊255 * (Real.sqrt v - Real.sqrt lo) / (Real.sqrt hi - Real.sqrt lo)⌋

/-- `atan2deg(y, x)` of R12, in (-180, 180]. -/
noncomputable def atan2deg (y x : Int) : ℝ := Complex.arg ⟨(x : ℝ), (y : ℝ)⟩ * 180 / Real.pi

/-- `theta(fx, fy)` of R146, in [0, 360). -/
noncomputable def theta (fx fy : Int) : ℝ :=
  if fx = 0 ∧ fy = 0 then 0
  else if 0 ≤ atan2deg fy fx then atan2deg fy fx else atan2deg fy fx + 360

/-- `phi8` as R147 writes it. -/
noncomputable def phi8 (fx fy : Int) : Int := ⌊theta fx fy * 255 / 360 + 1 / 2⌋

/-- The bands of R149: whether angle `t` belongs to class `c`. -/
def inClass (t : ℝ) (c : Nat) : Prop :=
  (c = 0 ∧ ((0 ≤ t ∧ t < 22.5) ∨ (157.5 ≤ t ∧ t < 202.5) ∨ (337.5 ≤ t ∧ t < 360))) ∨
  (c = 1 ∧ ((22.5 ≤ t ∧ t < 67.5) ∨ (202.5 ≤ t ∧ t < 247.5))) ∨
  (c = 2 ∧ ((67.5 ≤ t ∧ t < 112.5) ∨ (247.5 ≤ t ∧ t < 292.5))) ∨
  (c = 3 ∧ ((112.5 ≤ t ∧ t < 157.5) ∨ (292.5 ≤ t ∧ t < 337.5)))

/-- Rounding of a real to the nearest integer, halves away from zero (R113: `rhaz_real`). -/
noncomputable def rhazReal (v : ℝ) : Int := if v < 0 then -⌊-v + 1 / 2⌋ else ⌊v + 1 / 2⌋

/-- `calculate_filter_size(sigma, T)`: `(N, sHalf)`, or nothing on InvalidParameter (R110, R111). -/
noncomputable def filterSize (sigma T : ℝ) : Option (Nat × Nat) :=
  if sigma < 1 / 2 ∨ T ≤ 0 ∨ 1 ≤ T then none
  else
    let sHalf := (rhazReal (Real.sqrt (-Real.log T * 2 * sigma ^ 2))).toNat
    some (2 * sHalf + 1, sHalf)

/-- The reference scale values of R115. -/
noncomputable def scales : List ℝ := [0.5, 1.0, 2.0]

/-- The reference truncation probability of R115. -/
noncomputable def truncation : ℝ := 0.3

/-- The fixed kernel scale factor of R115, the default `scaleFactor` of R113. -/
def scaleFactor : Nat := 255

/-- `G(x, y)` of R112. -/
noncomputable def gauss (sigma : ℝ) (x y : Int) : ℝ := Real.exp (-((x : ℝ) ^ 2 + (y : ℝ) ^ 2) / (2 * sigma ^ 2))

/-- `KX[di, dj]` for side `n` and scale factor `sf`: `x` is the column offset from the centre (R112, R113). -/
noncomputable def kernelX (n : Nat) (sigma : ℝ) (sf : Nat) (di dj : Nat) : Int :=
  let x : Int := (dj : Int) - (n / 2 : Nat)
  let y : Int := (di : Int) - (n / 2 : Nat)
  rhazReal (sf * (-(x / sigma ^ 2) * gauss sigma x y))

/-- `KY[di, dj]`: `y` is the row offset from the centre, growing downwards (R112, R113). -/
noncomputable def kernelY (n : Nat) (sigma : ℝ) (sf : Nat) (di dj : Nat) : Int :=
  let x : Int := (dj : Int) - (n / 2 : Nat)
  let y : Int := (di : Int) - (n / 2 : Nat)
  rhazReal (sf * (-(y / sigma ^ 2) * gauss sigma x y))

/-- The `n * n` elements of a kernel, row by row (R114). -/
def grid (n : Nat) (k : Nat → Nat → Int) : List Int := (List.range (n * n)).map (fun e => k (e / n) (e % n))

/-- The kernels that the host synthesises for a scale, nothing on InvalidParameter; the scale factor is 255 unless given
(R110 to R113). -/
noncomputable def synthesize (sigma T : ℝ) (sf : Nat := scaleFactor) : Option Kernels :=
  (filterSize sigma T).map (fun r =>
    { n := r.1
      scale := sf
      kx := grid r.1 (kernelX r.1 sigma sf)
      ky := grid r.1 (kernelY r.1 sigma sf) })

/-- The kernels of the reference parameter set, one pair for each reference scale (R115). -/
noncomputable def referenceKernels : List Kernels := scales.filterMap (fun sigma => synthesize sigma truncation)

/-- The source's orchestration of one image with the reference parameter set: every scale with every threshold pair
(R115, 70_reset R255). -/
noncomputable def referenceProgram (px : List Nat) (l : Nat) : List HostLine :=
  perImage px referenceKernels referencePairs l

end Sys2Proof.Machine.Reference
end

