-- ==== Sys2Proof/Machine/WorkList.lean ====
section
/-! DEFINITION. The tracing procedure of 44_hysteresis R185 as it is written there, with an explicit work list: the pixels
taken as seeds in any order, the work list served in any order.  The stage of HystStage.lean is one atomic step and finds
the same marks by relaxation (70_reset R263); no step calls this procedure, a statement holds it against the stage. -/

namespace Sys2Proof.Machine

/-- The hidden state of R43 while the tracer runs: the visited map, which is also the set of marks, and the work
list. -/
structure WorkState where
  marked : List Bool
  work : List Nat
deriving DecidableEq, Repr

/-- A weak interior pixel not yet visited is visited, marked and pushed (R185). -/
def pushIfWeak (n : List Nat) (h w tl : Nat) (s : WorkState) (q : Nat) : WorkState :=
  if atLeast n h w tl q && !s.marked.getD q false then { marked := s.marked.set q true, work := q :: s.work }
  else s

/-- One turn of the inner loop of R185: take the entry that `pick` selects, then look at its eight neighbours. -/
def serveOne (n : List Nat) (h w tl : Nat) (pick : List Nat → Nat) (s : WorkState) : WorkState :=
  let k := pick s.work % s.work.length
  let q := s.work.getD k 0
  (neighbours w (q / w) (q % w)).foldl (pushIfWeak n h w tl) { s with work := s.work.eraseIdx k }

/-- The inner loop: until the work list is empty, at most `fuel` turns. -/
def drain (n : List Nat) (h w tl : Nat) (pick : List Nat → Nat) : Nat → WorkState → WorkState
  | 0, s => s
  | fuel + 1, s => if s.work = [] then s else drain n h w tl pick fuel (serveOne n h w tl pick s)

/-- One seed of the outer loop: a strong interior pixel not yet visited starts a traversal (R185).  Each pixel is pushed at
most once, so `h * w` turns empty the work list. -/
def traceSeed (n : List Nat) (h w th tl : Nat) (pick : List Nat → Nat) (s : WorkState) (p : Nat) : WorkState :=
  if atLeast n h w th p && !s.marked.getD p false then
    drain n h w tl pick (h * w) { marked := s.marked.set p true, work := p :: s.work }
  else s

/-- The whole procedure of R185: the marks it ends with, and what is left on the work list. -/
def traceByWorkList (n : List Nat) (h w th tl : Nat) (pick : List Nat → Nat) (seeds : List Nat) : WorkState :=
  seeds.foldl (traceSeed n h w th tl pick) { marked := List.replicate (h * w) false, work := [] }

end Sys2Proof.Machine
end

