-- ==== Sys2Proof/Safety.lean ====
section
/-! DEFINITION. What a sound state of the CEC is, in the terms the statements use: the invariant of every run, and the
state in which a command issued to an idle CEC ends (70_reset R264). -/

namespace Sys2Proof.Machine

/-- Every listed byte belongs to an element of a buffer below its capacity (20_memory R67). -/
def State.memBacked (s : State) : Prop :=
  ∀ c ∈ s.mem, ∃ b : Buf, b.base ≤ c.1 ∧ c.1 < b.base + b.elemBytes * b.capacity s.params

/-- Every listed byte of Q is a class, 0 to 3 (10_state R41, 42 R152). -/
def State.classesInRange (s : State) : Prop := ∀ c ∈ s.mem, inQ c.1 = true → c.2.toNat < 4

/-- A busy CEC is running a legal command: CMD holds its word, the latched parameters passed its checks, and the stages
left are the last ones of its list (45_control R205, R207). -/
def State.running (s : State) : Prop :=
  ∃ i : Instr, s.cmd = encode i ∧ validate s.params s.latched (checksOf i) = .none ∧ s.stages <:+ stagesOf i

/-- The invariant of every run. -/
structure State.Inv (s : State) : Prop where
  legal : s.params.legal
  memWf : Memory.wf s.mem
  backed : s.memBacked
  classes : s.classesInRange
  /-- BUSY = 1 exactly while stages are left (R30, R207). -/
  busyIff : s.status.busy = true ↔ s.stages ≠ []
  /-- While busy, STAGE names the stage running now and DONE, ERR are 0 (R31, R32, R47). -/
  busyFlags : s.status.busy = true →
    s.status.stage = firstCode s.stages ∧ s.status.done = false ∧ s.status.err = false
  busyRuns : s.status.busy = true → s.running
  /-- ERR = 1 exactly while ERRCODE names a cause (R29, R32). -/
  errIff : s.status.err = true ↔ s.status.errcode ≠ .none

/-- The state at the end of a command given to an idle CEC, with no host transaction in between: its accept, then one
engine step for each stage (R207, R264). -/
def State.afterCommand (s : State) (i : Instr) : State :=
  engineStep^[(accept i s).stages.length] (accept i s)

/-- The same after a list of commands, each ended before the next is issued. -/
def State.afterCommands (s : State) : List Instr → State
  | [] => s
  | i :: is => (s.afterCommand i).afterCommands is

/-- `k` steps of the machine, stopping where it stops. -/
def runSteps : Nat → State → Host.Outcome State Fault Refusal
  | 0, s => .next s
  | k + 1, s =>
    match step s with
    | .next t => runSteps k t
    | .fault r => .fault r
    | .refused r => .refused r

/-- Who makes the next step (log 2). -/
def State.mover (s : State) : Turn :=
  match s.turns with
  | t :: _ => t
  | [] => if s.status.busy then .engine else .host

/-- Whether the next step is the host's write of `v` at offset `a`. -/
def State.hostWrites (s : State) (a : Nat) (v : Word) : Prop :=
  s.mover = .host ∧ s.host.prog[s.host.pc]? = some (.wr (BitVec.ofNat 26 a) v)

end Sys2Proof.Machine
end

