-- ==== Sys2Proof/Certificates/Slice0/Obligations.lean ====
section
/-! DEFINITION. The statements for the provers, `def Obligations.<Name> : Prop`, from the numbered rules of spec/.  The
namespace `Sys2Proof.Slice0` holds the words they are written in: the spec's own tables and sums, spelled out once
more, apart from the functions of the machine. -/

namespace Sys2Proof.Slice0
open Sys2Proof.Machine

/-! ### Registers and checks, on raw register values -/

/-- `1 <= IMG_H <= MAX_H` and `1 <= IMG_W <= MAX_W` (R206). -/
def DimsValid (p : Params) (r : ParamRegs) : Prop :=
  1 ≤ r.imgH.toNat ∧ r.imgH.toNat ≤ p.maxH ∧ 1 ≤ r.imgW.toNat ∧ r.imgW.toNat ≤ p.maxW

/-- KSIZE odd and `1 <= KSIZE <= MAX_N` (R206). -/
def KsizeValid (p : Params) (r : ParamRegs) : Prop :=
  r.ksize.toNat % 2 = 1 ∧ 1 ≤ r.ksize.toNat ∧ r.ksize.toNat ≤ p.maxN

/-- `SCALE != 0` (R206). -/
def ScaleValid (r : ParamRegs) : Prop := r.scale ≠ 0#16

/-- The state after a refusal (R221): CMD reads the word, DONE = ERR = 1, ERRCODE, STAGE 0; nothing else changes. -/
def refusedWith (s : State) (w : Word) (code : ErrCode) : State :=
  { s with cmd := w
           status := { s.status with done := true, err := true, errcode := code, stage := 0#3 } }

/-- The state after the accept of a legal, valid command (R205): CMD, BUSY, STAGE, DONE = ERR = ERRCODE = 0, `P` and the
stage list; nothing else changes, OVR and CONV_OVF among it. -/
def startedAs (s : State) (w : Word) (stages : List Stage) (first : BitVec 3) : State :=
  { s with cmd := w
           latched := s.live
           stages := stages
           status := { s.status with busy := true, done := false, err := false, errcode := .none, stage := first } }

/-- What an idle CEC makes of the word `w`, that of command `i`: refused with the first code that applies in the order
E_DIM, E_KSIZE, E_SCALE, among the checks the command makes, on the live registers; else started. -/
def AcceptedAs (i : Instr) (w : Word) (dim ksize scale : Bool) (stages : List Stage) (first : BitVec 3) : Prop :=
  encode i = w ∧ decode w = .ok i ∧
  ∀ s : State, s.status.busy = false →
    ((dim = true ∧ ¬ DimsValid s.params s.live) → exec i s = .next (refusedWith s w .dim)) ∧
    ((dim = true → DimsValid s.params s.live) → (ksize = true ∧ ¬ KsizeValid s.params s.live) →
      exec i s = .next (refusedWith s w .ksize)) ∧
    ((dim = true → DimsValid s.params s.live) → (ksize = true → KsizeValid s.params s.live) →
      (scale = true ∧ ¬ ScaleValid s.live) → exec i s = .next (refusedWith s w .scale)) ∧
    ((dim = true → DimsValid s.params s.live) → (ksize = true → KsizeValid s.params s.live) →
      (scale = true → ScaleValid s.live) → exec i s = .next (startedAs s w stages first))

/-! ### The latched operands of a running command (R100) -/

/-- `H`. -/
abbrev rows (s : State) : Nat := s.latched.imgH.toNat
/-- `W`. -/
abbrev cols (s : State) : Nat := s.latched.imgW.toNat
/-- `N`. -/
abbrev side (s : State) : Nat := s.latched.ksize.toNat
/-- `SF`. -/
abbrev scaleFactor (s : State) : Nat := s.latched.scale.toNat

/-- The state is busy, about to run exactly the stages given. -/
def RunningStages (s : State) (stages : List Stage) : Prop := s.status.busy = true ∧ s.stages = stages

/-- The latched dimensions fit the buffers: E_DIM does not apply to `P`, and the implementation is a legal one (R7). -/
def RegionFits (s : State) : Prop := s.params.legal ∧ DimsValid s.params s.latched

/-! ### Frames -/

/-- Every byte outside the `n` bytes from offset `a` reads as before. -/
def BytesSameOutside (s t : State) (a n : Nat) : Prop := ∀ k, k < a ∨ a + n ≤ k → t.byteAt k = s.byteAt k

/-- Every byte outside the two blocks reads as before. -/
def BytesSameOutside2 (s t : State) (a n a' n' : Nat) : Prop :=
  ∀ k, (k < a ∨ a + n ≤ k) → (k < a' ∨ a' + n' ≤ k) → t.byteAt k = s.byteAt k

/-- A command has just ended (R207): BUSY 0, DONE 1, no stage left, STAGE kept; beside the memory nothing else has
changed, but for CONV_OVF as `ovf` says. -/
def EndedFrom (s t : State) (ovf : Bool) : Prop :=
  t = { s with mem := t.mem, stages := [],
               status := { s.status with busy := false, done := true, convOvf := ovf } }

/-! ### Convolution (R120, R121), as a sum over the kernel -/

/-- `pad(y, x)` (R120). -/
def padded (s : State) (y x : Int) : Int :=
  if 0 ≤ y ∧ y < rows s ∧ 0 ≤ x ∧ x < cols s then (s.elem .img (y * cols s + x).toNat : Int) else 0

/-- The exact sum of R121 at row `r`, column `c` with kernel buffer `ker`, not flipped (R123). -/
def convSum (s : State) (ker : Buf) (r c : Nat) : Int :=
  ∑ di ∈ Finset.range (side s), ∑ dj ∈ Finset.range (side s),
    padded s ((r : Int) + di - (side s / 2 : Nat)) ((c : Int) + dj - (side s / 2 : Nat)) *
      s.elemInt ker (di * side s + dj)

/-- Some sum of the region leaves 32 bits (R121). -/
def SumOverflows (s : State) (ker : Buf) : Prop :=
  ∃ r c, r < rows s ∧ c < cols s ∧ (convSum s ker r c < -2 ^ 31 ∨ 2 ^ 31 - 1 < convSum s ker r c)

/-- The convolution of the region of `s` stands in `out` of `t`, each sum narrowed to the residue of 32 bits around 0
(R12: `wrap32`). -/
def HoldsConvolution (s t : State) (ker out : Buf) : Prop :=
  ∀ r c, r < rows s → c < cols s →
    t.elemInt out (r * cols s + c) = (convSum s ker r c).bmod (2 ^ 32)

/-! ### NMS (R170, R171) -/

/-- Interior pixels (R14). -/
def Interior (h w r c : Nat) : Prop := 1 ≤ r ∧ r + 2 ≤ h ∧ 1 ≤ c ∧ c + 2 ≤ w

/-- The two neighbours of an interior pixel along its class, as (row, column) pairs: R170's explicit offsets. -/
def neighbourPair (cls r c : Nat) : (Nat × Nat) × (Nat × Nat) :=
  match cls with
  | 0 => ((r, c - 1), (r, c + 1))
  | 1 => ((r - 1, c + 1), (r + 1, c - 1))
  | 2 => ((r - 1, c), (r + 1, c))
  | _ => ((r - 1, c - 1), (r + 1, c + 1))

/-- The value of the squared magnitude at a pixel. -/
def mag2At (s : State) (p : Nat × Nat) : Nat := s.elem .mag2 (p.1 * cols s + p.2)

/-- MAG2 at the pixel is at least MAG2 at both neighbours along the class in Q (R171). -/
def LocalMaxAt (s : State) (r c : Nat) : Prop :=
  let n := neighbourPair (s.elemClass (r * cols s + c)) r c
  mag2At s n.1 ≤ mag2At s (r, c) ∧ mag2At s n.2 ≤ mag2At s (r, c)

/-- What NMS leaves in SUP2 of `t` (R171): the value at interior local maxima, 0 everywhere else. -/
def HoldsSuppressed (s t : State) : Prop :=
  ∀ r c, r < rows s → c < cols s →
    ((Interior (rows s) (cols s) r c ∧ LocalMaxAt s r c) →
      t.elem .sup2 (r * cols s + c) = mag2At s (r, c)) ∧
    (¬ (Interior (rows s) (cols s) r c ∧ LocalMaxAt s r c) → t.elem .sup2 (r * cols s + c) = 0)

/-! ### HYST (R180, R181, R183) -/

/-- A threshold clamped to 0..255 (R180). -/
def clampedThreshold (z : Int) : Nat := (max 0 (min z 255)).toNat

/-- The higher of the two clamped thresholds. -/
def highThreshold (s : State) : Nat := max (clampedThreshold s.latched.thHi.toInt) (clampedThreshold s.latched.thLo.toInt)

/-- The lower of the two clamped thresholds. -/
def lowThreshold (s : State) : Nat := min (clampedThreshold s.latched.thHi.toInt) (clampedThreshold s.latched.thLo.toInt)

/-- An interior pixel whose normalised value is at least `t`: Weak for the low threshold, Strong for the high one
(R181). -/
def ReachesLevel (n : List Nat) (h w t : Nat) (p : Nat × Nat) : Prop :=
  Interior h w p.1 p.2 ∧ t ≤ n.getD (p.1 * w + p.2) 0

/-- 8-connectivity (R183). -/
def Adjacent (p q : Nat × Nat) : Prop :=
  p ≠ q ∧ p.1 ≤ q.1 + 1 ∧ q.1 ≤ p.1 + 1 ∧ p.2 ≤ q.2 + 1 ∧ q.2 ≤ p.2 + 1

/-- The set `Edge` of R181: weak pixels with a path of weak pixels, each a neighbour of the one before, to a strong
one. -/
def IsEdge (n : List Nat) (h w th tl : Nat) (p : Nat × Nat) : Prop :=
  ReachesLevel n h w tl p ∧ ∃ q, ReachesLevel n h w th q ∧
    Relation.ReflTransGen (fun a b => Adjacent a b ∧ ReachesLevel n h w tl b) p q

/-- What HYST leaves in EDGE of `t` (R181), from SUP2 of `s`. -/
def HoldsEdges (s t : State) : Prop :=
  ∀ r c, r < rows s → c < cols s →
    (IsEdge (norm8 (s.elems .sup2 (rows s * cols s))) (rows s) (cols s) (highThreshold s) (lowThreshold s) (r, c) →
      t.elem .edge (r * cols s + c) = 255) ∧
    (¬ IsEdge (norm8 (s.elems .sup2 (rows s * cols s))) (rows s) (cols s) (highThreshold s) (lowThreshold s) (r, c) →
      t.elem .edge (r * cols s + c) = 0)

/-! ### The address map (R22, R40, R62), once more -/

/-- The buffer windows: first offset, last offset, bytes per element, whether it is a kernel buffer. -/
def windows : List (Nat × Nat × Nat × Bool) :=
  [(0x00100000, 0x001FFFFF, 1, false), (0x00200000, 0x0023FFFF, 4, true), (0x00240000, 0x0027FFFF, 4, true),
    (0x00400000, 0x007FFFFF, 4, false), (0x00800000, 0x00BFFFFF, 4, false), (0x00C00000, 0x00FFFFFF, 4, false),
    (0x01000000, 0x013FFFFF, 4, false), (0x01400000, 0x01BFFFFF, 8, false), (0x01C00000, 0x023FFFFF, 8, false),
    (0x02400000, 0x024FFFFF, 1, false), (0x02500000, 0x025FFFFF, 1, false), (0x02600000, 0x026FFFFF, 1, false),
    (0x02700000, 0x027FFFFF, 1, false), (0x02800000, 0x028FFFFF, 1, false)]

/-- The register offsets (R22). -/
def registerOffsets : List Nat :=
  [0x000, 0x004, 0x008, 0x00C, 0x010, 0x014, 0x018, 0x020, 0x024, 0x028, 0x02C, 0x030, 0x034]

/-- The offset lies in a buffer window (R62). -/
def InWindow (a : Nat) : Prop := ∃ x ∈ windows, x.1 ≤ a ∧ a ≤ x.2.1

/-- The word at the offset holds, as its first element, one at or above its buffer's capacity (R67). -/
def Unbacked (p : Params) (a : Nat) : Prop :=
  ∃ x ∈ windows, x.1 ≤ a ∧ a ≤ x.2.1 ∧
    (if x.2.2.2 then p.maxN * p.maxN else p.maxH * p.maxW) ≤ (a - x.1) / x.2.2.1

/-- The causes of a busError (R66). -/
def BusErrorCause (s : State) (a : Nat) : Prop :=
  a % 4 ≠ 0 ∨ (a ∉ registerOffsets ∧ ¬ InWindow a) ∨ Unbacked s.params a ∨ (InWindow a ∧ s.status.busy = true)

end Sys2Proof.Slice0

section
open Sys2Proof Sys2Proof.Machine Sys2Proof.Slice0

/-! ## Encoding -/

/-- The words of R94, written out, decode to their commands, and the encoder gives them. -/
def Obligations.TableWordsDecode : Prop :=
  decode 0x00000000#32 = .ok .nop ∧ decode 0x00000001#32 = .ok .convX ∧ decode 0x00000101#32 = .ok .convY ∧
  decode 0x00000002#32 = .ok .descaleX ∧ decode 0x00000102#32 = .ok .descaleY ∧ decode 0x00000003#32 = .ok .grad ∧
  decode 0x00000004#32 = .ok .mag ∧ decode 0x00000005#32 = .ok .dir ∧ decode 0x00000006#32 = .ok .nms ∧
  decode 0x00000007#32 = .ok .hyst ∧ decode 0x0000000F#32 = .ok .run ∧
  ∀ i ∈ Instr.all, decodeTableWord 32 (encode i).toNat = some i

/-- Over all 2^32 words: a word decodes to a command exactly when it is that command's word (no word is read as a
neighbour, none has two readings). -/
def Obligations.DecodeIsInverseOfEncode : Prop :=
  ∀ (w : Word) (i : Instr), decode w = .ok i ↔ w = encode i

/-- R95: the causes of an illegal word, on its bits, are exactly those that make decoding fail; and an illegal word
written to CMD by the host of an idle CEC is taken into CMD and refused with E_CMD, no buffer changing. -/
def Obligations.IllegalWordsRefused : Prop :=
  (∀ w : Word,
    (∃ e, decode w = .error e) ↔
      ((8 ≤ (w &&& 0xFF#32).toNat ∧ (w &&& 0xFF#32).toNat ≤ 0x0E) ∨ 0x10 ≤ (w &&& 0xFF#32).toNat) ∨
      (w.getLsbD 8 = true ∧ w &&& 0xFF#32 ≠ 1#32 ∧ w &&& 0xFF#32 ≠ 2#32) ∨
      w >>> 9 ≠ 0#32) ∧
  (∀ (w : Word) (e : DecodeError) (s : State), decode w = .error e → s.status.busy = false →
    busWrite 0x018 w s = .next (refusedWith s w .cmd))

/-! ## Steps run the decoded command -/

/-- An idle CEC, the host's turn, its next line a write to CMD of a word that decodes to `i`: the step is `exec i`, of the
state in which the turn and the line are spent and the host has the response `okay`. -/
def Obligations.CmdWriteRunsDecodedCommand : Prop :=
  ∀ (s : State) (ts : List Turn) (w : Word) (i : Instr),
    s.turns = .host :: ts → s.host.prog[s.host.pc]? = some (.wr 0x18#26 w) →
    s.status.busy = false → decode w = .ok i →
    step s = exec i { s with
      turns := ts
      host := { s.host with pc := s.host.pc + 1, resp := some { status := .okay, data := none } } }

/-- A busy CEC, the engine's turn (prescribed, or by default, log 2): the step is `exec` of the command in CMD.  An idle
CEC: the engine's turn changes nothing but the turn spent (R74, R207: the engine step is enabled exactly while BUSY = 1;
that a turn may be prescribed then is the model's, log 2). -/
def Obligations.EngineTurnRunsCommandInProgress : Prop :=
  (∀ (s : State) (i : Instr), s.status.busy = true → decode s.cmd = .ok i →
    (∀ ts, s.turns = .engine :: ts → step s = exec i { s with turns := ts }) ∧
    (s.turns = [] → step s = exec i s)) ∧
  (∀ (s : State) (ts : List Turn), s.status.busy = false → s.turns = .engine :: ts →
    step s = .next { s with turns := ts })

/-- The word placed by `withFetchWord` runs in the very next step, in any state: as `exec` of the command it decodes to,
of an idle state with no stage left and the same buffer bytes, registers, latched set, draws and turns. -/
def Obligations.PlacedWordRunsNext : Prop :=
  ∀ (s : State) (n w : Nat) (i : Instr), decodeTableWord n w = some i →
    ∃ t : State, step (s.withFetchWord n w) = exec i t ∧ t.status = { s.status with busy := false } ∧
      t.mem = s.mem ∧ t.live = s.live ∧ t.latched = s.latched ∧ t.ie = s.ie ∧ t.cmd = s.cmd ∧
      t.params = s.params ∧ t.turns = s.turns ∧ t.stages = [] ∧ t.resetDraw = s.resetDraw ∧
      t.nextDraw = s.nextDraw ∧ ∀ a, t.byteAt a = s.byteAt a

/-! ## The commands, whole -/

/-- NOP (R201): never refused; BUSY and `P` at accept; one engine step that writes no buffer and ends the command. -/
def Obligations.NopRunsAndCompletes : Prop :=
  AcceptedAs .nop 0x00000000#32 false false false [.none] 0#3 ∧
  ∀ s : State, RunningStages s [.none] →
    exec .nop s = .next { s with stages := [], status := { s.status with busy := false, done := true } }

/-- CONV.X and CONV.Y (R121): validation, the stage, every output element, CONV_OVF, and the frame. -/
def Obligations.ConvRunsAndCompletes : Prop :=
  AcceptedAs .convX 0x00000001#32 true true false [.convX] 1#3 ∧
  AcceptedAs .convY 0x00000101#32 true true false [.convY] 2#3 ∧
  (∀ s : State, RunningStages s [.convX] →
    ∃ t, exec .convX s = .next t ∧ HoldsConvolution s t .kx .cx ∧
      (t.status.convOvf = true ↔ s.status.convOvf = true ∨ SumOverflows s .kx) ∧
      BytesSameOutside s t 0x00400000 (4 * (rows s * cols s)) ∧ EndedFrom s t t.status.convOvf) ∧
  (∀ s : State, RunningStages s [.convY] →
    ∃ t, exec .convY s = .next t ∧ HoldsConvolution s t .ky .cy ∧
      (t.status.convOvf = true ↔ s.status.convOvf = true ∨ SumOverflows s .ky) ∧
      BytesSameOutside s t 0x00800000 (4 * (rows s * cols s)) ∧ EndedFrom s t t.status.convOvf)

/-- DESCALE.X and DESCALE.Y (R124): validation, the stage, every output element, no flag, and the frame. -/
def Obligations.DescaleRunsAndCompletes : Prop :=
  AcceptedAs .descaleX 0x00000002#32 true false true [.descaleX] 3#3 ∧
  AcceptedAs .descaleY 0x00000102#32 true false true [.descaleY] 3#3 ∧
  (∀ s : State, RunningStages s [.descaleX] →
    ∃ t, exec .descaleX s = .next t ∧
      (∀ e, e < rows s * cols s → t.elemInt .fx e = rhaz (s.elemInt .cx e) (scaleFactor s)) ∧
      BytesSameOutside s t 0x00C00000 (4 * (rows s * cols s)) ∧ EndedFrom s t s.status.convOvf) ∧
  (∀ s : State, RunningStages s [.descaleY] →
    ∃ t, exec .descaleY s = .next t ∧
      (∀ e, e < rows s * cols s → t.elemInt .fy e = rhaz (s.elemInt .cy e) (scaleFactor s)) ∧
      BytesSameOutside s t 0x01000000 (4 * (rows s * cols s)) ∧ EndedFrom s t s.status.convOvf)

/-- GRAD (R126): validation; then three engine steps, CONVX, CONVY, DESCALE, after which CX, CY, FX, FY hold the
gradient field, CONV_OVF is set by either convolution, and nothing else has changed. -/
def Obligations.GradRunsAndCompletes : Prop :=
  AcceptedAs .grad 0x00000003#32 true true true [.convX, .convY, .descaleXY] 1#3 ∧
  ∀ s : State, RunningStages s [.convX, .convY, .descaleXY] → RegionFits s →
    ∃ s1 s2 t, exec .grad s = .next s1 ∧ exec .grad s1 = .next s2 ∧ exec .grad s2 = .next t ∧
      RunningStages s1 [.convY, .descaleXY] ∧ s1.status.stage = 2#3 ∧
      RunningStages s2 [.descaleXY] ∧ s2.status.stage = 3#3 ∧
      HoldsConvolution s t .kx .cx ∧ HoldsConvolution s t .ky .cy ∧
      (∀ e, e < rows s * cols s → t.elemInt .fx e = rhaz (t.elemInt .cx e) (scaleFactor s)) ∧
      (∀ e, e < rows s * cols s → t.elemInt .fy e = rhaz (t.elemInt .cy e) (scaleFactor s)) ∧
      (t.status.convOvf = true ↔ s.status.convOvf = true ∨ SumOverflows s .kx ∨ SumOverflows s .ky) ∧
      (∀ k, (∀ b ∈ [Buf.cx, Buf.cy, Buf.fx, Buf.fy], k < b.base ∨ b.base + 4 * (rows s * cols s) ≤ k) →
        t.byteAt k = s.byteAt k) ∧
      t = { s with mem := t.mem, stages := [],
                   status := { s.status with busy := false, done := true, convOvf := t.status.convOvf, stage := 3#3 } }

/-- MAG (R141): validation; MAG2 the exact sum of squares, MAG8 its normalisation over the region; frame. -/
def Obligations.MagRunsAndCompletes : Prop :=
  AcceptedAs .mag 0x00000004#32 true false false [.mag] 4#3 ∧
  ∀ s : State, RunningStages s [.mag] → RegionFits s →
    ∃ t, exec .mag s = .next t ∧
      (∀ e, e < rows s * cols s → (t.elem .mag2 e : Int) = s.elemInt .fx e ^ 2 + s.elemInt .fy e ^ 2) ∧
      t.elems .mag8 (rows s * cols s) = norm8 (t.elems .mag2 (rows s * cols s)) ∧
      BytesSameOutside2 s t 0x01400000 (8 * (rows s * cols s)) 0x02400000 (rows s * cols s) ∧
      EndedFrom s t s.status.convOvf

/-- DIR (R151): validation; PHI8 and Q of every vector; frame. -/
def Obligations.DirRunsAndCompletes : Prop :=
  AcceptedAs .dir 0x00000005#32 true false false [.dir] 5#3 ∧
  ∀ s : State, RunningStages s [.dir] → RegionFits s →
    ∃ t, exec .dir s = .next t ∧
      (∀ e, e < rows s * cols s → t.elem .phi8 e = phi8 (s.elemInt .fx e) (s.elemInt .fy e)) ∧
      (∀ e, e < rows s * cols s → t.elem .q e = qclass (s.elemInt .fx e) (s.elemInt .fy e)) ∧
      BytesSameOutside2 s t 0x02500000 (rows s * cols s) 0x02600000 (rows s * cols s) ∧
      EndedFrom s t s.status.convOvf

/-- NMS (R171): validation; SUP2 the suppressed field, SUP8 its normalisation; frame. -/
def Obligations.NmsRunsAndCompletes : Prop :=
  AcceptedAs .nms 0x00000006#32 true false false [.nms] 6#3 ∧
  ∀ s : State, RunningStages s [.nms] → RegionFits s →
    ∃ t, exec .nms s = .next t ∧ HoldsSuppressed s t ∧
      t.elems .sup8 (rows s * cols s) = norm8 (t.elems .sup2 (rows s * cols s)) ∧
      BytesSameOutside2 s t 0x01C00000 (8 * (rows s * cols s)) 0x02700000 (rows s * cols s) ∧
      EndedFrom s t s.status.convOvf

/-- HYST (R181): validation; EDGE is 255 exactly on the pixels with a weak path to a strong one, 0 elsewhere; frame. -/
def Obligations.HystRunsAndCompletes : Prop :=
  AcceptedAs .hyst 0x00000007#32 true false false [.hyst] 7#3 ∧
  ∀ s : State, RunningStages s [.hyst] →
    ∃ t, exec .hyst s = .next t ∧ HoldsEdges s t ∧
      BytesSameOutside s t 0x02800000 (rows s * cols s) ∧ EndedFrom s t s.status.convOvf

/-- RUN (R203): validation; then seven engine steps in the order CONVX, CONVY, DESCALE, MAG, DIR, NMS, HYST, after which
each buffer holds what its stage makes of the buffers before it, and nothing else has changed. -/
def Obligations.RunRunsAndCompletes : Prop :=
  AcceptedAs .run 0x0000000F#32 true true true [.convX, .convY, .descaleXY, .mag, .dir, .nms, .hyst] 1#3 ∧
  ∀ s : State, RunningStages s [.convX, .convY, .descaleXY, .mag, .dir, .nms, .hyst] → RegionFits s →
    ∃ s1 s2 s3 s4 s5 s6 t, exec .run s = .next s1 ∧ exec .run s1 = .next s2 ∧ exec .run s2 = .next s3 ∧
      exec .run s3 = .next s4 ∧ exec .run s4 = .next s5 ∧ exec .run s5 = .next s6 ∧ exec .run s6 = .next t ∧
      (s1.status.stage = 2#3 ∧ s2.status.stage = 3#3 ∧ s3.status.stage = 4#3 ∧ s4.status.stage = 5#3 ∧
        s5.status.stage = 6#3 ∧ s6.status.stage = 7#3) ∧
      (s1.status.busy = true ∧ s2.status.busy = true ∧ s3.status.busy = true ∧ s4.status.busy = true ∧
        s5.status.busy = true ∧ s6.status.busy = true) ∧
      HoldsConvolution s t .kx .cx ∧ HoldsConvolution s t .ky .cy ∧
      (∀ e, e < rows s * cols s →
        t.elemInt .fx e = rhaz (t.elemInt .cx e) (scaleFactor s) ∧
        t.elemInt .fy e = rhaz (t.elemInt .cy e) (scaleFactor s) ∧
        (t.elem .mag2 e : Int) = t.elemInt .fx e ^ 2 + t.elemInt .fy e ^ 2 ∧
        t.elem .phi8 e = phi8 (t.elemInt .fx e) (t.elemInt .fy e) ∧
        t.elem .q e = qclass (t.elemInt .fx e) (t.elemInt .fy e)) ∧
      t.elems .mag8 (rows s * cols s) = norm8 (t.elems .mag2 (rows s * cols s)) ∧
      HoldsSuppressed t t ∧
      t.elems .sup8 (rows s * cols s) = norm8 (t.elems .sup2 (rows s * cols s)) ∧
      HoldsEdges t t ∧
      (t.status.convOvf = true ↔ s.status.convOvf = true ∨ SumOverflows s .kx ∨ SumOverflows s .ky) ∧
      (∀ k, (∀ b ∈ [Buf.cx, Buf.cy, Buf.fx, Buf.fy, Buf.mag2, Buf.mag8, Buf.phi8, Buf.q, Buf.sup2, Buf.sup8, Buf.edge],
          k < b.base ∨ b.base + b.elemBytes * (rows s * cols s) ≤ k) → t.byteAt k = s.byteAt k) ∧
      t = { s with mem := t.mem, stages := [],
                   status := { s.status with busy := false, done := true, convOvf := t.status.convOvf, stage := 7#3 } }

/-! ## The life of a command -/

/-- Every engine step of every command runs the head of the stage list as the single-stage command would (R126, R203: "as
CONV", "as MAG", …), and names the next stage, or ends the command (R207, R47). -/
def Obligations.EngineStepRunsHeadStage : Prop :=
  ∀ (i j : Instr) (s : State) (st : Stage) (rest : List Stage),
    s.status.busy = true → s.stages = st :: rest →
    ∃ t u, exec i s = .next t ∧ exec j { s with stages := [st] } = .next u ∧
      t.mem = u.mem ∧ t.status.convOvf = u.status.convOvf ∧ t.stages = rest ∧
      (rest = [] → t.status.busy = false ∧ t.status.done = true ∧ t.status.stage = s.status.stage) ∧
      (∀ nx more, rest = nx :: more →
        t.status.busy = true ∧ t.status.done = s.status.done ∧ t.status.stage = nx.code) ∧
      t.status.err = s.status.err ∧ t.status.errcode = s.status.errcode ∧ t.status.ovr = s.status.ovr ∧
      t.ie = s.ie ∧ t.cmd = s.cmd ∧ t.live = s.live ∧ t.latched = s.latched ∧ t.params = s.params

/-- R208: a CMD write while BUSY = 1 sets OVR and does nothing else, and its response is `okay`. -/
def Obligations.OverrunOnlySetsOvr : Prop :=
  ∀ (s : State) (w : Word), s.status.busy = true →
    busWrite 0x018 w s = .next { s with status := { s.status with ovr := true } } ∧
    s.writeStatus 0x018 = .okay

/-- R258, R34: the live parameter registers do not reach a running command: whatever they hold, the engine step changes the
rest of the state in the same way and leaves them alone. -/
def Obligations.RunningCommandIgnoresLiveParameters : Prop :=
  ∀ (i : Instr) (s t : State) (p : ParamRegs), s.status.busy = true → exec i s = .next t →
    exec i { s with live := p } = .next { t with live := p }

/-- R259: after a CMD write, STATUS shows BUSY = 1 or DONE = 1; a refused command has set DONE and ERR and is not busy.
R27: CMD reads the last accepted word: the word written while idle, its old word after a write while busy. -/
def Obligations.CmdWriteLeavesBusyOrDone : Prop :=
  ∀ (s t : State) (w : Word), busWrite 0x018 w s = .next t →
    (t.status.busy = true ∨ (t.status.done = true ∧ t.status.err = true)) ∧
    (s.status.busy = false → t.status.busy = true → t.status.done = false ∧ t.status.err = false) ∧
    (s.status.busy = false → t.regRead .cmd = w) ∧ (s.status.busy = true → t.regRead .cmd = s.regRead .cmd) ∧
    s.regRead .cmd = s.cmd

/-- R206, R220: no step of any command stops the machine, and no engine step raises an error. -/
def Obligations.CommandsNeverFailAfterAccept : Prop :=
  ∀ (i : Instr) (s : State), ∃ t, exec i s = .next t ∧
    (s.status.busy = true → t.status.err = s.status.err ∧ t.status.errcode = s.status.errcode)

/-- With nothing prescribed, a busy CEC takes exactly as many steps as it has stages left, is busy until the last, and ends
idle with DONE = 1 (R207, R209: the engine step that stays enabled is taken). -/
def Obligations.BusyCommandCompletes : Prop :=
  ∀ s : State, s.Inv → s.status.busy = true → s.turns = [] →
    (∃ t, runSteps s.stages.length s = .next t ∧ t.status.busy = false ∧ t.status.done = true ∧ t.status.err = false) ∧
    ∀ k, k < s.stages.length → ∃ t, runSteps k s = .next t ∧ t.status.busy = true

/-- `afterCommand` is what the machine's steps do with a command issued to an idle CEC, the host's turn first and then none
prescribed. -/
def Obligations.StepsReachAfterCommand : Prop :=
  ∀ (s : State) (i : Instr), s.status.busy = false → s.stages = [] → s.turns = [.host] →
    s.host.prog[s.host.pc]? = some (.wr 0x18#26 (encode i)) →
    let s' := { s with
      turns := []
      host := { s.host with pc := s.host.pc + 1, resp := some { status := .okay, data := none } } }
    runSteps (1 + (accept i s').stages.length) s = .next (s'.afterCommand i)

/-- R204: RUN leaves every buffer as GRAD, MAG, DIR, NMS and HYST do, each completed before the next; STATUS and everything
else too, but for the word in CMD. -/
def Obligations.RunEqualsSeparateCommands : Prop :=
  ∀ s : State, s.params.legal → s.status.busy = false → s.stages = [] →
    DimsValid s.params s.live → KsizeValid s.params s.live → ScaleValid s.live →
    s.afterCommand .run = { s.afterCommands [.grad, .mag, .dir, .nms, .hyst] with cmd := 0x0000000F#32 }

/-- R3: no stage reads a buffer it writes: two states with the same latched parameters that agree on every buffer the stage
does not write give the same outputs. -/
def Obligations.StagesDoNotReadTheirOutputs : Prop :=
  ∀ (st : Stage) (s s' : State), RegionFits s → KsizeValid s.params s.latched →
    s'.latched = s.latched → s'.params = s.params →
    (∀ b, b ∉ st.outputs → ∀ e, e < b.capacity s.params → s'.elem b e = s.elem b e) →
    ∀ b ∈ st.outputs, ∀ e, e < rows s * cols s →
      (performStage st s').elem b e = (performStage st s).elem b e

/-- R42: no command writes IMG, KX or KY, nor an element of any buffer at or beyond the region. -/
def Obligations.CommandsWriteOnlyTheirRegions : Prop :=
  ∀ (i : Instr) (s t : State), s.status.busy = true → RegionFits s → exec i s = .next t →
    (∀ b ∈ [Buf.img, Buf.kx, Buf.ky], ∀ e, e < b.capacity s.params → t.elem b e = s.elem b e) ∧
    (∀ (b : Buf) (e : Nat), rows s * cols s ≤ e → e < b.capacity s.params → t.elem b e = s.elem b e)

/-! ## The bus -/

/-- R66 (with R62, R63, R67, R68): a transaction gets busError exactly for its causes; then a read returns 0 and a write
changes nothing at all. -/
def Obligations.BusErrorExactly : Prop :=
  ∀ (s : State) (a : Nat),
    ((s.busRead a).1 = .busError ↔ BusErrorCause s a) ∧ (s.writeStatus a = .busError ↔ BusErrorCause s a) ∧
    (BusErrorCause s a → (s.busRead a).2 = 0#32 ∧ ∀ v, busWrite a v s = .next s)

/-- R68, R256: while busy every buffer access is refused at once; registers are served, busy or idle. -/
def Obligations.BusyGate : Prop :=
  ∀ s : State,
    (s.status.busy = true → ∀ a, InWindow a → s.busRead a = (.busError, 0#32) ∧
      (∀ v, busWrite a v s = .next s) ∧ s.writeStatus a = .busError) ∧
    (∀ r : Reg, s.busRead r.offset = (.okay, s.regRead r) ∧ s.writeStatus r.offset = .okay ∧
      ∀ v, busWrite r.offset v s = regWrite r v s)

/-- R69: a read line changes nothing but the host, which goes on to its next line and notes the response and the word; and
reading again gives the same. -/
def Obligations.ReadsHaveNoSideEffect : Prop :=
  ∀ (s : State) (a : Addr), ∃ t, hostLine (.rd a) s = .next t ∧
    t = { s with host := { s.host with
      pc := s.host.pc + 1
      lastRead := (s.busRead a.toNat).2
      resp := some { status := (s.busRead a.toNat).1, data := some (s.busRead a.toNat).2 } } } ∧
    t.busRead a.toNat = s.busRead a.toNat

/-- R64, R41, R67: the words of the byte buffers, packed little-endian: what a read returns, lane by lane, and what a write
leaves; a Q element keeps two bits; lanes at or above the capacity read 0 and ignore writes. -/
def Obligations.ByteBufferWords : Prop :=
  ∀ (s : State) (b : Buf) (e0 : Nat), s.params.legal → b.elemBytes = 1 → e0 % 4 = 0 → e0 < b.capacity s.params →
    s.status.busy = false →
    (∃ w, s.busRead (b.base + e0) = (.okay, w) ∧
      ∀ k, k < 4 → w.toNat / 256 ^ k % 256 = if e0 + k < b.capacity s.params then s.elem b (e0 + k) else 0) ∧
    (∀ v : Word, ∃ t, busWrite (b.base + e0) v s = .next t ∧
      (∀ k, k < 4 → e0 + k < b.capacity s.params →
        t.elem b (e0 + k) = v.toNat / 256 ^ k % (if b = .q then 4 else 256)) ∧
      BytesSameOutside s t (b.base + e0) (min 4 (b.capacity s.params - e0)) ∧ t = { s with mem := t.mem })

/-- R65: the words of the i32 buffers: the two's-complement pattern of one element. -/
def Obligations.IntBufferWords : Prop :=
  ∀ (s : State) (b : Buf) (e : Nat), s.params.legal → b.elemBytes = 4 → e < b.capacity s.params →
    s.status.busy = false →
    s.busRead (b.base + 4 * e) = (.okay, BitVec.ofInt 32 (s.elemInt b e)) ∧
    (∀ v : Word, ∃ t, busWrite (b.base + 4 * e) v s = .next t ∧ t.elemInt b e = v.toInt ∧
      BytesSameOutside s t (b.base + 4 * e) 4 ∧ t = { s with mem := t.mem })

/-- R65: the two words of a u64 element: each write replaces its half and keeps the other. -/
def Obligations.LongBufferWords : Prop :=
  ∀ (s : State) (b : Buf) (e : Nat), s.params.legal → b.elemBytes = 8 → e < b.capacity s.params →
    s.status.busy = false →
    s.busRead (b.base + 8 * e) = (.okay, BitVec.ofNat 32 (s.elem b e)) ∧
    s.busRead (b.base + 8 * e + 4) = (.okay, BitVec.ofNat 32 (s.elem b e / 2 ^ 32)) ∧
    (∀ v : Word, ∃ t, busWrite (b.base + 8 * e) v s = .next t ∧
      t.elem b e = v.toNat + 2 ^ 32 * (s.elem b e / 2 ^ 32) ∧
      BytesSameOutside s t (b.base + 8 * e) 4 ∧ t = { s with mem := t.mem }) ∧
    (∀ v : Word, ∃ t, busWrite (b.base + 8 * e + 4) v s = .next t ∧
      t.elem b e = s.elem b e % 2 ^ 32 + 2 ^ 32 * v.toNat ∧
      BytesSameOutside s t (b.base + 8 * e + 4) 4 ∧ t = { s with mem := t.mem })

/-! ## Registers -/

/-- R29: STATUS as a word, bit by bit, and what a write clears; BUSY, STAGE and every other register stay. -/
def Obligations.StatusLayoutAndClear : Prop :=
  ∀ s : State,
    ((s.regRead .status).getLsbD 0 = s.status.busy ∧ (s.regRead .status).getLsbD 1 = s.status.done ∧
      (s.regRead .status).getLsbD 2 = s.status.err ∧ (s.regRead .status).getLsbD 3 = s.status.ovr ∧
      (s.regRead .status).getLsbD 4 = s.status.convOvf ∧ (s.regRead .status).extractLsb' 8 3 = s.status.stage ∧
      ((s.regRead .status).extractLsb' 16 3).toNat = s.status.errcode.code ∧
      s.regRead .status &&& 0xFFF8F8E0#32 = 0#32) ∧
    ∀ w : Word, ∃ t, busWrite 0x014 w s = .next t ∧
      t = { s with status := t.status } ∧ t.status.busy = s.status.busy ∧ t.status.stage = s.status.stage ∧
      (t.status.done = true ↔ s.status.done = true ∧ w.getLsbD 1 = false) ∧
      (t.status.err = true ↔ s.status.err = true ∧ w.getLsbD 2 = false) ∧
      (t.status.ovr = true ↔ s.status.ovr = true ∧ w.getLsbD 3 = false) ∧
      (t.status.convOvf = true ↔ s.status.convOvf = true ∧ w.getLsbD 4 = false) ∧
      (w.getLsbD 2 = true → t.status.errcode = .none) ∧
      (w.getLsbD 2 = false → t.status.errcode = s.status.errcode)

/-- R28: a CTRL write with bit 1 clear sets IE and nothing else; with bit 1 set it leaves IE 0; CTRL reads IE alone. -/
def Obligations.CtrlWrite : Prop :=
  ∀ (s : State) (w : Word),
    (w.getLsbD 1 = false → busWrite 0x010 w s = .next { s with ie := w.getLsbD 0 }) ∧
    (w.getLsbD 1 = true → ∃ t, busWrite 0x010 w s = .next t ∧ t.ie = false) ∧
    s.regRead .ctrl = if s.ie then 1#32 else 0#32

/-- R35 to R39: a parameter register keeps its low bits, reads them back zero-extended, and changes nothing else; the
read-only registers ignore writes. -/
def Obligations.ParameterRegisters : Prop :=
  ∀ (s : State) (w : Word),
    (∃ t, busWrite 0x020 w s = .next t ∧ t.regRead .imgH = w &&& 0xFFFF#32 ∧
      t = { s with live := { s.live with imgH := t.live.imgH } }) ∧
    (∃ t, busWrite 0x024 w s = .next t ∧ t.regRead .imgW = w &&& 0xFFFF#32 ∧
      t = { s with live := { s.live with imgW := t.live.imgW } }) ∧
    (∃ t, busWrite 0x028 w s = .next t ∧ t.regRead .ksize = w &&& 0xFF#32 ∧
      t = { s with live := { s.live with ksize := t.live.ksize } }) ∧
    (∃ t, busWrite 0x02C w s = .next t ∧ t.regRead .scale = w &&& 0xFFFF#32 ∧
      t = { s with live := { s.live with scale := t.live.scale } }) ∧
    (∃ t, busWrite 0x030 w s = .next t ∧ t.regRead .thHi = w ∧
      t = { s with live := { s.live with thHi := t.live.thHi } }) ∧
    (∃ t, busWrite 0x034 w s = .next t ∧ t.regRead .thLo = w ∧
      t = { s with live := { s.live with thLo := t.live.thLo } }) ∧
    (∀ r ∈ [Reg.id, Reg.version, Reg.cap0, Reg.cap1], busWrite r.offset w s = .next s ∧
      s.writeStatus r.offset = .okay)

/-- R227, R45: the interrupt level is IE AND DONE: raised by the end or the refusal of a command under IE, dropped by
clearing DONE, by IE = 0, by the next accept and by a reset; no bus error, overrun or sticky flag moves it. -/
def Obligations.IrqLevel : Prop :=
  ∀ s : State,
    (s.irq = true ↔ s.ie = true ∧ s.status.done = true) ∧
    (∀ (w : Word) (code : ErrCode), (refusedWith s w code).irq = s.ie) ∧
    (∀ (w : Word) (l : List Stage) (f : BitVec 3), (startedAs s w l f).irq = false) ∧
    (∀ (i : Instr) (st : Stage), RunningStages s [st] → ∃ t, exec i s = .next t ∧ t.irq = s.ie) ∧
    (∀ w : Word, w.getLsbD 1 = true → ∃ t, busWrite 0x014 w s = .next t ∧ t.irq = false) ∧
    (∀ w : Word, w.getLsbD 0 = false → ∃ t, busWrite 0x010 w s = .next t ∧ t.irq = false) ∧
    (hardReset s).irq = false ∧
    { s with status := { s.status with ovr := true, convOvf := true } }.irq = s.irq

/-! ## Resets -/

/-- R251, read through the bus: the registers right after reset (V-REG-1); idle; no irq; every buffer byte its draw.  The
latched set `P`, which the model sets to 0 (log 6), is not part of this. -/
def Obligations.ResetState : Prop :=
  State.reset.busRead 0x000 = (.okay, 0x43454331#32) ∧ State.reset.busRead 0x004 = (.okay, 0x00010000#32) ∧
  State.reset.busRead 0x008 = (.okay, 0x04000400#32) ∧ State.reset.busRead 0x00C = (.okay, 0x000000FF#32) ∧
  State.reset.busRead 0x010 = (.okay, 0#32) ∧ State.reset.busRead 0x014 = (.okay, 0#32) ∧
  State.reset.busRead 0x018 = (.okay, 0#32) ∧ State.reset.busRead 0x020 = (.okay, 0#32) ∧
  State.reset.busRead 0x024 = (.okay, 0#32) ∧ State.reset.busRead 0x028 = (.okay, 0#32) ∧
  State.reset.busRead 0x02C = (.okay, 255#32) ∧ State.reset.busRead 0x030 = (.okay, 100#32) ∧
  State.reset.busRead 0x034 = (.okay, 50#32) ∧ State.reset.stages = [] ∧ State.reset.irq = false ∧
  ∀ a, State.reset.byteAt a = drawByte 0 a

/-- R250, R251, R252: a hard reset, whatever the CEC is doing: the registers of the table, nothing running, no DONE and no
interrupt, the constants kept, every buffer byte a new draw. -/
def Obligations.HardReset : Prop :=
  ∀ (s : State) (ts : List Turn), s.turns = .rst :: ts →
    ∃ t, step s = .next t ∧ t.ie = false ∧ t.status.toWord = 0#32 ∧ t.cmd = 0#32 ∧ t.stages = [] ∧
      t.live = { imgH := 0#16, imgW := 0#16, ksize := 0#8, scale := 255#16, thHi := 100#32, thLo := 50#32 } ∧
      t.irq = false ∧ t.params = s.params ∧ (∀ a, t.byteAt a = drawByte s.nextDraw a) ∧
      t.nextDraw = s.nextDraw + 1 ∧ t.host = s.host ∧ t.turns = ts

/-- R210, R253: a soft reset at any time: CTRL, STATUS and CMD at 0, the parameters kept; idle, no buffer changes; busy,
the output regions of the stage in progress are any value (a fresh draw) and every other byte is kept, later stages
dropped. -/
def Obligations.SoftReset : Prop :=
  ∀ (s : State) (w : Word), w.getLsbD 1 = true →
    ∃ t, busWrite 0x010 w s = .next t ∧ t.ie = false ∧ t.status.toWord = 0#32 ∧ t.cmd = 0#32 ∧ t.irq = false ∧
      t.live = s.live ∧ t.params = s.params ∧ t.resetDraw = s.resetDraw ∧ t.host = s.host ∧ t.turns = s.turns ∧
      s.writeStatus 0x010 = .okay ∧
      (s.status.busy = false → t.mem = s.mem ∧ t.stages = s.stages) ∧
      (∀ st rest, s.status.busy = true → s.stages = st :: rest →
        t.stages = [] ∧
        (∀ b ∈ st.outputs, ∀ k, k < b.elemBytes * (rows s * cols s) →
          t.byteAt (b.base + k) = drawByte s.nextDraw (b.base + k)) ∧
        (∀ a, (∀ b ∈ st.outputs, a < b.base ∨ b.base + b.elemBytes * (rows s * cols s) ≤ a) →
          t.byteAt a = s.byteAt a))

/-! ## Arithmetic of the stages -/

/-- R12, R124, R125: `rhaz(c, q)` is the nearest integer to `c / q`, a half going away from zero; it never leaves the
magnitude of `c`, and is 0 exactly when `2*|c| < q`; for odd `q` there is no half, and every integer nearest to `c / q` is
`rhaz(c, q)`. -/
def Obligations.RhazIsNearest : Prop :=
  ∀ (c : Int) (q : Nat), 1 ≤ q →
    2 * |c - rhaz c q * q| ≤ q ∧ (2 * |c - rhaz c q * q| = q → |c| < |rhaz c q * q|) ∧
    |rhaz c q| ≤ |c| ∧ (rhaz c q = 0 ↔ 2 * |c| < q) ∧
    (q % 2 = 1 → ∀ v : Int, 2 * |c - v * q| ≠ q ∧ (2 * |c - v * q| ≤ q → v = rhaz c q))

/-- R122: every sum is below 2^55 in magnitude and at most 255 times the kernel's absolute sum, so a kernel whose absolute
sum is at most 8421504 never overflows. -/
def Obligations.ConvolutionSumsBounded : Prop :=
  ∀ (s : State) (ker : Buf) (r c : Nat),
    |convSum s ker r c| < 2 ^ 55 ∧
    |convSum s ker r c| ≤ 255 * ∑ di ∈ Finset.range (side s), ∑ dj ∈ Finset.range (side s),
      |s.elemInt ker (di * side s + dj)| ∧
    ((∑ di ∈ Finset.range (side s), ∑ dj ∈ Finset.range (side s), |s.elemInt ker (di * side s + dj)|) ≤ 8421504 →
      ¬ SumOverflows s ker)

/-- R142: the squared magnitude of 32-bit components fits 64 bits, and is 0 exactly for the zero vector. -/
def Obligations.SquaredMagnitudeFits : Prop :=
  ∀ a b : BitVec 32, magSquared a.toInt b.toInt ≤ 2 ^ 63 ∧
    ((magSquared a.toInt b.toInt : Int) = a.toInt ^ 2 + b.toInt ^ 2) ∧
    (magSquared a.toInt b.toInt = 0 ↔ a.toInt = 0 ∧ b.toInt = 0)

/-- R143, R145: `norm8` of a list is the floor of the exact real rescale of the square roots, all zero for a constant list;
its values are at most 255, 255 exactly at the greatest value and 0 at the least. -/
def Obligations.Norm8IsExactRescale : Prop :=
  ∀ (vs : List Nat) (lo hi : Nat), lo ∈ vs → hi ∈ vs → (∀ v ∈ vs, lo ≤ v ∧ v ≤ hi) →
    (norm8 vs).length = vs.length ∧
    (hi = lo → ∀ x ∈ norm8 vs, x = 0) ∧
    (hi ≠ lo → ∀ (k : Nat) (h : k < vs.length),
      ((norm8 vs).getD k 0 : Int) = Reference.rescale lo hi vs[k] ∧ (norm8 vs).getD k 0 ≤ 255 ∧
      ((norm8 vs).getD k 0 = 255 ↔ vs[k] = hi) ∧ (vs[k] = lo → (norm8 vs).getD k 0 = 0))

/-- R147, R148: `phi8` is the exact rounding of the real angle, for every integer vector, and fits a byte. -/
def Obligations.Phi8IsExactAngle : Prop :=
  ∀ fx fy : Int, (phi8 fx fy : Int) = Reference.phi8 fx fy ∧ phi8 fx fy ≤ 255

/-- R149, R150: the integer quantizer gives the class whose band holds the real angle, for every integer vector. -/
def Obligations.QuantizerMatchesBands : Prop :=
  ∀ (fx fy : Int) (c : Nat), Reference.inClass (Reference.theta fx fy) c ↔ qclass fx fy = c

/-- R152: a class is 0 to 3, and opposite vectors have the same class. -/
def Obligations.OppositeVectorsSameClass : Prop :=
  ∀ fx fy : Int, qclass fx fy ≤ 3 ∧ qclass (-fx) (-fy) = qclass fx fy

/-- R172, R174: every neighbour NMS reads lies inside the region, and is the pixel at that offset (R170's, for each class);
NMS leaves each value or 0, and 0 on the border. -/
def Obligations.NmsNeverIncreases : Prop :=
  (∀ h w cls r c, Interior h w r c → ∀ d ∈ [(neighbourOffsets cls).1, (neighbourOffsets cls).2],
    (0 ≤ (r : Int) + d.1 ∧ (r : Int) + d.1 < h ∧ 0 ≤ (c : Int) + d.2 ∧ (c : Int) + d.2 < w) ∧
    ∀ m : List Nat, atOffset m w r c d = m.getD (((r : Int) + d.1).toNat * w + ((c : Int) + d.2).toNat) 0) ∧
  (∀ h w cls r c (m : List Nat), Interior h w r c →
    atOffset m w r c (neighbourOffsets cls).1 =
      m.getD ((neighbourPair cls r c).1.1 * w + (neighbourPair cls r c).1.2) 0 ∧
    atOffset m w r c (neighbourOffsets cls).2 =
      m.getD ((neighbourPair cls r c).2.1 * w + (neighbourPair cls r c).2.2) 0) ∧
  (∀ s t : State, RunningStages s [.nms] → RegionFits s → exec .nms s = .next t →
    ∀ r c, r < rows s → c < cols s →
      (t.elem .sup2 (r * cols s + c) = s.elem .mag2 (r * cols s + c) ∨ t.elem .sup2 (r * cols s + c) = 0) ∧
      (¬ Interior (rows s) (cols s) r c → t.elem .sup2 (r * cols s + c) = 0))

/-- R180: the conditioned thresholds are ordered, in 0..255, the clamped values themselves, and the same for a swapped
pair. -/
def Obligations.ThresholdsConditioned : Prop :=
  ∀ Th Tl : Int,
    conditionThresholds Th Tl = (max (clampedThreshold Th) (clampedThreshold Tl),
      min (clampedThreshold Th) (clampedThreshold Tl)) ∧
    (conditionThresholds Th Tl).2 ≤ (conditionThresholds Th Tl).1 ∧ (conditionThresholds Th Tl).1 ≤ 255 ∧
    conditionThresholds Tl Th = conditionThresholds Th Tl

/-- R181, R184, R185: the tracer's marks are exactly the set `Edge`: the weak pixels with a path of weak neighbours to a
strong one; so they do not depend on any order of visiting. -/
def Obligations.TracerMarksExactlyReachable : Prop :=
  ∀ (n : List Nat) (h w th tl r c : Nat), tl ≤ th → r < h → c < w →
    ((traceMarks n h w th tl).getD (r * w + c) false = true ↔ IsEdge n h w th tl (r, c))

/-- R184, R185: the work-list procedure, with the pixels taken as seeds in any order and the work list served in any order
(a stack, a queue or anything else), ends with an empty work list and with the very marks of the stage. -/
def Obligations.WorkListOrderIsIrrelevant : Prop :=
  ∀ (n : List Nat) (h w th tl : Nat) (pick : List Nat → Nat) (seeds : List Nat), tl ≤ th →
    (∀ e, e < h * w → e ∈ seeds) →
    (traceByWorkList n h w th tl pick seeds).work = [] ∧
    (traceByWorkList n h w th tl pick seeds).marked = traceMarks n h w th tl

/-- R187: with th = 0 the whole interior is marked; with tl = 0 it is all marked or all clear, as some interior pixel reaches
th or none does. -/
def Obligations.ZeroThresholds : Prop :=
  ∀ (n : List Nat) (h w th r c : Nat), Interior h w r c →
    (traceMarks n h w 0 0).getD (r * w + c) false = true ∧
    ((traceMarks n h w th 0).getD (r * w + c) false = true ↔ ∃ p, ReachesLevel n h w th p)

/-- R188: below tl never an edge; an interior pixel at th or above always one; a border pixel never; and HYST issued twice
leaves the machine's buffers as issued once. -/
def Obligations.HystProperties : Prop :=
  (∀ (n : List Nat) (h w th tl r c : Nat), tl ≤ th → r < h → c < w →
    (n.getD (r * w + c) 0 < tl → (traceMarks n h w th tl).getD (r * w + c) false = false) ∧
    (¬ Interior h w r c → (traceMarks n h w th tl).getD (r * w + c) false = false) ∧
    (Interior h w r c → th ≤ n.getD (r * w + c) 0 → (traceMarks n h w th tl).getD (r * w + c) false = true)) ∧
  (∀ s t u : State, RunningStages s [.hyst] → RegionFits s → exec .hyst s = .next t →
    exec .hyst { t with stages := [.hyst], status := { t.status with busy := true } } = .next u → u.mem = t.mem)

/-! ## Whole-machine rules -/

/-- The state after reset meets the invariant. -/
def Obligations.ResetMeetsInvariant : Prop := State.reset.Inv

/-- From every state that meets the invariant, whatever turn comes and whatever the host does, a step leads to one that
meets it. -/
def Obligations.StepKeepsInvariant : Prop :=
  ∀ s t : State, s.Inv → step s = .next t → t.Inv

/-- R33: OVR and CONV_OVF are never cleared by an accept or an engine step: only by a STATUS write of 1 to the bit, or a
reset. -/
def Obligations.StickyFlagsStay : Prop :=
  ∀ s t : State, step s = .next t →
    (s.status.ovr = true → t.status.ovr = false →
      s.mover = .rst ∨ (∃ w, s.hostWrites 0x014 w ∧ w.getLsbD 3 = true) ∨
        (∃ w, s.hostWrites 0x010 w ∧ w.getLsbD 1 = true)) ∧
    (s.status.convOvf = true → t.status.convOvf = false →
      s.mover = .rst ∨ (∃ w, s.hostWrites 0x014 w ∧ w.getLsbD 4 = true) ∨
        (∃ w, s.hostWrites 0x010 w ∧ w.getLsbD 1 = true))

/-- R30, R76, R206: a CEC becomes busy only by the host's write to CMD of a legal word that passes validation; it becomes
idle only by the engine step of its last stage or a reset. -/
def Obligations.BusyChangesOnlyAtAcceptAndEnd : Prop :=
  ∀ s t : State, s.Inv → step s = .next t →
    (s.status.busy = false → t.status.busy = true →
      ∃ i, s.hostWrites 0x018 (encode i) ∧ (i ≠ .nop → DimsValid s.params s.live) ∧
        (i ∈ [Instr.convX, .convY, .grad, .run] → KsizeValid s.params s.live) ∧
        (i ∈ [Instr.descaleX, .descaleY, .grad, .run] → ScaleValid s.live) ∧
        t.latched = s.live ∧ t.cmd = encode i) ∧
    (s.status.busy = true → t.status.busy = false →
      (s.mover = .engine ∧ s.stages.length = 1) ∨ s.mover = .rst ∨
        (∃ w, s.hostWrites 0x010 w ∧ w.getLsbD 1 = true))

/-- R23, R24, R25, R26: the constants never change, and the words of CAP0 (MAX_H below MAX_W) and CAP1 for every legal
implementation.  R71: an engine step leaves the host alone; that a hard reset does so too is the model's choice
(log 19). -/
def Obligations.ConstantsNeverChange : Prop :=
  (∀ s t : State, step s = .next t →
    t.params = s.params ∧ t.regRead .cap0 = s.regRead .cap0 ∧ t.regRead .cap1 = s.regRead .cap1 ∧
    t.regRead .id = 0x43454331#32 ∧ t.regRead .version = 0x00010000#32 ∧
    (s.mover = .engine → t.host = s.host) ∧ (s.mover = .rst → t.host = s.host)) ∧
  (∀ s : State, s.params.legal →
    ((s.regRead .cap0).extractLsb' 0 16).toNat = s.params.maxH ∧
    ((s.regRead .cap0).extractLsb' 16 16).toNat = s.params.maxW ∧
    (s.regRead .cap1).toNat = s.params.maxN)

/-- R60, R61, R98: what each line of a host program does.  A transaction is made at `CEC_BASE + offset`; one at a platform
address in the window is the one at its offset, and one outside it is not the CEC's and changes nothing of it (log 15).  A
write line is the write, the host having gone on and noted the response.  The host's own control flow changes nothing of the
CEC: a label falls through, BNZ branches to its label on the last word read and falls through otherwise; a label the program
lacks stops the run by name (log 17).  At the end of its program the host does nothing (log 2).  That a label and a BNZ each
take a step, one host turn, is the model's choice (log 21). -/
def Obligations.HostLineEffects : Prop :=
  (∀ (s : State) (ts : List Turn), s.turns = .host :: ts →
    (∀ l, s.host.prog[s.host.pc]? = some l → step s = hostLine l { s with turns := ts }) ∧
    (s.host.prog[s.host.pc]? = none → step s = .next { s with turns := ts })) ∧
  (∀ (s : State) (a : Addr) (v : Word),
    hostLine (.wr a v) s = busWrite a.toNat v { s with host := { s.host with
      pc := s.host.pc + 1
      resp := some { status := s.writeStatus a.toNat, data := none } } } ∧
    s.memRead (s.params.cecBase + a.toNat) = some (s.busRead a.toNat) ∧
    memWrite (s.params.cecBase + a.toNat) v s = busWrite a.toNat v s ∧
    s.memWriteStatus (s.params.cecBase + a.toNat) = some (s.writeStatus a.toNat)) ∧
  (∀ (s : State) (addr : Nat) (v : Word), addr < s.params.cecBase ∨ s.params.cecBase + 0x04000000 ≤ addr →
    s.memRead addr = none ∧ s.memWriteStatus addr = none ∧ memWrite addr v s = .next s) ∧
  ∀ (s : State) (bits : Word) (l : Nat),
    hostLine (.label l) s = .next { s with host := { s.host with pc := s.host.pc + 1 } } ∧
    (s.host.lastRead &&& bits = 0#32 →
      hostLine (.bnz bits l) s = .next { s with host := { s.host with pc := s.host.pc + 1 } }) ∧
    (s.host.lastRead &&& bits ≠ 0#32 →
      (HostLine.label l ∈ s.host.prog →
        ∃ k, hostLine (.bnz bits l) s = .next { s with host := { s.host with pc := k + 1 } } ∧
          s.host.prog[k]? = some (.label l) ∧ ∀ j, j < k → s.host.prog[j]? ≠ some (.label l)) ∧
      (HostLine.label l ∉ s.host.prog → hostLine (.bnz bits l) s = .fault (.undefinedLabel l)))

/-! ## Kernel synthesis (the host's reference functions) -/

/-- R116: the synthesised kernels are exactly odd-symmetric, and KY is the transpose of KX. -/
def Obligations.KernelsOddSymmetric : Prop :=
  ∀ (n : Nat) (sigma : ℝ) (sf di dj : Nat), n % 2 = 1 → di < n → dj < n →
    Reference.kernelX n sigma sf di (n - 1 - dj) = -Reference.kernelX n sigma sf di dj ∧
    Reference.kernelY n sigma sf (n - 1 - di) dj = -Reference.kernelY n sigma sf di dj ∧
    Reference.kernelY n sigma sf di dj = Reference.kernelX n sigma sf dj di

/-- R113: for every sigma > 0 the kernel values are at most the scale factor in magnitude. -/
def Obligations.KernelValuesBounded : Prop :=
  ∀ (n : Nat) (sigma : ℝ) (sf di dj : Nat), 0 < sigma →
    |Reference.kernelX n sigma sf di dj| ≤ sf ∧ |Reference.kernelY n sigma sf di dj| ≤ sf

/-- R110, R111: the filter size fails exactly on InvalidParameter; else N is odd, `2*sHalf + 1`, and grows with sigma and
shrinks with T. -/
def Obligations.FilterSizeOddAndMonotone : Prop :=
  (∀ sigma T : ℝ, Reference.filterSize sigma T = none ↔ sigma < 1 / 2 ∨ T ≤ 0 ∨ 1 ≤ T) ∧
  (∀ (sigma T : ℝ) (n s : Nat), Reference.filterSize sigma T = some (n, s) → n = 2 * s + 1 ∧ n % 2 = 1) ∧
  (∀ (sigma sigma' T : ℝ) (n s n' s' : Nat), sigma ≤ sigma' → Reference.filterSize sigma T = some (n, s) →
    Reference.filterSize sigma' T = some (n', s') → n ≤ n') ∧
  (∀ (sigma T T' : ℝ) (n s n' s' : Nat), T ≤ T' → Reference.filterSize sigma T = some (n, s) →
    Reference.filterSize sigma T' = some (n', s') → n' ≤ n)

end
end

