-- ==== Sys2Proof/Laws/State.lean ====
section
/-! SUPPORT. One lemma per field of `State` for each named update, true by `rfl`: later proofs never unfold a record
update.  Then what the larger operations of Control.lean change, said once. -/

namespace Sys2Proof.Machine

/-! ### hostNext -/

@[simp] theorem hostNext_params (s : State) : s.hostNext.params = s.params := rfl
@[simp] theorem hostNext_ie (s : State) : s.hostNext.ie = s.ie := rfl
@[simp] theorem hostNext_status (s : State) : s.hostNext.status = s.status := rfl
@[simp] theorem hostNext_cmd (s : State) : s.hostNext.cmd = s.cmd := rfl
@[simp] theorem hostNext_live (s : State) : s.hostNext.live = s.live := rfl
@[simp] theorem hostNext_latched (s : State) : s.hostNext.latched = s.latched := rfl
@[simp] theorem hostNext_stages (s : State) : s.hostNext.stages = s.stages := rfl
@[simp] theorem hostNext_mem (s : State) : s.hostNext.mem = s.mem := rfl
@[simp] theorem hostNext_resetDraw (s : State) : s.hostNext.resetDraw = s.resetDraw := rfl
@[simp] theorem hostNext_nextDraw (s : State) : s.hostNext.nextDraw = s.nextDraw := rfl
@[simp] theorem hostNext_host (s : State) : s.hostNext.host = { s.host with pc := s.host.pc + 1 } := rfl
@[simp] theorem hostNext_turns (s : State) : s.hostNext.turns = s.turns := rfl

/-! ### noteWrite -/

@[simp] theorem noteWrite_params (s : State) (x : Option BusStatus) : (s.noteWrite x).params = s.params := rfl
@[simp] theorem noteWrite_ie (s : State) (x : Option BusStatus) : (s.noteWrite x).ie = s.ie := rfl
@[simp] theorem noteWrite_status (s : State) (x : Option BusStatus) : (s.noteWrite x).status = s.status := rfl
@[simp] theorem noteWrite_cmd (s : State) (x : Option BusStatus) : (s.noteWrite x).cmd = s.cmd := rfl
@[simp] theorem noteWrite_live (s : State) (x : Option BusStatus) : (s.noteWrite x).live = s.live := rfl
@[simp] theorem noteWrite_latched (s : State) (x : Option BusStatus) : (s.noteWrite x).latched = s.latched := rfl
@[simp] theorem noteWrite_stages (s : State) (x : Option BusStatus) : (s.noteWrite x).stages = s.stages := rfl
@[simp] theorem noteWrite_mem (s : State) (x : Option BusStatus) : (s.noteWrite x).mem = s.mem := rfl
@[simp] theorem noteWrite_resetDraw (s : State) (x : Option BusStatus) : (s.noteWrite x).resetDraw = s.resetDraw := rfl
@[simp] theorem noteWrite_nextDraw (s : State) (x : Option BusStatus) : (s.noteWrite x).nextDraw = s.nextDraw := rfl
@[simp] theorem noteWrite_turns (s : State) (x : Option BusStatus) : (s.noteWrite x).turns = s.turns := rfl
@[simp] theorem noteWrite_host (s : State) (x : BusStatus) :
    (s.noteWrite (some x)).host = { s.host with resp := some { status := x, data := none } } := rfl

/-! ### noteRead -/

@[simp] theorem noteRead_params (s : State) (x : Option (BusStatus × Word)) :
    (s.noteRead x).params = s.params := rfl
@[simp] theorem noteRead_ie (s : State) (x : Option (BusStatus × Word)) :
    (s.noteRead x).ie = s.ie := rfl
@[simp] theorem noteRead_status (s : State) (x : Option (BusStatus × Word)) :
    (s.noteRead x).status = s.status := rfl
@[simp] theorem noteRead_cmd (s : State) (x : Option (BusStatus × Word)) :
    (s.noteRead x).cmd = s.cmd := rfl
@[simp] theorem noteRead_live (s : State) (x : Option (BusStatus × Word)) :
    (s.noteRead x).live = s.live := rfl
@[simp] theorem noteRead_latched (s : State) (x : Option (BusStatus × Word)) :
    (s.noteRead x).latched = s.latched := rfl
@[simp] theorem noteRead_stages (s : State) (x : Option (BusStatus × Word)) :
    (s.noteRead x).stages = s.stages := rfl
@[simp] theorem noteRead_mem (s : State) (x : Option (BusStatus × Word)) :
    (s.noteRead x).mem = s.mem := rfl
@[simp] theorem noteRead_resetDraw (s : State) (x : Option (BusStatus × Word)) :
    (s.noteRead x).resetDraw = s.resetDraw := rfl
@[simp] theorem noteRead_nextDraw (s : State) (x : Option (BusStatus × Word)) :
    (s.noteRead x).nextDraw = s.nextDraw := rfl
@[simp] theorem noteRead_turns (s : State) (x : Option (BusStatus × Word)) :
    (s.noteRead x).turns = s.turns := rfl
@[simp] theorem noteRead_host (s : State) (x : BusStatus × Word) :
    (s.noteRead (some x)).host = { s.host with lastRead := x.2, resp := some { status := x.1, data := some x.2 } } := rfl

/-! ### writeRegion -/

@[simp] theorem writeRegion_params (s : State) (b : Buf) (vs : List Nat) :
    (s.writeRegion b vs).params = s.params := rfl
@[simp] theorem writeRegion_ie (s : State) (b : Buf) (vs : List Nat) : (s.writeRegion b vs).ie = s.ie := rfl
@[simp] theorem writeRegion_status (s : State) (b : Buf) (vs : List Nat) :
    (s.writeRegion b vs).status = s.status := rfl
@[simp] theorem writeRegion_cmd (s : State) (b : Buf) (vs : List Nat) : (s.writeRegion b vs).cmd = s.cmd := rfl
@[simp] theorem writeRegion_live (s : State) (b : Buf) (vs : List Nat) : (s.writeRegion b vs).live = s.live := rfl
@[simp] theorem writeRegion_latched (s : State) (b : Buf) (vs : List Nat) :
    (s.writeRegion b vs).latched = s.latched := rfl
@[simp] theorem writeRegion_stages (s : State) (b : Buf) (vs : List Nat) :
    (s.writeRegion b vs).stages = s.stages := rfl
@[simp] theorem writeRegion_mem (s : State) (b : Buf) (vs : List Nat) :
    (s.writeRegion b vs).mem = s.mem.write b.base (regionBytes b vs) := rfl
@[simp] theorem writeRegion_resetDraw (s : State) (b : Buf) (vs : List Nat) :
    (s.writeRegion b vs).resetDraw = s.resetDraw := rfl
@[simp] theorem writeRegion_nextDraw (s : State) (b : Buf) (vs : List Nat) :
    (s.writeRegion b vs).nextDraw = s.nextDraw := rfl
@[simp] theorem writeRegion_host (s : State) (b : Buf) (vs : List Nat) : (s.writeRegion b vs).host = s.host := rfl
@[simp] theorem writeRegion_turns (s : State) (b : Buf) (vs : List Nat) : (s.writeRegion b vs).turns = s.turns := rfl

/-! ### drawRegion -/

@[simp] theorem drawRegion_params (s : State) (b : Buf) (n d : Nat) : (s.drawRegion b n d).params = s.params := rfl
@[simp] theorem drawRegion_ie (s : State) (b : Buf) (n d : Nat) : (s.drawRegion b n d).ie = s.ie := rfl
@[simp] theorem drawRegion_status (s : State) (b : Buf) (n d : Nat) : (s.drawRegion b n d).status = s.status := rfl
@[simp] theorem drawRegion_cmd (s : State) (b : Buf) (n d : Nat) : (s.drawRegion b n d).cmd = s.cmd := rfl
@[simp] theorem drawRegion_live (s : State) (b : Buf) (n d : Nat) : (s.drawRegion b n d).live = s.live := rfl
@[simp] theorem drawRegion_latched (s : State) (b : Buf) (n d : Nat) : (s.drawRegion b n d).latched = s.latched := rfl
@[simp] theorem drawRegion_stages (s : State) (b : Buf) (n d : Nat) : (s.drawRegion b n d).stages = s.stages := rfl
@[simp] theorem drawRegion_mem (s : State) (b : Buf) (n d : Nat) :
    (s.drawRegion b n d).mem = s.mem.write b.base ((List.range (b.elemBytes * n)).map (fun k => drawByte d (b.base + k))) := rfl
@[simp] theorem drawRegion_resetDraw (s : State) (b : Buf) (n d : Nat) :
    (s.drawRegion b n d).resetDraw = s.resetDraw := rfl
@[simp] theorem drawRegion_nextDraw (s : State) (b : Buf) (n d : Nat) :
    (s.drawRegion b n d).nextDraw = s.nextDraw := rfl
@[simp] theorem drawRegion_host (s : State) (b : Buf) (n d : Nat) : (s.drawRegion b n d).host = s.host := rfl
@[simp] theorem drawRegion_turns (s : State) (b : Buf) (n d : Nat) : (s.drawRegion b n d).turns = s.turns := rfl

/-! ### bufWrite -/

@[simp] theorem bufWrite_params (s : State) (b : Buf) (a : Nat) (v : Word) :
    (s.bufWrite b a v).params = s.params := rfl
@[simp] theorem bufWrite_ie (s : State) (b : Buf) (a : Nat) (v : Word) : (s.bufWrite b a v).ie = s.ie := rfl
@[simp] theorem bufWrite_status (s : State) (b : Buf) (a : Nat) (v : Word) :
    (s.bufWrite b a v).status = s.status := rfl
@[simp] theorem bufWrite_cmd (s : State) (b : Buf) (a : Nat) (v : Word) : (s.bufWrite b a v).cmd = s.cmd := rfl
@[simp] theorem bufWrite_live (s : State) (b : Buf) (a : Nat) (v : Word) : (s.bufWrite b a v).live = s.live := rfl
@[simp] theorem bufWrite_latched (s : State) (b : Buf) (a : Nat) (v : Word) :
    (s.bufWrite b a v).latched = s.latched := rfl
@[simp] theorem bufWrite_stages (s : State) (b : Buf) (a : Nat) (v : Word) :
    (s.bufWrite b a v).stages = s.stages := rfl
@[simp] theorem bufWrite_mem (s : State) (b : Buf) (a : Nat) (v : Word) :
    (s.bufWrite b a v).mem = s.mem.write a (((bytesOfWord v).take (lanesBacked s.params b a)).map (storedByte a)) := rfl
@[simp] theorem bufWrite_resetDraw (s : State) (b : Buf) (a : Nat) (v : Word) :
    (s.bufWrite b a v).resetDraw = s.resetDraw := rfl
@[simp] theorem bufWrite_nextDraw (s : State) (b : Buf) (a : Nat) (v : Word) :
    (s.bufWrite b a v).nextDraw = s.nextDraw := rfl
@[simp] theorem bufWrite_host (s : State) (b : Buf) (a : Nat) (v : Word) : (s.bufWrite b a v).host = s.host := rfl
@[simp] theorem bufWrite_turns (s : State) (b : Buf) (a : Nat) (v : Word) : (s.bufWrite b a v).turns = s.turns := rfl

/-! ### orConvOvf -/

@[simp] theorem orConvOvf_params (s : State) (o : Bool) : (s.orConvOvf o).params = s.params := rfl
@[simp] theorem orConvOvf_ie (s : State) (o : Bool) : (s.orConvOvf o).ie = s.ie := rfl
@[simp] theorem orConvOvf_status (s : State) (o : Bool) :
    (s.orConvOvf o).status = { s.status with convOvf := s.status.convOvf || o } := rfl
@[simp] theorem orConvOvf_cmd (s : State) (o : Bool) : (s.orConvOvf o).cmd = s.cmd := rfl
@[simp] theorem orConvOvf_live (s : State) (o : Bool) : (s.orConvOvf o).live = s.live := rfl
@[simp] theorem orConvOvf_latched (s : State) (o : Bool) : (s.orConvOvf o).latched = s.latched := rfl
@[simp] theorem orConvOvf_stages (s : State) (o : Bool) : (s.orConvOvf o).stages = s.stages := rfl
@[simp] theorem orConvOvf_mem (s : State) (o : Bool) : (s.orConvOvf o).mem = s.mem := rfl
@[simp] theorem orConvOvf_resetDraw (s : State) (o : Bool) : (s.orConvOvf o).resetDraw = s.resetDraw := rfl
@[simp] theorem orConvOvf_nextDraw (s : State) (o : Bool) : (s.orConvOvf o).nextDraw = s.nextDraw := rfl
@[simp] theorem orConvOvf_host (s : State) (o : Bool) : (s.orConvOvf o).host = s.host := rfl
@[simp] theorem orConvOvf_turns (s : State) (o : Bool) : (s.orConvOvf o).turns = s.turns := rfl

/-! ### refuse -/

@[simp] theorem refuse_params (s : State) (w : Word) (c : ErrCode) : (s.refuse w c).params = s.params := rfl
@[simp] theorem refuse_ie (s : State) (w : Word) (c : ErrCode) : (s.refuse w c).ie = s.ie := rfl
@[simp] theorem refuse_status (s : State) (w : Word) (c : ErrCode) :
    (s.refuse w c).status = { s.status with done := true, err := true, errcode := c, stage := 0#3 } := rfl
@[simp] theorem refuse_cmd (s : State) (w : Word) (c : ErrCode) : (s.refuse w c).cmd = w := rfl
@[simp] theorem refuse_live (s : State) (w : Word) (c : ErrCode) : (s.refuse w c).live = s.live := rfl
@[simp] theorem refuse_latched (s : State) (w : Word) (c : ErrCode) : (s.refuse w c).latched = s.latched := rfl
@[simp] theorem refuse_stages (s : State) (w : Word) (c : ErrCode) : (s.refuse w c).stages = s.stages := rfl
@[simp] theorem refuse_mem (s : State) (w : Word) (c : ErrCode) : (s.refuse w c).mem = s.mem := rfl
@[simp] theorem refuse_resetDraw (s : State) (w : Word) (c : ErrCode) : (s.refuse w c).resetDraw = s.resetDraw := rfl
@[simp] theorem refuse_nextDraw (s : State) (w : Word) (c : ErrCode) : (s.refuse w c).nextDraw = s.nextDraw := rfl
@[simp] theorem refuse_host (s : State) (w : Word) (c : ErrCode) : (s.refuse w c).host = s.host := rfl
@[simp] theorem refuse_turns (s : State) (w : Word) (c : ErrCode) : (s.refuse w c).turns = s.turns := rfl

/-! ### start -/

@[simp] theorem start_params (s : State) (i : Instr) : (s.start i).params = s.params := rfl
@[simp] theorem start_ie (s : State) (i : Instr) : (s.start i).ie = s.ie := rfl
@[simp] theorem start_status (s : State) (i : Instr) :
    (s.start i).status = { s.status with busy := true, done := false, err := false, errcode := .none, stage := firstCode (stagesOf i) } := rfl
@[simp] theorem start_cmd (s : State) (i : Instr) : (s.start i).cmd = encode i := rfl
@[simp] theorem start_live (s : State) (i : Instr) : (s.start i).live = s.live := rfl
@[simp] theorem start_latched (s : State) (i : Instr) : (s.start i).latched = s.live := rfl
@[simp] theorem start_stages (s : State) (i : Instr) : (s.start i).stages = stagesOf i := rfl
@[simp] theorem start_mem (s : State) (i : Instr) : (s.start i).mem = s.mem := rfl
@[simp] theorem start_resetDraw (s : State) (i : Instr) : (s.start i).resetDraw = s.resetDraw := rfl
@[simp] theorem start_nextDraw (s : State) (i : Instr) : (s.start i).nextDraw = s.nextDraw := rfl
@[simp] theorem start_host (s : State) (i : Instr) : (s.start i).host = s.host := rfl
@[simp] theorem start_turns (s : State) (i : Instr) : (s.start i).turns = s.turns := rfl

/-! ### advance: only the stage list and STATUS -/

@[simp] theorem advance_params (s : State) (r : List Stage) : (s.advance r).params = s.params := by cases r <;> rfl
@[simp] theorem advance_ie (s : State) (r : List Stage) : (s.advance r).ie = s.ie := by cases r <;> rfl
@[simp] theorem advance_cmd (s : State) (r : List Stage) : (s.advance r).cmd = s.cmd := by cases r <;> rfl
@[simp] theorem advance_live (s : State) (r : List Stage) : (s.advance r).live = s.live := by cases r <;> rfl
@[simp] theorem advance_latched (s : State) (r : List Stage) : (s.advance r).latched = s.latched := by cases r <;> rfl
@[simp] theorem advance_mem (s : State) (r : List Stage) : (s.advance r).mem = s.mem := by cases r <;> rfl
@[simp] theorem advance_resetDraw (s : State) (r : List Stage) : (s.advance r).resetDraw = s.resetDraw := by cases r <;> rfl
@[simp] theorem advance_nextDraw (s : State) (r : List Stage) : (s.advance r).nextDraw = s.nextDraw := by cases r <;> rfl
@[simp] theorem advance_host (s : State) (r : List Stage) : (s.advance r).host = s.host := by cases r <;> rfl
@[simp] theorem advance_turns (s : State) (r : List Stage) : (s.advance r).turns = s.turns := by cases r <;> rfl
@[simp] theorem advance_stages (s : State) (r : List Stage) : (s.advance r).stages = r := by cases r <;> rfl
@[simp] theorem advance_status_nil (s : State) :
    (s.advance []).status = { s.status with busy := false, done := true } := rfl
@[simp] theorem advance_status_cons (s : State) (x : Stage) (r : List Stage) :
    (s.advance (x :: r)).status = { s.status with stage := x.code } := rfl

/-! ### drawOutputs: only the memory -/

theorem drawOutputs_eq (s : State) (d : Nat) (bs : List Buf) :
    s.drawOutputs d bs = { s with mem := (s.drawOutputs d bs).mem } := by
  induction bs generalizing s with
  | nil => rfl
  | cons b bs ih => rw [State.drawOutputs, ih]; rfl

/-! ### performStage: only the memory and CONV_OVF -/

theorem convStage_eq (k out : Buf) (s : State) :
    convStage k out s = { s with
      mem := (convStage k out s).mem
      status := { s.status with convOvf := (convStage k out s).status.convOvf } } := rfl

/-- All a stage can change: the memory, and CONV_OVF, which it never clears (R207, R33). -/
theorem performStage_eq (st : Stage) (s : State) :
    performStage st s = { s with
      mem := (performStage st s).mem
      status := { s.status with convOvf := (performStage st s).status.convOvf } } := by
  cases st <;> rfl

theorem performStage_convOvf (st : Stage) (s : State) (h : s.status.convOvf = true) :
    (performStage st s).status.convOvf = true := by
  cases st <;> simp [performStage, convStage, descaleStage, descaleBoth, magStage, dirStage, nmsStage, hystStage, h]

/-- What `exec` answers for every command: one step in that command's life (log 9). -/
theorem exec_eq (i : Instr) (s : State) : exec i s = commandStep i s := by cases i <;> rfl

/-- No command stops the machine (R206). -/
theorem exec_next (i : Instr) (s : State) :
    exec i s = .next (if s.status.busy then engineStep s else accept i s) := exec_eq i s

/-- An accept either refuses with the code that validation gave, or starts the command (R205). -/
theorem accept_eq (i : Instr) (s : State) :
    accept i s = if validate s.params s.live (checksOf i) = .none then s.start i
      else s.refuse (encode i) (validate s.params s.live (checksOf i)) := by
  unfold accept
  split <;> simp_all

/-- The engine's turn is the engine step while BUSY = 1 and nothing otherwise (R207). -/
theorem engineTurn_eq (s : State) : engineTurn s = .next (if s.status.busy then engineStep s else s) := by
  unfold engineTurn
  split
  · split <;> simp_all [exec_next]
  · simp_all

end Sys2Proof.Machine
end

