-- ==== Sys2Proof/Laws/Control.lean ====
section
/-! SUPPORT. What the operations of Control.lean and Decode.lean answer, said once: the checks of an accept as arithmetic
on the registers, decoding as the inverse of encoding a word, and the shape of an engine step. -/

namespace Sys2Proof.Machine

theorem dimOk_iff (p : Params) (r : ParamRegs) :
    dimOk p r = true ↔ 1 ≤ r.imgH.toNat ∧ r.imgH.toNat ≤ p.maxH ∧ 1 ≤ r.imgW.toNat ∧ r.imgW.toNat ≤ p.maxW := by
  simp only [dimOk, Bool.and_eq_true, decide_eq_true_eq, and_assoc]

theorem ksizeOk_iff (p : Params) (r : ParamRegs) :
    ksizeOk p r = true ↔ r.ksize.toNat % 2 = 1 ∧ 1 ≤ r.ksize.toNat ∧ r.ksize.toNat ≤ p.maxN := by
  simp only [ksizeOk, Bool.and_eq_true, decide_eq_true_eq, and_assoc]

theorem scaleOk_iff (r : ParamRegs) : scaleOk r = true ↔ r.scale ≠ 0#16 := by
  simp only [scaleOk, decide_eq_true_eq]
  simp only [ParamRegs.SF, ne_eq, ← BitVec.toNat_inj, BitVec.toNat_ofNat, Nat.zero_mod]

/-- When validation finds nothing (R206): every check the command makes holds. -/
theorem validate_none_iff (p : Params) (r : ParamRegs) (c : Checks) :
    validate p r c = .none ↔
      (c.dim = true → dimOk p r = true) ∧ (c.ksize = true → ksizeOk p r = true) ∧
        (c.scale = true → scaleOk r = true) := by
  unfold validate
  cases c.dim <;> cases c.ksize <;> cases c.scale <;> cases dimOk p r <;> cases ksizeOk p r <;> cases scaleOk r <;>
    simp

/-- Validation never finds E_CMD, which the decoder decides (R206). -/
theorem validate_ne_cmd (p : Params) (r : ParamRegs) (c : Checks) : validate p r c ≠ .cmd := by
  unfold validate
  split
  · simp
  · split
    · simp
    · split <;> simp

/-- Validation looks at the checks, the registers' dimensions, kernel side and scale, and nothing else. -/
theorem validate_mono {p : Params} {r : ParamRegs} {c d : Checks} (h : validate p r c = .none)
    (hd : d.dim = true → c.dim = true) (hk : d.ksize = true → c.ksize = true) (hs : d.scale = true → c.scale = true) :
    validate p r d = .none := by
  rw [validate_none_iff] at h ⊢
  exact ⟨fun x => h.1 (hd x), fun x => h.2.1 (hk x), fun x => h.2.2 (hs x)⟩

theorem stagesOf_ne_nil (i : Instr) : stagesOf i ≠ [] := by cases i <;> simp [stagesOf]

/-! ### Engine steps -/

theorem engineStep_cons {s : State} {st : Stage} {rest : List Stage} (h : s.stages = st :: rest) :
    engineStep s = (performStage st s).advance rest := by
  simp [engineStep, h]

/-- A busy CEC with a stage left runs it, whichever command is named (R207; log 9). -/
theorem exec_busy (i : Instr) {s : State} {st : Stage} {rest : List Stage} (hb : s.status.busy = true)
    (h : s.stages = st :: rest) : exec i s = .next ((performStage st s).advance rest) := by
  rw [exec_next, if_pos hb, engineStep_cons h]

@[simp] theorem performStage_params (st : Stage) (s : State) : (performStage st s).params = s.params := by
  rw [performStage_eq]
@[simp] theorem performStage_ie (st : Stage) (s : State) : (performStage st s).ie = s.ie := by rw [performStage_eq]
@[simp] theorem performStage_cmd (st : Stage) (s : State) : (performStage st s).cmd = s.cmd := by rw [performStage_eq]
@[simp] theorem performStage_live (st : Stage) (s : State) : (performStage st s).live = s.live := by
  rw [performStage_eq]
@[simp] theorem performStage_latched (st : Stage) (s : State) : (performStage st s).latched = s.latched := by
  rw [performStage_eq]
@[simp] theorem performStage_stages (st : Stage) (s : State) : (performStage st s).stages = s.stages := by
  rw [performStage_eq]
@[simp] theorem performStage_resetDraw (st : Stage) (s : State) : (performStage st s).resetDraw = s.resetDraw := by
  rw [performStage_eq]
@[simp] theorem performStage_nextDraw (st : Stage) (s : State) : (performStage st s).nextDraw = s.nextDraw := by
  rw [performStage_eq]
@[simp] theorem performStage_host (st : Stage) (s : State) : (performStage st s).host = s.host := by
  rw [performStage_eq]
@[simp] theorem performStage_turns (st : Stage) (s : State) : (performStage st s).turns = s.turns := by
  rw [performStage_eq]
@[simp] theorem performStage_busy (st : Stage) (s : State) : (performStage st s).status.busy = s.status.busy := by
  rw [performStage_eq]
@[simp] theorem performStage_done (st : Stage) (s : State) : (performStage st s).status.done = s.status.done := by
  rw [performStage_eq]
@[simp] theorem performStage_err (st : Stage) (s : State) : (performStage st s).status.err = s.status.err := by
  rw [performStage_eq]
@[simp] theorem performStage_ovr (st : Stage) (s : State) : (performStage st s).status.ovr = s.status.ovr := by
  rw [performStage_eq]
@[simp] theorem performStage_errcode (st : Stage) (s : State) :
    (performStage st s).status.errcode = s.status.errcode := by
  rw [performStage_eq]
@[simp] theorem performStage_stage (st : Stage) (s : State) : (performStage st s).status.stage = s.status.stage := by
  rw [performStage_eq]

end Sys2Proof.Machine
end

