-- ==== Sys2Proof/Laws/Memory.lean ====
section
/-! SUPPORT. The laws of the buffer storage: what a block write leaves at each offset, and that every write keeps the
canonical form. -/

namespace Sys2Proof.Machine

theorem Memory.read_append (m n : Memory) (k : Nat) :
    Memory.read (m ++ n) k = (Memory.read m k).or (Memory.read n k) := by
  induction m with
  | nil => rfl
  | cons c m ih =>
    obtain ⟨a, v⟩ := c
    simp only [List.cons_append, Memory.read]
    split <;> simp_all

theorem Memory.read_none_of_forall {m : Memory} {k : Nat} (h : ∀ c ∈ m, c.1 ≠ k) : Memory.read m k = none := by
  induction m with
  | nil => rfl
  | cons c m ih =>
    obtain ⟨a, v⟩ := c
    simp only [List.mem_cons, forall_eq_or_imp] at h
    simp [Memory.read, h.1, ih h.2]

theorem Memory.read_filter {m : Memory} {p : Nat → Bool} {k : Nat} :
    Memory.read (m.filter (fun c => p c.1)) k = if p k then Memory.read m k else none := by
  induction m with
  | nil => simp [Memory.read]
  | cons c m ih =>
    obtain ⟨a, v⟩ := c
    by_cases hp : p a = true <;> by_cases ha : a = k <;> simp_all [Memory.read]

theorem Memory.read_block (a : Nat) (bs : List Byte) (k : Nat) :
    Memory.read (Memory.block a bs) k = if a ≤ k then bs[k - a]? else none := by
  induction bs generalizing a with
  | nil => simp [Memory.block, Memory.read]
  | cons b bs ih =>
    simp only [Memory.block, Memory.read, ih]
    by_cases h : a = k
    · simp [h]
    · by_cases h' : a ≤ k
      · have : k - a = (k - (a + 1)) + 1 := by omega
        simp [h, h', this, show a + 1 ≤ k by omega]
      · simp [h, h', show ¬ a + 1 ≤ k by omega]

/-- What a write leaves: the bytes written inside its block, the old bytes outside. -/
theorem Memory.read_write (m : Memory) (a : Nat) (bs : List Byte) (k : Nat) :
    Memory.read (m.write a bs) k =
      if a ≤ k ∧ k < a + bs.length then bs[k - a]? else Memory.read m k := by
  rw [Memory.write, Memory.read_append, Memory.read_append,
    Memory.read_filter (p := fun x => decide (x < a)),
    Memory.read_filter (p := fun x => decide (a + bs.length ≤ x)), Memory.read_block]
  by_cases h1 : k < a
  · simp [h1, show ¬ a ≤ k by omega, show ¬ a + bs.length ≤ k by omega]
  · by_cases h2 : k < a + bs.length
    · have hlt : k - a < bs.length := by omega
      simp [h1, show a ≤ k by omega, h2, hlt]
    · have hge : bs[k - a]? = none := List.getElem?_eq_none (by omega)
      simp [h1, show a ≤ k by omega, h2, hge, show a + bs.length ≤ k by omega]

theorem Memory.mem_block {a : Nat} {bs : List Byte} {c : Host.Cell} (h : c ∈ Memory.block a bs) :
    a ≤ c.1 ∧ c.1 < a + bs.length ∧ c.2 ∈ bs := by
  induction bs generalizing a with
  | nil => simp [Memory.block] at h
  | cons b bs ih =>
    simp only [Memory.block, List.mem_cons] at h
    rcases h with rfl | h
    · simp
    · have := ih h
      simp only [List.length_cons, List.mem_cons]
      exact ⟨by omega, by omega, .inr this.2.2⟩

theorem Memory.wf_block (a : Nat) (bs : List Byte) : Memory.wf (Memory.block a bs) := by
  induction bs generalizing a with
  | nil => exact .nil
  | cons b bs ih =>
    refine List.Pairwise.cons (fun c hc => ?_) (ih (a + 1))
    have := Memory.mem_block hc
    simp only
    omega

/-- Every write keeps the canonical form. -/
theorem Memory.wf_write {m : Memory} (h : Memory.wf m) (a : Nat) (bs : List Byte) : Memory.wf (m.write a bs) := by
  refine List.pairwise_append.2 ⟨List.pairwise_append.2 ⟨h.filter _, Memory.wf_block a bs, ?_⟩, h.filter _, ?_⟩
  · intro x hx y hy
    have hx' := (List.mem_filter.1 hx).2
    have hy' := Memory.mem_block hy
    simp at hx'
    omega
  · intro x hx y hy
    have hy' := (List.mem_filter.1 hy).2
    simp at hy'
    rcases List.mem_append.1 hx with hx | hx
    · have hx' := (List.mem_filter.1 hx).2
      simp at hx'
      omega
    · have hx' := Memory.mem_block hx
      omega

/-- A cell after a write is one that was there outside the block, or one of the block. -/
theorem Memory.mem_write {m : Memory} {a : Nat} {bs : List Byte} {c : Host.Cell} (h : c ∈ m.write a bs) :
    c ∈ m ∨ (a ≤ c.1 ∧ c.1 < a + bs.length ∧ c.2 ∈ bs) := by
  simp only [Memory.write, List.mem_append, List.mem_filter] at h
  rcases h with (h | h) | h
  · exact .inl h.1
  · exact .inr (Memory.mem_block h)
  · exact .inl h.1

/-! ### Bytes and numbers -/

@[simp] theorem bytesOfNat_length (k v : Nat) : (bytesOfNat k v).length = k := by
  induction k generalizing v with
  | zero => rfl
  | succ k ih => simp [bytesOfNat, ih]

/-- Bytes read back as the number they were made of, below `256 ^ k`. -/
theorem natOfBytes_bytesOfNat (k v : Nat) : natOfBytes (bytesOfNat k v) = v % 256 ^ k := by
  induction k generalizing v with
  | zero => simp [bytesOfNat, natOfBytes, Nat.mod_one]
  | succ k ih =>
    have h : v % 256 ^ (k + 1) = v % 256 + 256 * (v / 256 % 256 ^ k) := by
      rw [pow_succ, mul_comm, Nat.mod_mul]
    simp [bytesOfNat, natOfBytes, ih, h, BitVec.toNat_ofNat]

theorem natOfBytes_lt (bs : List Byte) : natOfBytes bs < 256 ^ bs.length := by
  induction bs with
  | nil => simp [natOfBytes]
  | cons b bs ih =>
    have := b.isLt
    simp only [natOfBytes, List.length_cons, pow_succ]
    omega

@[simp] theorem regionBytes_length (b : Buf) (vals : List Nat) :
    (regionBytes b vals).length = b.elemBytes * vals.length := by
  induction vals with
  | nil => simp [regionBytes]
  | cons v vs ih =>
    simp only [regionBytes, List.flatMap_cons, List.length_append, bytesOfNat_length, List.length_cons] at *
    rw [ih, Nat.mul_succ, Nat.add_comm]

/-- Byte `j` of element `e` of a block of elements. -/
theorem regionBytes_getElem? {b : Buf} {vals : List Nat} {e j : Nat} (hj : j < b.elemBytes) :
    (regionBytes b vals)[b.elemBytes * e + j]? = vals[e]?.bind (fun v => (bytesOfNat b.elemBytes v)[j]?) := by
  induction vals generalizing e with
  | nil => simp [regionBytes]
  | cons v vs ih =>
    cases e with
    | zero => simp [regionBytes, List.getElem?_append, hj]
    | succ e =>
      have h1 : ¬ b.elemBytes * (e + 1) + j < b.elemBytes := by
        have : b.elemBytes ≤ b.elemBytes * (e + 1) := Nat.le_mul_of_pos_right _ (Nat.succ_pos e)
        omega
      have h2 : b.elemBytes * (e + 1) + j - b.elemBytes = b.elemBytes * e + j := by
        rw [Nat.mul_succ]; omega
      have := ih (e := e)
      simp only [regionBytes] at this
      simp [regionBytes, List.getElem?_append, h1, h2, this]

/-! ### Bytes of a state -/

/-- What a byte is after a block write: the byte written inside the block, as before outside. -/
theorem byteAt_of_write {s t : State} {a : Nat} {bs : List Byte} (hm : t.mem = s.mem.write a bs)
    (hd : t.resetDraw = s.resetDraw) (k : Nat) :
    t.byteAt k = if h : a ≤ k ∧ k < a + bs.length then bs[k - a]'(by omega) else s.byteAt k := by
  simp only [State.byteAt, hm, hd, Memory.read_write]
  by_cases h : a ≤ k ∧ k < a + bs.length
  · have hlt : k - a < bs.length := by omega
    simp [h, hlt]
  · simp [h]

theorem byteAt_writeRegion_outside {s : State} {b : Buf} {vals : List Nat} {k : Nat}
    (h : k < b.base ∨ b.base + b.elemBytes * vals.length ≤ k) :
    (s.writeRegion b vals).byteAt k = s.byteAt k := by
  rw [byteAt_of_write (s := s) (t := s.writeRegion b vals) (a := b.base) (bs := regionBytes b vals) rfl rfl, dif_neg]
  simp only [regionBytes_length]
  omega

theorem elem_congr {s t : State} {b : Buf} {e : Nat}
    (h : ∀ j, j < b.elemBytes → t.byteAt (b.elemAddr e + j) = s.byteAt (b.elemAddr e + j)) :
    t.elem b e = s.elem b e := by
  unfold State.elem State.bytesAt
  congr 1
  apply List.map_congr_left
  intro j hj
  exact h j (List.mem_range.1 hj)

/-- An element of the region just written reads as the number written (R42, R65). -/
theorem elem_writeRegion_same {s : State} {b : Buf} {vals : List Nat} {e : Nat} (he : e < vals.length) :
    (s.writeRegion b vals).elem b e = vals[e] % 256 ^ b.elemBytes := by
  have hbytes : (s.writeRegion b vals).bytesAt (b.elemAddr e) b.elemBytes = bytesOfNat b.elemBytes vals[e] := by
    apply List.ext_getElem
    · simp [State.bytesAt]
    intro j h1 h2
    have hj : j < b.elemBytes := by simpa using h2
    have hb := byteAt_of_write (s := s) (t := s.writeRegion b vals) (a := b.base) (bs := regionBytes b vals) rfl rfl
      (b.elemAddr e + j)
    have hle : b.elemBytes * (e + 1) ≤ b.elemBytes * vals.length := Nat.mul_le_mul_left _ he
    have hin : b.base ≤ b.elemAddr e + j ∧ b.elemAddr e + j < b.base + (regionBytes b vals).length := by
      rw [regionBytes_length]; unfold Buf.elemAddr; rw [Nat.mul_succ] at hle; omega
    rw [dif_pos hin] at hb
    simp only [State.bytesAt, List.getElem_map, List.getElem_range, hb]
    have hidx : b.elemAddr e + j - b.base = b.elemBytes * e + j := by unfold Buf.elemAddr; omega
    have := regionBytes_getElem? (b := b) (vals := vals) (e := e) hj
    rw [List.getElem?_eq_getElem he] at this
    simp only [Option.bind_some, List.getElem?_eq_getElem h2] at this
    have h3 := List.getElem?_eq_some_iff.1 this
    obtain ⟨h4, h5⟩ := h3
    simp only [hidx, h5]
  rw [State.elem, hbytes, natOfBytes_bytesOfNat]

/-- Elements of a buffer whose window the block write does not touch keep their values. -/
theorem elem_writeRegion_other {s : State} {b b' : Buf} {vals : List Nat} {e : Nat}
    (h : b'.elemAddr e + b'.elemBytes ≤ b.base ∨ b.base + b.elemBytes * vals.length ≤ b'.elemAddr e) :
    (s.writeRegion b vals).elem b' e = s.elem b' e := by
  apply elem_congr
  intro j hj
  apply byteAt_writeRegion_outside
  omega

theorem elem_lt (s : State) (b : Buf) (e : Nat) : s.elem b e < 256 ^ b.elemBytes := by
  have := natOfBytes_lt (s.bytesAt (b.elemAddr e) b.elemBytes)
  simpa [State.elem, State.bytesAt] using this

@[simp] theorem elems_length (s : State) (b : Buf) (n : Nat) : (s.elems b n).length = n := by simp [State.elems]
@[simp] theorem elemInts_length (s : State) (b : Buf) (n : Nat) : (s.elemInts b n).length = n := by
  simp [State.elemInts]
@[simp] theorem elemClasses_length (s : State) (n : Nat) : (s.elemClasses n).length = n := by
  simp [State.elemClasses]

/-- An integer stored as a 32-bit pattern reads back as its `wrap32` (R12, R65). -/
theorem toInt_pattern32 (z : Int) : (BitVec.ofNat 32 (pattern32 z % 256 ^ 4)).toInt = (BitVec.ofInt 32 z).toInt := by
  have h : pattern32 z < 256 ^ 4 := by
    have := (BitVec.ofInt 32 z).isLt
    simpa [pattern32] using this
  rw [Nat.mod_eq_of_lt h, pattern32, BitVec.ofNat_toNat, BitVec.setWidth_eq]

end Sys2Proof.Machine
end

