-- ==== Sys2Proof/Laws/Stages.lean ====
section
/-! SUPPORT. What each stage leaves in the buffers, element by element, and where it writes: the lemmas a proof about a
command cites instead of unfolding the stage. -/

namespace Sys2Proof.Machine

/-! ### Reading through updates that leave the memory alone -/

theorem byteAt_of_mem {s t : State} (hm : t.mem = s.mem) (hd : t.resetDraw = s.resetDraw) (k : Nat) :
    t.byteAt k = s.byteAt k := by
  simp only [State.byteAt, hm, hd]

theorem elem_of_mem {s t : State} (hm : t.mem = s.mem) (hd : t.resetDraw = s.resetDraw) (b : Buf) (e : Nat) :
    t.elem b e = s.elem b e := elem_congr fun _ _ => byteAt_of_mem hm hd _

@[simp] theorem byteAt_advance (s : State) (r : List Stage) (k : Nat) : (s.advance r).byteAt k = s.byteAt k :=
  byteAt_of_mem (by simp) (by simp) k
@[simp] theorem elem_advance (s : State) (r : List Stage) (b : Buf) (e : Nat) :
    (s.advance r).elem b e = s.elem b e := elem_of_mem (by simp) (by simp) b e
@[simp] theorem elemInt_advance (s : State) (r : List Stage) (b : Buf) (e : Nat) :
    (s.advance r).elemInt b e = s.elemInt b e := by simp [State.elemInt]
@[simp] theorem elemClass_advance (s : State) (r : List Stage) (e : Nat) :
    (s.advance r).elemClass e = s.elemClass e := by simp [State.elemClass]
@[simp] theorem elems_advance (s : State) (r : List Stage) (b : Buf) (n : Nat) :
    (s.advance r).elems b n = s.elems b n := by simp [State.elems, funext fun e => elem_advance s r b e]
@[simp] theorem byteAt_orConvOvf (s : State) (o : Bool) (k : Nat) : (s.orConvOvf o).byteAt k = s.byteAt k := rfl
@[simp] theorem elem_orConvOvf (s : State) (o : Bool) (b : Buf) (e : Nat) :
    (s.orConvOvf o).elem b e = s.elem b e := rfl
@[simp] theorem elemInt_orConvOvf (s : State) (o : Bool) (b : Buf) (e : Nat) :
    (s.orConvOvf o).elemInt b e = s.elemInt b e := rfl

/-! ### Lists of elements -/

theorem elems_getD (s : State) (b : Buf) {n e : Nat} (h : e < n) : (s.elems b n).getD e 0 = s.elem b e := by
  simp [State.elems, List.getD_eq_getElem?_getD, h]

theorem elemInts_getD (s : State) (b : Buf) {n e : Nat} (h : e < n) : (s.elemInts b n).getD e 0 = s.elemInt b e := by
  simp [State.elemInts, List.getD_eq_getElem?_getD, h]

theorem elemClasses_getD (s : State) {n e : Nat} (h : e < n) : (s.elemClasses n).getD e 0 = s.elemClass e := by
  simp [State.elemClasses, List.getD_eq_getElem?_getD, h]

theorem elemInt_range (s : State) (b : Buf) (e : Nat) : -2 ^ 31 ≤ s.elemInt b e ∧ s.elemInt b e < 2 ^ 31 := by
  have h1 := BitVec.le_toInt (BitVec.ofNat 32 (s.elem b e))
  have h2 := BitVec.toInt_lt (x := BitVec.ofNat 32 (s.elem b e))
  exact ⟨by simpa [State.elemInt] using h1, by simpa [State.elemInt] using h2⟩

/-! ### Rows and columns (R14) -/

theorem pixel_lt {h w r c : Nat} (hr : r < h) (hc : c < w) : r * w + c < h * w := by
  have := Nat.mul_le_mul_right w (show r + 1 ≤ h from hr)
  rw [Nat.add_mul] at this
  omega

theorem pixel_div {w r c : Nat} (hc : c < w) : (r * w + c) / w = r := by
  rw [Nat.mul_comm, Nat.mul_add_div (by omega), Nat.div_eq_of_lt hc, Nat.add_zero]

theorem pixel_mod {w r c : Nat} (hc : c < w) : (r * w + c) % w = c := by
  rw [Nat.mul_comm, Nat.mul_add_mod, Nat.mod_eq_of_lt hc]

/-! ### Windows (R40, R62) -/

/-- The windows of two buffers do not overlap. -/
theorem Buf.windows_apart {b b' : Buf} (h : b ≠ b') :
    b.base + b.windowSize ≤ b'.base ∨ b'.base + b'.windowSize ≤ b.base := by
  cases b <;> cases b' <;> first | exact absurd rfl h | (simp only [Buf.base, Buf.windowSize]; omega)

/-- The elements below the capacity lie in the window, for a legal implementation (R7, R40). -/
theorem Buf.capacity_fits {p : Params} (h : p.legal) (b : Buf) : b.elemBytes * b.capacity p ≤ b.windowSize := by
  obtain ⟨⟨-, hH⟩, ⟨-, hW⟩, ⟨-, hN, -⟩, -⟩ := h
  have h1 : p.maxH * p.maxW ≤ 1024 * 1024 := Nat.mul_le_mul hH hW
  have h2 : p.maxN * p.maxN ≤ 255 * 255 := Nat.mul_le_mul hN hN
  cases b <;> simp only [Buf.elemBytes, Buf.capacity, Buf.windowSize] <;> omega

theorem Buf.elemBytes_pos (b : Buf) : 0 < b.elemBytes := by cases b <;> decide

/-- The bytes of an element below the capacity lie in the window. -/
theorem Buf.elem_in_window {p : Params} (h : p.legal) {b : Buf} {e : Nat} (he : e < b.capacity p) :
    b.base ≤ b.elemAddr e ∧ b.elemAddr e + b.elemBytes ≤ b.base + b.windowSize := by
  have h1 := Buf.capacity_fits h b
  have h2 : b.elemBytes * (e + 1) ≤ b.elemBytes * b.capacity p := Nat.mul_le_mul_left _ he
  rw [Nat.mul_succ] at h2
  unfold Buf.elemAddr
  omega

/-- A region that fits its buffer leaves the elements of every other buffer alone. -/
theorem elem_writeRegion_ne {s : State} {p : Params} (hp : p.legal) {b b' : Buf} (hb : b ≠ b') {vals : List Nat}
    (hv : vals.length ≤ b.capacity p) {e : Nat} (he : e < b'.capacity p) :
    (s.writeRegion b vals).elem b' e = s.elem b' e := by
  apply elem_writeRegion_other
  have h1 := Buf.elem_in_window hp he
  have h2 := Buf.capacity_fits hp b
  have h3 : b.elemBytes * vals.length ≤ b.elemBytes * b.capacity p := Nat.mul_le_mul_left _ hv
  have h4 := Buf.windows_apart hb
  omega

/-- Elements of the same buffer past the region written keep their values (R42). -/
theorem elem_writeRegion_past {s : State} {b : Buf} {vals : List Nat} {e : Nat} (he : vals.length ≤ e) :
    (s.writeRegion b vals).elem b e = s.elem b e := by
  apply elem_writeRegion_other
  right
  have : b.elemBytes * vals.length ≤ b.elemBytes * e := Nat.mul_le_mul_left _ he
  unfold Buf.elemAddr
  omega

theorem elemInt_writeRegion_same {s : State} {b : Buf} (hb : b.elemBytes = 4) {zs : List Int} {e : Nat}
    (he : e < zs.length) : (s.writeRegion b (zs.map pattern32)).elemInt b e = wrap32 zs[e] := by
  rw [State.elemInt, elem_writeRegion_same (by simpa using he), hb]
  simp only [List.getElem_map]
  rw [toInt_pattern32, wrap32]

/-! ### Convolution (R120, R121) -/

theorem sumTo_eq (n : Nat) (f : Nat → Int) : sumTo n f = ∑ i ∈ Finset.range n, f i := by
  induction n with
  | zero => rfl
  | succ n ih => rw [sumTo, ih, Finset.sum_range_succ]

@[simp] theorem convSums_length (s : State) (k : Buf) : (s.convSums k).length = s.latched.H * s.latched.W := by
  simp [State.convSums, convolve]

/-- The padded image as elements of IMG (R120). -/
theorem pad_elems (s : State) (h w : Nat) (y x : Int) :
    pad (s.elems .img (h * w)) h w y x =
      if 0 ≤ y ∧ y < h ∧ 0 ≤ x ∧ x < w then (s.elem .img (y * w + x).toNat : Int) else 0 := by
  unfold pad
  by_cases hh : 0 ≤ y ∧ y < h ∧ 0 ≤ x ∧ x < w
  · rw [if_pos hh, if_pos hh]
    obtain ⟨h1, h2, h3, h4⟩ := hh
    obtain ⟨y, rfl⟩ := Int.eq_ofNat_of_zero_le h1
    obtain ⟨x, rfl⟩ := Int.eq_ofNat_of_zero_le h3
    have := pixel_lt (show y < h by omega) (show x < w by omega)
    have e : ((y : Int) * w + x).toNat = y * w + x := by norm_cast
    rw [e, Int.toNat_natCast, Int.toNat_natCast, elems_getD s .img this]
  · rw [if_neg hh, if_neg hh]

/-- The exact sum at a pixel, as R121 writes it. -/
theorem convSums_getElem (s : State) (k : Buf) (e : Nat) (he : e < (s.convSums k).length) :
    (s.convSums k)[e] =
      ∑ di ∈ Finset.range s.latched.N, ∑ dj ∈ Finset.range s.latched.N,
        pad (s.elems .img s.latched.region) s.latched.H s.latched.W
            (((e / s.latched.W : Nat) : Int) + di - (s.latched.N / 2 : Nat))
            (((e % s.latched.W : Nat) : Int) + dj - (s.latched.N / 2 : Nat)) *
          s.elemInt k (di * s.latched.N + dj) := by
  simp only [State.convSums, convolve, List.getElem_map, List.getElem_range, convAcc, sumTo_eq]
  refine Finset.sum_congr rfl fun di hdi => Finset.sum_congr rfl fun dj hdj => ?_
  rw [Finset.mem_range] at hdi hdj
  rw [elemInts_getD s k (pixel_lt hdi hdj)]

/-- CONV_OVF after a convolution stage (R121). -/
theorem convStage_convOvf (k out : Buf) (s : State) :
    (convStage k out s).status.convOvf = (s.status.convOvf || (s.convSums k).any outside32) := rfl

theorem elemInt_convStage_same {s : State} {k out : Buf} (hb : out.elemBytes = 4) {e : Nat}
    (he : e < (s.convSums k).length) : (convStage k out s).elemInt out e = wrap32 (s.convSums k)[e] := by
  rw [convStage, elemInt_orConvOvf, elemInt_writeRegion_same hb he]

/-! ### Descaling (R12, R124) -/

/-- The magnitude `rhaz` gives, before the sign (R12). -/
theorem rhaz_eq (c : Int) (q : Nat) :
    ∃ m : Nat, rhaz c q = (if c < 0 then -(m : Int) else m) ∧
      m = c.natAbs / q + (if 2 * (c.natAbs % q) ≥ q then 1 else 0) := ⟨_, rfl, rfl⟩

theorem rhaz_natAbs_le (c : Int) (q : Nat) : (rhaz c q).natAbs ≤ max c.natAbs 1 := by
  obtain ⟨m, h, hm⟩ := rhaz_eq c q
  have h1 := Nat.mod_add_div c.natAbs q
  have h2 : m ≤ max c.natAbs 1 := by
    rcases Nat.lt_or_ge q 2 with hq | hq
    · have h3 : q = 0 ∨ q = 1 := by omega
      rcases h3 with rfl | rfl
      · simp only [Nat.div_zero] at hm; split at hm <;> omega
      · simp only [Nat.div_one, Nat.mod_one] at hm; split at hm <;> omega
    · have h3 : 2 * (c.natAbs / q) ≤ q * (c.natAbs / q) := Nat.mul_le_mul_right _ hq
      split at hm <;> omega
  rw [h]
  split <;> omega

theorem rhaz_neg_or_nonneg (c : Int) (q : Nat) : (c < 0 ∧ rhaz c q ≤ 0) ∨ (0 ≤ c ∧ 0 ≤ rhaz c q) := by
  obtain ⟨m, h, -⟩ := rhaz_eq c q
  rw [h]
  split <;> omega

/-- The result of a descale fits 32 bits (R124). -/
theorem wrap32_rhaz {c : Int} (h1 : -2 ^ 31 ≤ c) (h2 : c < 2 ^ 31) (q : Nat) : wrap32 (rhaz c q) = rhaz c q := by
  have h3 := rhaz_natAbs_le c q
  have h4 := rhaz_neg_or_nonneg c q
  rw [wrap32, BitVec.toInt_ofInt, Int.bmod_def]
  split <;> omega

theorem elemInt_descaleStage_same {s : State} {src out : Buf} (hb : out.elemBytes = 4) {e : Nat}
    (he : e < s.latched.region) : (descaleStage src out s).elemInt out e = rhaz (s.elemInt src e) s.latched.SF := by
  have hmap : (s.elemInts src s.latched.region).map (fun c => pattern32 (rhaz c s.latched.SF)) =
      ((s.elemInts src s.latched.region).map (fun c => rhaz c s.latched.SF)).map pattern32 := by
    rw [List.map_map]; rfl
  rw [descaleStage, hmap, elemInt_writeRegion_same hb (by simpa using he)]
  simp only [List.getElem_map, State.elemInts, List.getElem_range]
  exact wrap32_rhaz (elemInt_range _ _ _).1 (elemInt_range _ _ _).2 _

/-! ### Whole regions -/

theorem elems_writeRegion_same {s : State} {b : Buf} {vals : List Nat} (h : ∀ v ∈ vals, v < 256 ^ b.elemBytes) :
    (s.writeRegion b vals).elems b vals.length = vals := by
  apply List.ext_getElem
  · simp
  intro e h1 h2
  simp only [State.elems, List.getElem_map, List.getElem_range]
  rw [elem_writeRegion_same h2, Nat.mod_eq_of_lt (h _ (List.getElem_mem h2))]

theorem elems_congr {s t : State} {b : Buf} {n : Nat} (h : ∀ e, e < n → t.elem b e = s.elem b e) :
    t.elems b n = s.elems b n := List.map_congr_left fun e he => h e (List.mem_range.1 he)

theorem elemInt_congr {s t : State} {b : Buf} {e : Nat} (h : t.elem b e = s.elem b e) :
    t.elemInt b e = s.elemInt b e := by rw [State.elemInt, State.elemInt, h]

theorem elemInts_congr {s t : State} {b : Buf} {n : Nat} (h : ∀ e, e < n → t.elem b e = s.elem b e) :
    t.elemInts b n = s.elemInts b n := List.map_congr_left fun e he => elemInt_congr (h e (List.mem_range.1 he))

theorem elemClasses_congr {s t : State} {n : Nat} (h : ∀ e, e < n → t.elem .q e = s.elem .q e) :
    t.elemClasses n = s.elemClasses n :=
  List.map_congr_left fun e he => by rw [State.elemClass, State.elemClass, h e (List.mem_range.1 he)]

/-! ### Normalisation (R143, R144) -/

@[simp] theorem norm8_length (vs : List Nat) : (norm8 vs).length = vs.length := by simp [norm8]

theorem largestUpTo_le (t : Nat → Bool) (n : Nat) : largestUpTo t n ≤ n := by
  induction n with
  | zero => exact Nat.le_refl 0
  | succ n ih => rw [largestUpTo]; split <;> omega

/-- The value found passes the test, and no larger one up to the bound does. -/
theorem largestUpTo_spec {t : Nat → Bool} (h0 : t 0 = true) (n : Nat) :
    t (largestUpTo t n) = true ∧ ∀ k, largestUpTo t n < k → k ≤ n → t k = false := by
  induction n with
  | zero => exact ⟨h0, fun k h1 h2 => by simp only [largestUpTo] at h1; omega⟩
  | succ n ih =>
    rw [largestUpTo]
    split
    · exact ⟨‹_›, fun k h1 h2 => by omega⟩
    · refine ⟨ih.1, fun k h1 h2 => ?_⟩
      rcases Nat.lt_or_ge k (n + 1) with h | h
      · exact ih.2 k h1 (by omega)
      · have : k = n + 1 := by omega
        simpa [this] using ‹¬ t (n + 1) = true›

theorem norm8Value_le (lo hi v : Nat) : norm8Value lo hi v ≤ 255 := by
  rw [norm8Value]
  split
  · omega
  · exact largestUpTo_le _ _

theorem norm8_le {vs : List Nat} {v : Nat} (h : v ∈ norm8 vs) : v ≤ 255 := by
  simp only [norm8, List.mem_map] at h
  obtain ⟨x, -, rfl⟩ := h
  exact norm8Value_le _ _ _

/-! ### Magnitude and direction (R141, R142, R147, R150) -/

theorem magSquared_eq (a b : Int) : (magSquared a b : Int) = a ^ 2 + b ^ 2 := by
  have := mul_self_nonneg a
  have := mul_self_nonneg b
  rw [magSquared, Int.toNat_of_nonneg (by omega), pow_two, pow_two]

/-- A squared magnitude of 32-bit components fits the u64 element (R142). -/
theorem magSquared_lt {a b : Int} (ha : -2 ^ 31 ≤ a ∧ a < 2 ^ 31) (hb : -2 ^ 31 ≤ b ∧ b < 2 ^ 31) :
    magSquared a b < 256 ^ 8 := by
  have h := magSquared_eq a b
  have h1 : a ^ 2 ≤ (2 ^ 31) ^ 2 := sq_le_sq' ha.1 ha.2.le
  have h2 : b ^ 2 ≤ (2 ^ 31) ^ 2 := sq_le_sq' hb.1 hb.2.le
  omega

theorem turns_fst_le (z : Vec) (k : Nat) : (turns z k).1 + 1 ≤ 2 ^ (k + 1) - 1 := by
  induction k with
  | zero => simp [turns]
  | succ k ih =>
    simp only [turns, turnStep]
    have h1 := Bool.toNat_le (turns z k).2.lowerHalf
    have h2 := Bool.toNat_le ((((turns z k).2.mul (turns z k).2).mul z).angleLt z)
    have h3 : 2 ^ (k + 1 + 1) = 2 * 2 ^ (k + 1) := by rw [pow_succ, mul_comm]
    have h4 : 0 < 2 ^ (k + 1) := Nat.two_pow_pos _
    omega

theorem phi8_le (fx fy : Int) : phi8 fx fy ≤ 255 := by
  rw [phi8]
  split
  · omega
  · have h1 := turns_fst_le { x := fx, y := fy } 7
    have h2 := Bool.toNat_le (turns { x := fx, y := fy } 7).2.lowerHalf
    norm_num at h1
    simp only
    omega

theorem qclass_le (fx fy : Int) : qclass fx fy ≤ 3 := by
  simp only [qclass]
  split
  · omega
  · split
    · omega
    · split
      · omega
      · split <;> omega

theorem magSquares_eq (s : State) : s.magSquares = (List.range s.latched.region).map (fun e =>
    magSquared (s.elemInt .fx e) (s.elemInt .fy e)) := by
  rw [State.magSquares, State.elemInts, State.elemInts, List.zipWith_map, List.zipWith_self]

@[simp] theorem magSquares_length (s : State) : s.magSquares.length = s.latched.region := by simp [magSquares_eq]

theorem magSquares_lt {s : State} {v : Nat} (h : v ∈ s.magSquares) : v < 256 ^ 8 := by
  rw [magSquares_eq] at h
  obtain ⟨e, -, rfl⟩ := List.mem_map.1 h
  exact magSquared_lt (elemInt_range _ _ _) (elemInt_range _ _ _)

/-- The direction stage's lists, element by element (R151). -/
theorem zipDirection_eq (f : Int → Int → Nat) (s : State) (n : Nat) :
    List.zipWith f (s.elemInts .fx n) (s.elemInts .fy n) =
      (List.range n).map (fun e => f (s.elemInt .fx e) (s.elemInt .fy e)) := by
  rw [State.elemInts, State.elemInts, List.zipWith_map, List.zipWith_self]

@[simp] theorem suppress_length (m q : List Nat) (h w : Nat) : (suppress m q h w).length = h * w := by
  simp [suppress]

theorem interior_iff (h w r c : Nat) :
    Machine.interior h w r c = true ↔ 1 ≤ r ∧ r + 2 ≤ h ∧ 1 ≤ c ∧ c + 2 ≤ w := by
  simp only [Machine.interior, Bool.and_eq_true, decide_eq_true_eq, and_assoc]

/-- The value at a displaced pixel, with rows and columns as naturals (R170). -/
theorem atOffset_eq (m : List Nat) (w : Nat) {r c r' c' : Nat} {d : Int × Int} (hr : (r : Int) + d.1 = r')
    (hc : (c : Int) + d.2 = c') : atOffset m w r c d = m.getD (r' * w + c') 0 := by
  rw [atOffset, hr, hc]
  congr 1

theorem nmsValue_cases (m q : List Nat) (h w r c : Nat) :
    nmsValue m q h w r c = m.getD (r * w + c) 0 ∨ nmsValue m q h w r c = 0 := by
  rw [nmsValue]
  split
  · simp only
    split
    · exact .inl rfl
    · exact .inr rfl
  · exact .inr rfl

@[simp] theorem relaxPass_length (n : List Nat) (h w tl : Nat) (m : List Bool) :
    (relaxPass n h w tl m).length = h * w := by simp [relaxPass]

theorem relax_length (n : List Nat) (h w tl fuel : Nat) (m : List Bool) (hm : m.length = h * w) :
    (relax n h w tl fuel m).length = h * w := by
  induction fuel generalizing m with
  | zero => exact hm
  | succ fuel ih =>
    simp only [relax]
    split
    · exact hm
    · exact ih _ (by simp)

@[simp] theorem traceMarks_length (n : List Nat) (h w th tl : Nat) : (traceMarks n h w th tl).length = h * w :=
  relax_length _ _ _ _ _ _ (by simp)

@[simp] theorem traceEdges_length (v : List Nat) (h w : Nat) (Th Tl : Int) :
    (traceEdges v h w Th Tl).length = h * w := by simp [traceEdges]

/-! ### What the stages with two outputs leave (R141, R151, R171), and HYST (R181) -/

/-- Two regions written one after the other, of different buffers: both hold what was written. -/
theorem elem_writeRegion_two {s : State} {p : Params} (hp : p.legal) {b b' : Buf} (hb : b ≠ b') {v v' : List Nat}
    (hv' : v'.length ≤ b'.capacity p) (hv : v.length ≤ b.capacity p) (hs : ∀ x ∈ v, x < 256 ^ b.elemBytes)
    (hs' : ∀ x ∈ v', x < 256 ^ b'.elemBytes) :
    (∀ e (h : e < v.length), ((s.writeRegion b v).writeRegion b' v').elem b e = v[e]) ∧
      (∀ e (h : e < v'.length), ((s.writeRegion b v).writeRegion b' v').elem b' e = v'[e]) := by
  constructor
  · intro e h
    rw [elem_writeRegion_ne hp hb.symm hv' (lt_of_lt_of_le h hv), elem_writeRegion_same h,
      Nat.mod_eq_of_lt (hs _ (List.getElem_mem h))]
  · intro e h
    rw [elem_writeRegion_same h, Nat.mod_eq_of_lt (hs' _ (List.getElem_mem h))]

theorem norm8_lt {vs : List Nat} {x : Nat} (h : x ∈ norm8 vs) : x < 256 ^ 1 := by
  have := norm8_le h
  omega

/-- What MAG leaves (R141). -/
theorem elem_magStage {s : State} {p : Params} (hp : p.legal) (hr : s.latched.region ≤ p.maxH * p.maxW) {e : Nat}
    (he : e < s.latched.region) :
    (magStage s).elem .mag2 e = magSquared (s.elemInt .fx e) (s.elemInt .fy e) ∧
      (magStage s).elem .mag8 e = (norm8 s.magSquares)[e]'(by simpa using he) := by
  have h := elem_writeRegion_two (s := s) hp (b := .mag2) (b' := .mag8) (by decide) (v := s.magSquares)
    (v' := norm8 s.magSquares) (by simpa [Buf.capacity] using hr) (by simpa [Buf.capacity] using hr) (fun x hx => magSquares_lt hx)
    (fun x hx => norm8_lt hx)
  refine ⟨?_, h.2 e (by simpa using he)⟩
  rw [magStage, h.1 e (by simpa using he)]
  simp only [magSquares_eq, List.getElem_map, List.getElem_range]

/-- What DIR leaves (R151). -/
theorem elem_dirStage {s : State} {p : Params} (hp : p.legal) (hr : s.latched.region ≤ p.maxH * p.maxW) {e : Nat}
    (he : e < s.latched.region) :
    (dirStage s).elem .phi8 e = phi8 (s.elemInt .fx e) (s.elemInt .fy e) ∧
      (dirStage s).elem .q e = qclass (s.elemInt .fx e) (s.elemInt .fy e) := by
  have h := elem_writeRegion_two (s := s) hp (b := .phi8) (b' := .q) (by decide)
    (v := List.zipWith phi8 (s.elemInts .fx s.latched.region) (s.elemInts .fy s.latched.region))
    (v' := List.zipWith qclass (s.elemInts .fx s.latched.region) (s.elemInts .fy s.latched.region))
    (by simpa [Buf.capacity] using hr) (by simpa [Buf.capacity] using hr)
    (fun x hx => by
      rw [zipDirection_eq] at hx
      obtain ⟨e, -, rfl⟩ := List.mem_map.1 hx
      exact lt_of_le_of_lt (phi8_le _ _) (by decide))
    (fun x hx => by
      rw [zipDirection_eq] at hx
      obtain ⟨e, -, rfl⟩ := List.mem_map.1 hx
      exact lt_of_le_of_lt (qclass_le _ _) (by decide))
  rw [dirStage, h.1 e (by simpa using he), h.2 e (by simpa using he)]
  simp only [zipDirection_eq, List.getElem_map, List.getElem_range, and_self]

/-- The suppressed field the NMS stage finds in a state (R171). -/
def State.suppressed (s : State) : List Nat :=
  suppress (s.elems .mag2 s.latched.region) (s.elemClasses s.latched.region) s.latched.H s.latched.W

@[simp] theorem suppressed_length (s : State) : s.suppressed.length = s.latched.H * s.latched.W := by
  simp [State.suppressed]

theorem suppressed_lt {s : State} {x : Nat} (h : x ∈ s.suppressed) : x < 256 ^ 8 := by
  simp only [State.suppressed, suppress, List.mem_map, List.mem_range] at h
  obtain ⟨e, he, rfl⟩ := h
  rcases nmsValue_cases (s.elems .mag2 s.latched.region) (s.elemClasses s.latched.region) s.latched.H s.latched.W
    (e / s.latched.W) (e % s.latched.W) with h | h
  · rw [h, Nat.div_add_mod', elems_getD s .mag2 he]
    exact elem_lt s .mag2 e
  · rw [h]; decide

/-- What NMS leaves (R171). -/
theorem elem_nmsStage {s : State} {p : Params} (hp : p.legal) (hr : s.latched.region ≤ p.maxH * p.maxW) {e : Nat}
    (he : e < s.latched.region) :
    (nmsStage s).elem .sup2 e = nmsValue (s.elems .mag2 s.latched.region) (s.elemClasses s.latched.region)
        s.latched.H s.latched.W (e / s.latched.W) (e % s.latched.W) ∧
      (nmsStage s).elem .sup8 e = (norm8 s.suppressed)[e]'(by simpa using he) := by
  have h := elem_writeRegion_two (s := s) hp (b := .sup2) (b' := .sup8) (by decide) (v := s.suppressed)
    (v' := norm8 s.suppressed) (by simpa [Buf.capacity] using hr) (by simpa [Buf.capacity] using hr) (fun x hx => suppressed_lt hx)
    (fun x hx => norm8_lt hx)
  refine ⟨(h.1 e (by simpa using he)).trans ?_, h.2 e (by simpa using he)⟩
  simp only [State.suppressed, suppress, List.getElem_map, List.getElem_range]

/-- What HYST leaves (R181): 255 on the marks, 0 elsewhere. -/
theorem elem_hystStage {s : State} {e : Nat} (he : e < s.latched.region) :
    (hystStage s).elem .edge e =
      if (traceMarks (norm8 (s.elems .sup2 s.latched.region)) s.latched.H s.latched.W
          (conditionThresholds s.latched.Th s.latched.Tl).1 (conditionThresholds s.latched.Th s.latched.Tl).2).getD e
          false then 255 else 0 := by
  have hl : e < (traceEdges (s.elems .sup2 s.latched.region) s.latched.H s.latched.W s.latched.Th
      s.latched.Tl).length := by simpa using he
  have hm : e < (traceMarks (norm8 (s.elems .sup2 s.latched.region)) s.latched.H s.latched.W
      (conditionThresholds s.latched.Th s.latched.Tl).1 (conditionThresholds s.latched.Th s.latched.Tl).2).length := by
    simpa using he
  rw [hystStage, elem_writeRegion_same hl]
  simp only [traceEdges, List.getElem_map, List.getD_eq_getElem?_getD, List.getElem?_eq_getElem hm, Option.getD_some]
  split <;> rfl

/-! ### Where a stage writes (R42) -/

/-- A stage leaves every byte outside the regions of its outputs alone. -/
theorem byteAt_performStage_outside (st : Stage) (s : State) (k : Nat)
    (h : ∀ b ∈ st.outputs, k < b.base ∨ b.base + b.elemBytes * s.latched.region ≤ k) :
    (performStage st s).byteAt k = s.byteAt k := by
  have hr : s.latched.region = s.latched.H * s.latched.W := rfl
  cases st <;> simp only [Stage.outputs, List.mem_cons, List.not_mem_nil, or_false, forall_eq_or_imp, forall_eq,
    false_imp_iff, implies_true] at h <;> simp only [performStage]
  · rw [convStage, byteAt_orConvOvf, byteAt_writeRegion_outside (by simpa [hr] using h)]
  · rw [convStage, byteAt_orConvOvf, byteAt_writeRegion_outside (by simpa [hr] using h)]
  · rw [descaleStage, byteAt_writeRegion_outside (by simpa using h)]
  · rw [descaleStage, byteAt_writeRegion_outside (by simpa using h)]
  · rw [descaleBoth, descaleStage, byteAt_writeRegion_outside (by simpa [descaleStage] using h.2), descaleStage,
      byteAt_writeRegion_outside (by simpa using h.1)]
  · rw [magStage, byteAt_writeRegion_outside (by simpa using h.2), byteAt_writeRegion_outside (by simpa using h.1)]
  · rw [dirStage, byteAt_writeRegion_outside (by simpa using h.2), byteAt_writeRegion_outside (by simpa using h.1)]
  · rw [nmsStage, byteAt_writeRegion_outside (by simpa [hr] using h.2),
      byteAt_writeRegion_outside (by simpa [hr] using h.1)]
  · rw [hystStage, byteAt_writeRegion_outside (by simpa [hr] using h)]

/-- A stage whose region fits leaves every element of every other buffer alone, and its outputs' elements past the
region. -/
theorem elem_performStage_other (st : Stage) {s : State} {p : Params} (hp : p.legal)
    (hr : s.latched.region ≤ p.maxH * p.maxW) {b : Buf} {e : Nat} (he : e < b.capacity p)
    (h : b ∉ st.outputs ∨ s.latched.region ≤ e) : (performStage st s).elem b e = s.elem b e := by
  apply elem_congr
  intro j hj
  apply byteAt_performStage_outside
  intro o ho
  have h1 := Buf.elem_in_window hp he
  have h2 := Buf.capacity_fits hp o
  have h3 : o.capacity p = p.maxH * p.maxW := by
    cases st <;> simp [Stage.outputs] at ho <;> rcases ho with rfl | rfl <;> rfl
  rw [h3] at h2
  have h4 : o.elemBytes * s.latched.region ≤ o.elemBytes * (p.maxH * p.maxW) := Nat.mul_le_mul_left _ hr
  by_cases hbo : b = o
  · subst hbo
    have h5 : s.latched.region ≤ e := h.resolve_left fun hn => hn ho
    have h6 : b.elemBytes * s.latched.region ≤ b.elemBytes * e := Nat.mul_le_mul_left _ h5
    unfold Buf.elemAddr
    omega
  · have h5 := Buf.windows_apart hbo
    omega

theorem writeRegion_live_comm (s : State) (p : ParamRegs) (b : Buf) (v : List Nat) :
    State.writeRegion { s with live := p } b v = { s.writeRegion b v with live := p } := rfl
theorem elemInts_with_live (s : State) (p : ParamRegs) (b : Buf) (n : Nat) :
    State.elemInts { s with live := p } b n = s.elemInts b n := rfl
theorem elems_with_live (s : State) (p : ParamRegs) (b : Buf) (n : Nat) :
    State.elems { s with live := p } b n = s.elems b n := rfl
theorem elemClasses_with_live (s : State) (p : ParamRegs) (n : Nat) :
    State.elemClasses { s with live := p } n = s.elemClasses n := rfl

/-- No stage looks at the live parameter registers (R34). -/
theorem performStage_live_irrelevant (st : Stage) (s : State) (p : ParamRegs) :
    performStage st { s with live := p } = { performStage st s with live := p } := by
  cases st <;> simp only [performStage, convStage, State.convSums, descaleStage, descaleBoth, magStage,
    State.magSquares, dirStage, nmsStage, hystStage, writeRegion_live_comm, elemInts_with_live, elems_with_live,
    elemClasses_with_live, writeRegion_latched] <;> rfl

end Sys2Proof.Machine
end

