-- ==== Sys2Proof/Laws/Bus.lean ====
section
/-! SUPPORT. Where a transaction lands and what the words of the buffers hold, said once (20_memory R62 to R68). -/

namespace Sys2Proof.Machine

/-- A register is served at its offset in every state (R22, R68). -/
@[simp] theorem access_reg (s : State) (r : Reg) : s.access r.offset = some (.reg r) := by cases r <;> rfl

theorem Reg.at?_eq_some {a : Nat} {r : Reg} (h : Reg.at? a = some r) : r.offset = a := by
  have := List.find?_some h
  simpa using this

theorem Buf.at?_eq_some {a : Nat} {b : Buf} (h : Buf.at? a = some b) : b.base ≤ a ∧ a < b.base + b.windowSize := by
  have := List.find?_some h
  simpa using this

theorem Buf.mem_all (b : Buf) : b ∈ Buf.all := by cases b <;> decide

/-- The buffer found is the one whose window holds the offset. -/
theorem Buf.at?_of_mem {a : Nat} {b : Buf} (h : b.base ≤ a ∧ a < b.base + b.windowSize) : Buf.at? a = some b := by
  have hs : (Buf.at? a).isSome = true := by
    rw [Buf.at?, List.find?_isSome]
    exact ⟨b, Buf.mem_all b, by simpa using h⟩
  obtain ⟨b', hb'⟩ := Option.isSome_iff_exists.1 hs
  have h' := Buf.at?_eq_some hb'
  by_cases hne : b' = b
  · rw [hb', hne]
  · have := Buf.windows_apart hne
    omega

theorem Buf.base_ge (b : Buf) : 0x00100000 ≤ b.base := by cases b <;> decide

/-- A word of a buffer of an idle CEC is served when its first element is below the capacity (R66 to R68). -/
theorem access_buf {s : State} {b : Buf} {a : Nat} (hb : s.status.busy = false) (ha : a % 4 = 0)
    (hw : b.base ≤ a ∧ a < b.base + b.windowSize) (he : (a - b.base) / b.elemBytes < b.capacity s.params) :
    s.access a = some (.buf b) := by
  have h1 := Buf.base_ge b
  have h2 : ¬ a < 0x00100000 := by omega
  simp only [State.access, ha, ne_eq, not_true_eq_false, if_false, h2, Buf.at?_of_mem hw, hb, Buf.elemAt, he, if_true,
    Bool.false_eq_true]

/-- While busy no buffer word is served (R68). -/
theorem access_buf_busy {s : State} {b : Buf} {a : Nat} (hb : s.status.busy = true)
    (hw : b.base ≤ a ∧ a < b.base + b.windowSize) : s.access a = none := by
  have h1 := Buf.base_ge b
  have h2 : ¬ a < 0x00100000 := by omega
  simp only [State.access, h2, if_false, Buf.at?_of_mem hw, hb, if_true, ite_self]

theorem bytesOfWord_eq (v : Word) : bytesOfWord v = bytesOfNat 4 v.toNat := by
  simp only [bytesOfWord, bytesOfNat, Nat.div_div_eq_div_mul]

@[simp] theorem bytesOfWord_length (v : Word) : (bytesOfWord v).length = 4 := rfl

theorem natOfBytes_append (l m : List Byte) : natOfBytes (l ++ m) = natOfBytes l + 256 ^ l.length * natOfBytes m := by
  induction l with
  | nil => simp [natOfBytes]
  | cons b l ih =>
    simp only [List.cons_append, natOfBytes, ih, List.length_cons, pow_succ]
    ring

theorem bytesAt_add (s : State) (a m n : Nat) : s.bytesAt a (m + n) = s.bytesAt a m ++ s.bytesAt (a + m) n := by
  simp [State.bytesAt, List.range_add, List.map_append, Function.comp_def, Nat.add_assoc]

/-- One byte of a number made of bytes. -/
theorem natOfBytes_digit (l : List Byte) (k : Nat) :
    natOfBytes l / 256 ^ k % 256 = (l.map BitVec.toNat).getD k 0 := by
  induction l generalizing k with
  | nil => simp [natOfBytes]
  | cons b l ih =>
    have := b.isLt
    cases k with
    | zero => simp [natOfBytes]; omega
    | succ k =>
      rw [natOfBytes, pow_succ, mul_comm (256 ^ k), ← Nat.div_div_eq_div_mul,
        show (b.toNat + 256 * natOfBytes l) / 256 = natOfBytes l by omega, ih]
      simp

/-- The bytes after a word is written to a buffer: the backed lanes, as the buffer stores them (R41, R64, R67). -/
theorem byteAt_bufWrite (s : State) (b : Buf) (a : Nat) (v : Word) (k : Nat) :
    (s.bufWrite b a v).byteAt k =
      if h : a ≤ k ∧ k < a + lanesBacked s.params b a then
        storedByte a ((bytesOfWord v)[k - a]'(by
          have : lanesBacked s.params b a ≤ 4 := Nat.min_le_left _ _
          simp; omega))
      else s.byteAt k := by
  have hl : lanesBacked s.params b a ≤ 4 := Nat.min_le_left _ _
  have := byteAt_of_write (s := s) (t := s.bufWrite b a v) (a := a)
    (bs := ((bytesOfWord v).take (lanesBacked s.params b a)).map (storedByte a)) rfl rfl k
  rw [this]
  by_cases h : a ≤ k ∧ k < a + lanesBacked s.params b a
  · rw [dif_pos (by simp only [List.length_map, List.length_take, bytesOfWord_length]; omega), dif_pos h]
    simp
  · rw [dif_neg (by simp only [List.length_map, List.length_take, bytesOfWord_length]; omega), dif_neg h]

end Sys2Proof.Machine
end

