-- ==== Sys2Proof/Laws/Step.lean ====
section
/-! SUPPORT. What one step can do, said once: whose turn it is, and for a host line what it leaves (20_memory R61, R72,
30_encoding R98).  An invariant's proof is a case analysis over `step_cases` and `busWrite_cases`. -/

namespace Sys2Proof.Machine

/-- The state in which the agent whose turn it is moves: the turn is spent. -/
def State.turnSpent (s : State) : State := { s with turns := s.turns.tail }

@[simp] theorem turnSpent_params (s : State) : s.turnSpent.params = s.params := rfl
@[simp] theorem turnSpent_ie (s : State) : s.turnSpent.ie = s.ie := rfl
@[simp] theorem turnSpent_status (s : State) : s.turnSpent.status = s.status := rfl
@[simp] theorem turnSpent_cmd (s : State) : s.turnSpent.cmd = s.cmd := rfl
@[simp] theorem turnSpent_live (s : State) : s.turnSpent.live = s.live := rfl
@[simp] theorem turnSpent_latched (s : State) : s.turnSpent.latched = s.latched := rfl
@[simp] theorem turnSpent_stages (s : State) : s.turnSpent.stages = s.stages := rfl
@[simp] theorem turnSpent_mem (s : State) : s.turnSpent.mem = s.mem := rfl
@[simp] theorem turnSpent_host (s : State) : s.turnSpent.host = s.host := rfl

/-- A step is the turn of the agent that `mover` names. -/
theorem step_eq (s : State) : step s = runTurn s.mover s.turnSpent := by
  unfold step takeTurn State.mover State.turnSpent
  cases h : s.turns with
  | cons t ts => rfl
  | nil =>
    have hs : { s with turns := [] } = s := by rw [← h]
    cases hb : s.status.busy <;> simp only [List.tail_nil, hs, runTurn, if_true, Bool.false_eq_true, if_false]

@[simp] theorem Params.offset?_address (p : Params) (a : Addr) : p.offset? (p.address a) = some a.toNat := by
  unfold Params.offset? Params.address
  rw [if_pos ⟨Nat.le_add_right _ _, Nat.add_lt_add_left a.isLt _⟩, Nat.add_sub_cancel_left]

/-- A write line is the write at its offset, the host having gone on and noted the response (R60, R98). -/
theorem hostLine_wr (a : Addr) (v : Word) (s : State) :
    hostLine (.wr a v) s = busWrite a.toNat v (s.hostNext.noteWrite (some (s.writeStatus a.toNat))) := by
  have h : (s.hostNext.noteWrite (some (s.writeStatus a.toNat))).params = s.params := rfl
  simp only [hostLine, memWrite, State.memWriteStatus, Params.offset?_address, Option.map_some, h]

/-- A read line changes the host alone: it goes on and notes the response and the word (R69, R98). -/
theorem hostLine_rd (a : Addr) (s : State) :
    hostLine (.rd a) s = .next (s.hostNext.noteRead (some (s.busRead a.toNat))) := by
  simp only [hostLine, State.memRead, Params.offset?_address, Option.map_some]

/-- What a host line does: nothing at the end of the program, else a write, a read, a label or a branch. -/
theorem hostTurn_cases {s t : State} (h : hostTurn s = .next t) :
    (s.host.prog[s.host.pc]? = none ∧ t = s) ∨
    (∃ a v, s.host.prog[s.host.pc]? = some (.wr a v) ∧
      busWrite a.toNat v (s.hostNext.noteWrite (some (s.writeStatus a.toNat))) = .next t) ∨
    ((∀ a v, s.host.prog[s.host.pc]? ≠ some (.wr a v)) ∧ t = { s with host := t.host }) := by
  unfold hostTurn at h
  cases hl : s.host.prog[s.host.pc]? with
  | none =>
    simp only [hl] at h
    injection h with h
    exact .inl ⟨rfl, h.symm⟩
  | some l =>
    simp only [hl] at h
    right
    cases l with
    | wr a v => exact .inl ⟨a, v, rfl, by rw [← hostLine_wr]; exact h⟩
    | rd a =>
      simp only [hostLine_rd] at h
      injection h with h
      exact .inr ⟨by simp, by rw [← h]; rfl⟩
    | label n =>
      simp only [hostLine] at h
      injection h with h
      exact .inr ⟨by simp, by rw [← h]; rfl⟩
    | bnz bits n =>
      refine .inr ⟨by simp, ?_⟩
      simp only [hostLine] at h
      split at h
      · injection h with h
        rw [← h]; rfl
      · split at h
        · injection h with h
          rw [← h]
        · cases h

/-- All a step can do. -/
theorem step_cases {s t : State} (h : step s = .next t) :
    (s.mover = .rst ∧ t = hardReset s.turnSpent) ∨
    (s.mover = .engine ∧ t = if s.status.busy then engineStep s.turnSpent else s.turnSpent) ∨
    (s.mover = .host ∧ hostTurn s.turnSpent = .next t) := by
  rw [step_eq] at h
  cases hm : s.mover with
  | host => exact .inr (.inr ⟨rfl, by rw [hm] at h; exact h⟩)
  | engine =>
    rw [hm, runTurn, engineTurn_eq] at h
    injection h with h
    exact .inr (.inl ⟨rfl, h.symm⟩)
  | rst =>
    rw [hm] at h
    simp only [runTurn] at h
    injection h with h
    exact .inl ⟨rfl, h.symm⟩

/-- A write to CMD always answers a next state: an overrun, a refusal or a start (R205, R208). -/
theorem cmdWrite_cases (w : Word) (s : State) :
    (s.status.busy = true ∧ cmdWrite w s = .next { s with status := { s.status with ovr := true } }) ∨
    (s.status.busy = false ∧ ∃ w' c, c ≠ ErrCode.none ∧ cmdWrite w s = .next (s.refuse w' c)) ∨
    (s.status.busy = false ∧ ∃ i, decode w = .ok i ∧ validate s.params s.live (checksOf i) = .none ∧
      cmdWrite w s = .next (s.start i)) := by
  unfold cmdWrite
  cases hb : s.status.busy with
  | true => exact .inl ⟨rfl, rfl⟩
  | false =>
    right
    simp only [Bool.false_eq_true, if_false]
    cases hd : decode w with
    | error e => exact .inl ⟨trivial, _, .cmd, by simp, rfl⟩
    | ok i =>
      simp only [exec_next, hb, Bool.false_eq_true, if_false, accept_eq]
      by_cases hv : validate s.params s.live (checksOf i) = .none
      · exact .inr ⟨trivial, i, rfl, hv, by rw [if_pos hv]⟩
      · exact .inl ⟨trivial, _, _, hv, by rw [if_neg hv]⟩

end Sys2Proof.Machine
end

