-- ==== Sys2Proof/Laws/Invariant.lean ====
section
/-! SUPPORT. Every operation that writes the memory keeps what `MemOk` says of it: the canonical form, no byte listed past
a buffer's capacity, two bits in a Q element (10_state R41, R42, 20_memory R67). -/

namespace Sys2Proof.Machine

/-- A block below a buffer's capacity keeps every listed byte backed. -/
theorem backed_write {p : Params} {m : Memory} {a : Nat} {bs : List Byte} {b : Buf}
    (h : ∀ c ∈ m, ∃ b : Buf, b.base ≤ c.1 ∧ c.1 < b.base + b.elemBytes * b.capacity p)
    (h1 : b.base ≤ a) (h2 : a + bs.length ≤ b.base + b.elemBytes * b.capacity p) :
    ∀ c ∈ m.write a bs, ∃ b : Buf, b.base ≤ c.1 ∧ c.1 < b.base + b.elemBytes * b.capacity p := by
  intro c hc
  rcases Memory.mem_write hc with h' | ⟨h3, h4, -⟩
  · exact h c h'
  · exact ⟨b, by omega, by omega⟩

/-- What every run keeps of the memory. -/
structure MemOk (p : Params) (m : Memory) : Prop where
  wf : Memory.wf m
  backed : ∀ c ∈ m, ∃ b : Buf, b.base ≤ c.1 ∧ c.1 < b.base + b.elemBytes * b.capacity p
  classes : ∀ c ∈ m, inQ c.1 = true → c.2.toNat < 4

theorem MemOk.write {p : Params} {m : Memory} (hm : MemOk p m) {a : Nat} {bs : List Byte} {b : Buf}
    (h1 : b.base ≤ a) (h2 : a + bs.length ≤ b.base + b.elemBytes * b.capacity p)
    (h3 : ∀ x ∈ bs, ∀ k, a ≤ k → k < a + bs.length → inQ k = true → x.toNat < 4) : MemOk p (m.write a bs) := by
  refine ⟨Memory.wf_write hm.wf _ _, backed_write hm.backed h1 h2, ?_⟩
  intro c hc hq
  rcases Memory.mem_write hc with h' | ⟨h4, h5, h6⟩
  · exact hm.classes c h' hq
  · exact h3 _ h6 _ h4 h5 hq

/-- Which window is that of Q (R41). -/
theorem inQ_window {b : Buf} {k : Nat} (h : b.base ≤ k ∧ k < b.base + b.windowSize) : inQ k = decide (b = .q) := by
  by_cases hb : b = .q
  · subst hb; simp only [inQ, decide_true, Bool.and_eq_true, decide_eq_true_eq]; exact h
  · have := Buf.windows_apart hb
    simp only [hb, decide_false, inQ, Bool.and_eq_false_iff, decide_eq_false_iff_not]; omega

/-- The region of a stage (R42). -/
theorem MemOk.writeRegion {p : Params} (hp : p.legal) {s : State} (hm : MemOk p s.mem) {b : Buf} {vals : List Nat}
    (h2 : vals.length ≤ b.capacity p) (h3 : b = .q → ∀ v ∈ vals, v < 4) : MemOk p (s.writeRegion b vals).mem := by
  have h4 : b.elemBytes * vals.length ≤ b.elemBytes * b.capacity p := Nat.mul_le_mul_left _ h2
  have h5 := Buf.capacity_fits hp b
  refine hm.write (b := b) le_rfl ?_ ?_
  · rw [regionBytes_length]; omega
  · rw [regionBytes_length]
    intro x hx k h6 h7 hq
    rw [inQ_window (b := b) (by omega)] at hq
    have hbq : b = .q := by simpa using hq
    subst hbq
    simp only [regionBytes, List.mem_flatMap] at hx
    obtain ⟨v, hv, hx⟩ := hx
    simp only [Buf.elemBytes, bytesOfNat, List.mem_singleton] at hx
    subst hx
    have := h3 rfl v hv
    simp; omega

/-- Every output buffer of a stage is image-sized (R40). -/
theorem out_cap {st : Stage} {b : Buf} (h : b ∈ st.outputs) (p : Params) : b.capacity p = p.maxH * p.maxW := by
  cases st <;> simp [Stage.outputs] at h <;> rcases h with rfl | rfl <;> rfl

/-- A whole stage (R207). -/
theorem MemOk.stage {p : Params} (hp : p.legal) {s : State} (hm : MemOk p s.mem) (st : Stage)
    (hr : st ≠ .none → s.latched.region ≤ p.maxH * p.maxW) : MemOk p (performStage st s).mem := by
  have hreg : s.latched.region = s.latched.H * s.latched.W := rfl
  cases st
  · exact hm
  all_goals have hr := hr (by simp)
  · exact hm.writeRegion hp (b := .cx) (by simpa [Buf.capacity, hreg] using hr) (by simp)
  · exact hm.writeRegion hp (b := .cy) (by simpa [Buf.capacity, hreg] using hr) (by simp)
  · exact hm.writeRegion hp (b := .fx) (by simpa [Buf.capacity, hreg] using hr) (by simp)
  · exact hm.writeRegion hp (b := .fy) (by simpa [Buf.capacity, hreg] using hr) (by simp)
  · refine MemOk.writeRegion hp (b := .fy) (MemOk.writeRegion hp (b := .fx) hm ?_ (by simp)) ?_ (by simp) <;>
      simpa [Buf.capacity, hreg, descaleStage] using hr
  · refine MemOk.writeRegion hp (b := .mag8) (MemOk.writeRegion hp (b := .mag2) hm ?_ (by simp)) ?_ (by simp) <;>
      simpa [Buf.capacity, hreg, descaleStage] using hr
  · refine MemOk.writeRegion hp (b := .q) (MemOk.writeRegion hp (b := .phi8) hm ?_ ?_) ?_ ?_
    · simpa [Buf.capacity, hreg, descaleStage] using hr
    · simp
    · simpa [Buf.capacity, hreg, descaleStage] using hr
    · intro _ v hv
      rw [zipDirection_eq] at hv
      obtain ⟨e, -, rfl⟩ := List.mem_map.1 hv
      have := qclass_le (s.elemInt .fx e) (s.elemInt .fy e); omega
  · refine MemOk.writeRegion hp (b := .sup8) (MemOk.writeRegion hp (b := .sup2) hm ?_ (by simp)) ?_ (by simp) <;>
      simpa [Buf.capacity, hreg, descaleStage] using hr
  · exact hm.writeRegion hp (b := .edge) (by simpa [Buf.capacity, hreg] using hr) (by simp)

/-- A byte stored in Q has two bits (R41). -/
theorem storedByte_lt {a : Nat} {v : Byte} (h : inQ a = true) : (storedByte a v).toNat < 4 := by
  simp only [storedByte, h, if_true]
  rw [BitVec.toNat_and]
  have := Nat.and_two_pow_sub_one_eq_mod v.toNat 2
  have h3 : (3#8).toNat = 2^2 - 1 := rfl
  rw [h3, this]; omega

/-- The draws of an aborted stage (R210). -/
theorem MemOk.draws {p : Params} (hp : p.legal) (bs : List Buf) {s : State} (hm : MemOk p s.mem)
    (d : Nat) (hr : ∀ b ∈ bs, s.latched.region ≤ b.capacity p) : MemOk p (s.drawOutputs d bs).mem := by
  induction bs generalizing s with
  | nil => exact hm
  | cons b bs ih =>
    have h1 := hr b (by simp)
    refine ih (s := s.drawRegion b s.latched.region d) ?_ (fun b' hb' => hr b' (by simp [hb']))
    have h4 : b.elemBytes * s.latched.region ≤ b.elemBytes * b.capacity p := Nat.mul_le_mul_left _ h1
    have h5 := Buf.capacity_fits hp b
    refine hm.write (b := b) le_rfl (by simp; omega) ?_
    intro x hx k h6 h7 hq
    simp only [List.length_map, List.length_range] at h7
    obtain ⟨j, hj, rfl⟩ := List.mem_map.1 hx
    rw [List.mem_range] at hj
    rw [inQ_window (b := b) (by omega)] at hq
    apply storedByte_lt
    rw [inQ_window (b := b) (by omega)]; exact hq

/-- A word the host writes (R64, R65, R67). -/
theorem MemOk.buf {p : Params} (hp : p.legal) {s : State} (hps : s.params = p) (hm : MemOk p s.mem) {a : Nat}
    {b : Buf} (h : s.access a = some (.buf b)) (v : Word) : MemOk p (s.bufWrite b a v).mem := by
  subst hps
  have : a % 4 = 0 ∧ Buf.at? a = some b ∧ (a - b.base) / b.elemBytes < b.capacity s.params := by
    unfold State.access at h
    split at h
    · cases h
    · split at h
      · cases h' : Reg.at? a <;> simp [h'] at h
      · split at h
        · cases h
        · split at h
          · cases h
          · split at h
            · rename_i h1 _ _ b' h2 _ h3
              injection h with h; injection h with h; subst h
              exact ⟨by omega, h2, h3⟩
            · cases h
  obtain ⟨h4, hat, hcap⟩ := this
  have hw := Buf.at?_eq_some hat
  have h5 := Buf.capacity_fits hp b
  have hpos := Buf.elemBytes_pos b
  have h6 : a - b.base < b.elemBytes * b.capacity s.params := by
    rw [Nat.div_lt_iff_lt_mul hpos] at hcap; rwa [mul_comm]
  have hlen : (((bytesOfWord v).take (lanesBacked s.params b a)).map (storedByte a)).length =
      lanesBacked s.params b a := by
    simp [lanesBacked]
  have hl : lanesBacked s.params b a ≤ b.elemBytes * b.capacity s.params - (a - b.base) := Nat.min_le_right _ _
  refine hm.write (b := b) hw.1 (by rw [hlen]; omega) ?_
  rw [hlen]
  intro x hx k h7 h8 hq
  obtain ⟨y, -, rfl⟩ := List.mem_map.1 hx
  apply storedByte_lt
  rw [inQ_window (b := b) (by omega)] at hq
  rw [inQ_window (b := b) (by omega)]; exact hq

end Sys2Proof.Machine
end

