-- ==== Sys2Proof/Laws/PerInstr.lean ====
section
/-! SUPPORT. Statements made per command of `Instr`: the shape of each command's word (30_encoding R91 to R94). -/

namespace Sys2Proof.Laws

/-- The word of a command is legal, its RSVD field is 0, and its KSEL bit is set exactly for the .Y commands (R92, R93). -/
def WordShape.Statement (i : Instr) : Prop :=
  Word.wellFormed (encode i) = true ∧ Word.rsvd (encode i) = 0 ∧
    (Word.ksel (encode i) = true ↔ i = .convY ∨ i = .descaleY)

theorem WordShape.nop : WordShape.Statement .nop := by unfold WordShape.Statement; decide
theorem WordShape.convX : WordShape.Statement .convX := by unfold WordShape.Statement; decide
theorem WordShape.convY : WordShape.Statement .convY := by unfold WordShape.Statement; decide
theorem WordShape.descaleX : WordShape.Statement .descaleX := by unfold WordShape.Statement; decide
theorem WordShape.descaleY : WordShape.Statement .descaleY := by unfold WordShape.Statement; decide
theorem WordShape.grad : WordShape.Statement .grad := by unfold WordShape.Statement; decide
theorem WordShape.mag : WordShape.Statement .mag := by unfold WordShape.Statement; decide
theorem WordShape.dir : WordShape.Statement .dir := by unfold WordShape.Statement; decide
theorem WordShape.nms : WordShape.Statement .nms := by unfold WordShape.Statement; decide
theorem WordShape.hyst : WordShape.Statement .hyst := by unfold WordShape.Statement; decide
theorem WordShape.run : WordShape.Statement .run := by unfold WordShape.Statement; decide

end Sys2Proof.Laws
end

