-- ==== Sys2Proof/Laws/Tracing.lean ====
section
/-! SUPPORT. The relaxation passes of the HYST stage: each keeps its marks, the passes end in a fixed point, and a property
that every new mark inherits from a neighbour's holds of all of them (44_hysteresis R181, R184, 70_reset R263). -/

namespace Sys2Proof.Machine

/-- One pass, pixel by pixel. -/
theorem relaxPass_getD (n : List Nat) (h w tl : Nat) (m : List Bool) (e : Nat) :
    (relaxPass n h w tl m).getD e false = (decide (e < h * w) && (m.getD e false ||
      (atLeast n h w tl e && (neighbours w (e / w) (e % w)).any (fun q => m.getD q false)))) := by
  rw [relaxPass, List.getD_eq_getElem?_getD, List.getElem?_map]
  by_cases he : e < h * w
  · simp [he]
  · simp [he]

/-- A pass keeps every mark. -/
theorem relaxPass_ge {n : List Nat} {h w tl : Nat} {m : List Bool} (hm : m.length = h * w) (e : Nat)
    (he : m.getD e false = true) : (relaxPass n h w tl m).getD e false = true := by
  rw [relaxPass_getD, he]
  have : e < h * w := by
    rw [← hm]; by_contra hc
    rw [List.getD_eq_getElem?_getD, List.getElem?_eq_none (by omega)] at he; simp at he
  simp [this]

/-- A list with more marks that is not the same has strictly more of them. -/
theorem marks_count_lt : ∀ {a b : List Bool}, a.length = b.length →
    (∀ e, a.getD e false = true → b.getD e false = true) → a ≠ b → a.count true < b.count true := by
  intro a
  induction a with
  | nil => intro b hl _ hne; cases b <;> simp_all
  | cons x a ih =>
    intro b hl hle hne
    cases b with
    | nil => simp at hl
    | cons y b =>
      have h0 := hle 0
      simp at h0
      have hl' : a.length = b.length := by simpa using hl
      have hle' : ∀ e, a.getD e false = true → b.getD e false = true := fun e he => by
        have := hle (e+1); simpa using this (by simpa using he)
      by_cases hab : a = b
      · subst hab
        cases x <;> cases y <;> simp_all
      · have := ih hl' hle' hab
        cases x <;> cases y <;> simp at h0 ⊢ <;> omega

/-- With a pass for each pixel not yet marked, the passes end in a fixed point. -/
theorem relax_fix (n : List Nat) (h w tl : Nat) (fuel : Nat) (m : List Bool) (hm : m.length = h * w)
    (hf : h * w ≤ fuel + m.count true) :
    relaxPass n h w tl (relax n h w tl fuel m) = relax n h w tl fuel m := by
  induction fuel generalizing m with
  | zero =>
    simp only [relax]
    by_contra hne
    have := marks_count_lt (a := m) (b := relaxPass n h w tl m) (by simp [hm]) (relaxPass_ge hm) (fun h => hne h.symm)
    have h2 := List.count_le_length (a := true) (l := relaxPass n h w tl m)
    simp at h2; omega
  | succ fuel ih =>
    simp only [relax]
    split
    · assumption
    · rename_i hne
      have := marks_count_lt (a := m) (b := relaxPass n h w tl m) (by simp [hm]) (relaxPass_ge hm) (fun h => hne h.symm)
      exact ih _ (by simp) (by omega)

/-- The passes keep every mark. -/
theorem relax_ge {n : List Nat} {h w tl : Nat} (fuel : Nat) {m : List Bool} (hm : m.length = h * w) (e : Nat)
    (he : m.getD e false = true) : (relax n h w tl fuel m).getD e false = true := by
  induction fuel generalizing m with
  | zero => exact he
  | succ fuel ih =>
    simp only [relax]
    split
    · exact he
    · exact ih (by simp) (relaxPass_ge hm e he)

/-- A property of the first marks that each new mark takes from a marked neighbour holds of every mark. -/
theorem relax_ind {n : List Nat} {h w tl : Nat} (P : Nat → Prop)
    (hP : ∀ e q, e < h * w → atLeast n h w tl e = true → q ∈ neighbours w (e / w) (e % w) → P q → P e)
    (fuel : Nat) {m : List Bool} (hm : ∀ e, m.getD e false = true → P e) :
    ∀ e, (relax n h w tl fuel m).getD e false = true → P e := by
  induction fuel generalizing m with
  | zero => exact hm
  | succ fuel ih =>
    simp only [relax]
    split
    · exact hm
    · apply ih
      intro e he
      rw [relaxPass_getD] at he
      simp only [Bool.and_eq_true, Bool.or_eq_true, decide_eq_true_eq, List.any_eq_true] at he
      obtain ⟨h1, h2 | ⟨h2, q, hq, hq'⟩⟩ := he
      · exact hm _ h2
      · exact hP e q h1 h2 hq (hm _ hq')

theorem atLeast_iff (n : List Nat) (h w t e : Nat) :
    atLeast n h w t e = true ↔
      (1 ≤ e / w ∧ e / w + 2 ≤ h ∧ 1 ≤ e % w ∧ e % w + 2 ≤ w) ∧ t ≤ n.getD e 0 := by
  simp only [atLeast, Bool.and_eq_true, interior_iff, decide_eq_true_eq]

/-- The marks before the first pass: the strong pixels (R181). -/
theorem strong_getD (n : List Nat) (h w th e : Nat) :
    ((List.range (h * w)).map (atLeast n h w th)).getD e false = (decide (e < h * w) && atLeast n h w th e) := by
  rw [List.getD_eq_getElem?_getD, List.getElem?_map]
  by_cases he : e < h * w
  · simp [he]
  · simp [he]

end Sys2Proof.Machine
end

