-- ==== Sys2Proof/Tests/Slice0.lean ====
section
/-! SUPPORT. Small tests, expected values from 95_test_vectors, and for every statement with hypotheses a concrete state
and operands that meet them all (`witness_<Name>`). -/

namespace Sys2Proof.Tests
open Sys2Proof.Machine Sys2Proof.Slice0

-- one theorem after another: elaborated side by side, their evaluations take a thread and its stack each
set_option Elab.async false

/-! ## Decoding (V-ENC-1), each word written out as RSVD, KSEL, OPCODE -/

theorem test_decode_control : decode 0b00000000000000000000000_0_00000000#32 = .ok .nop ∧
    decode 0b00000000000000000000000_0_00001111#32 = .ok .run := by decide

theorem test_decode_conv : decode 0b00000000000000000000000_0_00000001#32 = .ok .convX ∧
    decode 0b00000000000000000000000_1_00000001#32 = .ok .convY := by decide

theorem test_decode_descale : decode 0b00000000000000000000000_0_00000010#32 = .ok .descaleX ∧
    decode 0b00000000000000000000000_1_00000010#32 = .ok .descaleY ∧
    decode 0b00000000000000000000000_0_00000011#32 = .ok .grad := by decide

theorem test_decode_gradient : decode 0b00000000000000000000000_0_00000100#32 = .ok .mag ∧
    decode 0b00000000000000000000000_0_00000101#32 = .ok .dir := by decide

theorem test_decode_nms_hyst : decode 0b00000000000000000000000_0_00000110#32 = .ok .nms ∧
    decode 0b00000000000000000000000_0_00000111#32 = .ok .hyst := by decide

theorem test_decode_bytes : decodeBytes [1#8, 1#8, 0#8, 0#8, 9#8] = .ok (.convY, [9#8]) ∧
    decodeBytes [1#8, 1#8, 0#8] = .error .tooShort ∧ decodeTableWord 32 0x102 = some .descaleY := by decide

/-! ## Ill-formed words, one group for each check of WellFormed.lean (R95, V-ENC-1) -/

theorem test_opcode_check : [0x08#32, 0x0E#32, 0x10#32, 0xFF#32].all (fun w =>
    Word.opcodeKnown w == false && Word.kselOk w == true && Word.rsvdOk w == true && Word.wellFormed w == false &&
      decode w matches .error .reservedOpcode) = true := by decide

theorem test_ksel_check : [0x100#32, 0x103#32, 0x107#32, 0x10F#32].all (fun w =>
    Word.opcodeKnown w == true && Word.kselOk w == false && Word.rsvdOk w == true && Word.wellFormed w == false &&
      decode w matches .error .kselNotAllowed) = true := by decide

theorem test_rsvd_check : [0x201#32, 0x80000001#32].all (fun w =>
    Word.opcodeKnown w == true && Word.kselOk w == true && Word.rsvdOk w == false && Word.wellFormed w == false &&
      decode w matches .error .reservedBits) = true := by decide

/-! ## Small states -/

/-- What a step gives, held against a test; a stop fails it. -/
def after (o : Host.Outcome State Fault Refusal) (f : State → Bool) : Bool :=
  match o with
  | .next t => f t
  | .fault _ => false
  | .refused _ => false

/-- Parameter values. -/
def pars (h w n sf : Nat) : ParamRegs :=
  { imgH := BitVec.ofNat 16 h, imgW := BitVec.ofNat 16 w, ksize := BitVec.ofNat 8 n, scale := BitVec.ofNat 16 sf,
    thHi := 100#32, thLo := 50#32 }

/-- An idle CEC with live parameters. -/
def idle (p : ParamRegs) : State := { State.reset with live := p }

/-- A CEC running command `i`, with `st` left to run. -/
def busyAt (i : Instr) (st : List Stage) (p : ParamRegs) : State :=
  { State.reset with
    cmd := encode i
    stages := st
    latched := p
    status := { Status.reset with busy := true, stage := firstCode st } }

/-- Elements of a buffer, unsigned. -/
def fill (s : State) (b : Buf) (vals : List Nat) : State := s.writeRegion b vals

/-- Elements of an i32 buffer. -/
def fillInts (s : State) (b : Buf) (vals : List Int) : State := s.writeRegion b (vals.map pattern32)

/-! ## The engine steps -/

/-- V-CTL-2's rule for a single stage: BUSY falls, DONE rises. -/
theorem test_nop_done : after (exec .nop (busyAt .nop [.none] (pars 0 0 0 0))) (fun t =>
    t.status.toWord == 0x2#32 && t.mem == []) = true := by decide +kernel

/-- V-CONV-3: correlation, kernel not flipped. -/
theorem test_convX_not_flipped :
    after (exec .convX (fillInts (fill (busyAt .convX [.convX] (pars 3 3 3 255)) .img [10, 20, 30, 40, 50, 60, 70, 80, 90])
      .kx [1, 0, -1, 2, 0, -2, 1, 0, -1])) (fun t =>
      t.elemInts .cx 9 == [-90, -60, 90, -200, -80, 200, -210, -60, 210] && t.status.toWord == 0x102#32) = true := by
  decide +kernel

/-- V-CONV-5: the sum leaves 32 bits. -/
theorem test_convX_overflow :
    after (exec .convX (fillInts (fill (busyAt .convX [.convX] (pars 1 1 1 255)) .img [255]) .kx [2147483647])) (fun t =>
      t.elemInts .cx 1 == [2147483393] && t.status.toWord == 0x112#32) = true := by decide +kernel

/-- V-CONV-2, with KY and CY. -/
theorem test_convY_scales :
    after (exec .convY (fillInts (fill (busyAt .convY [.convY] (pars 2 2 1 255)) .img [1, 2, 3, 4]) .ky [5])) (fun t =>
      t.elemInts .cy 4 == [5, 10, 15, 20] && t.status.toWord == 0x202#32) = true := by decide +kernel

/-- V-CONV-4, with KY and CY: a kernel larger than the image. -/
theorem test_convY_large_kernel :
    after (exec .convY (fillInts (fill (busyAt .convY [.convY] (pars 2 2 5 255)) .img [1, 2, 3, 4]) .ky
      (List.replicate 25 1))) (fun t => t.elemInts .cy 4 == [10, 10, 10, 10]) = true := by decide +kernel

/-- V-DESC-1, SF = 2: ties go away from zero. -/
theorem test_descaleX_ties :
    after (exec .descaleX (fillInts (busyAt .descaleX [.descaleX] (pars 2 3 0 2)) .cx [3, -3, 1, -1, 5, -5])) (fun t =>
      t.elemInts .fx 6 == [2, -2, 1, -1, 3, -3] && t.status.toWord == 0x302#32) = true := by decide +kernel

/-- V-DESC-1, SF = 65535: just below and just above a half. -/
theorem test_descaleX_extremes :
    after (exec .descaleX (fillInts (busyAt .descaleX [.descaleX] (pars 1 2 0 65535)) .cx [2147483647, -2147483648]))
      (fun t => t.elemInts .fx 2 == [32768, -32769]) = true := by decide +kernel

/-- V-DESC-1, SF = 255. -/
theorem test_descaleY_rounds :
    after (exec .descaleY (fillInts (busyAt .descaleY [.descaleY] (pars 1 4 0 255)) .cy [-30600, 127, 128, -128])) (fun t =>
      t.elemInts .fy 4 == [-120, 0, 1, -1] && t.status.toWord == 0x302#32) = true := by decide +kernel

/-- V-GRAD-2, the DESCALE step of GRAD: both components, ties away from zero. -/
theorem test_grad_last_step :
    after (exec .grad (fillInts (fillInts (busyAt .grad [.descaleXY] (pars 1 3 1 2)) .cx [2, 4, 6]) .cy [-1, -2, -3]))
      (fun t => t.elemInts .fx 3 == [1, 2, 3] && t.elemInts .fy 3 == [-1, -1, -2] &&
        t.status.toWord == 0x302#32) = true := by decide +kernel

/-- V-CTL-2: after the first step of GRAD the CEC is busy with stage 2. -/
theorem test_grad_first_step :
    after (exec .grad (fillInts (fill (busyAt .grad [.convX, .convY, .descaleXY] (pars 1 1 1 2)) .img [7]) .kx [2]))
      (fun t => t.elemInts .cx 1 == [14] && t.status.toWord == 0x201#32) = true := by decide +kernel

/-- V-MAG-1: the largest squared magnitude, 2^63. -/
theorem test_mag_extreme :
    after (exec .mag (fillInts (fillInts (busyAt .mag [.mag] (pars 1 2 0 0)) .fx [-2147483648, 3]) .fy [-2147483648, -4]))
      (fun t => t.elems .mag2 2 == [9223372036854775808, 25] && t.status.toWord == 0x402#32) = true := by decide +kernel

/-- V-MAG-2: 1, 4, 9, 16 gives exact thirds. -/
theorem test_mag_norm :
    after (exec .mag (fillInts (fillInts (busyAt .mag [.mag] (pars 2 2 0 0)) .fx [1, 0, -3, 4]) .fy [0, 2, 0, 0]))
      (fun t => t.elems .mag2 4 == [1, 4, 9, 16] && t.elems .mag8 4 == [0, 85, 170, 255]) = true := by decide +kernel

/-- V-DIR-1: the tie at 180 degrees, the axes, and a diagonal. -/
theorem test_dir_axes :
    after (exec .dir (fillInts (fillInts (busyAt .dir [.dir] (pars 2 4 0 0)) .fx [0, 5, -5, 0, 0, -1, 1, -1]) .fy
      [0, 0, 0, 5, -5, 1, -1, -1])) (fun t => t.elems .phi8 8 == [0, 0, 128, 64, 191, 96, 223, 159] &&
        t.elems .q 8 == [0, 0, 0, 2, 2, 3, 3, 1] && t.status.toWord == 0x502#32) = true := by decide +kernel

/-- V-DIR-1: both sides of 22.5, 67.5 and 157.5 degrees, and a 32-bit extreme. -/
theorem test_dir_boundaries :
    after (exec .dir (fillInts (fillInts (busyAt .dir [.dir] (pars 2 4 0 0)) .fx [100, 100, 41, 42, -12, -270, 3, 2147483647])
      .fy [41, 42, 100, 100, 5, -136, -4, -2147483648])) (fun t => t.elems .phi8 8 == [16, 16, 48, 48, 111, 146, 217, 223] &&
        t.elems .q 8 == [0, 1, 2, 1, 3, 1, 3, 3]) = true := by decide +kernel

/-- V-NMS-1, class 2: kept. -/
theorem test_nms_kept :
    after (exec .nms (fill (fill (busyAt .nms [.nms] (pars 3 3 0 0)) .mag2 [12, 9, 3, 8, 10, 7, 11, 5, 13]) .q
      [0, 0, 0, 0, 2, 0, 0, 0, 0])) (fun t => t.elems .sup2 9 == [0, 0, 0, 0, 10, 0, 0, 0, 0] &&
        t.elems .sup8 9 == [0, 0, 0, 0, 255, 0, 0, 0, 0] && t.status.toWord == 0x602#32) = true := by decide +kernel

/-- V-NMS-1, class 1: (2,0) holds 11, so the centre goes (90_conflicts C1). -/
theorem test_nms_dropped :
    after (exec .nms (fill (fill (busyAt .nms [.nms] (pars 3 3 0 0)) .mag2 [12, 9, 3, 8, 10, 7, 11, 5, 13]) .q
      [0, 0, 0, 0, 1, 0, 0, 0, 0])) (fun t => t.elems .sup2 9 == List.replicate 9 0) = true := by decide +kernel

/-- V-HYST-2: an isolated strong pixel. -/
theorem test_hyst_isolated :
    after (exec .hyst (fill (busyAt .hyst [.hyst] (pars 3 3 0 0)) .sup2 [0, 0, 0, 0, 4, 0, 0, 0, 0])) (fun t =>
      t.elems .edge 9 == [0, 0, 0, 0, 255, 0, 0, 0, 0] && t.status.toWord == 0x702#32) = true := by decide +kernel

/-- V-HYST-1, its normalised values and thresholds (100, 50): a chain of weak pixels, an unconnected weak one, a strong
border pixel. -/
theorem test_hyst_chain :
    (traceMarks ([0, 0, 0, 0, 0, 0, 0] ++ [0, 200, 60, 0, 0, 120, 0] ++ [0, 0, 0, 70, 0, 0, 0] ++
        [0, 90, 0, 0, 55, 255, 0] ++ [0, 0, 0, 0, 0, 0, 200]) 5 7 100 50).map Bool.toNat =
      [0, 0, 0, 0, 0, 0, 0] ++ [0, 1, 1, 0, 0, 1, 0] ++ [0, 0, 0, 1, 0, 0, 0] ++ [0, 0, 0, 0, 1, 1, 0] ++
        [0, 0, 0, 0, 0, 0, 0] := by decide +kernel

/-- V-CTL-2: RUN at accept. -/
theorem test_run_accept :
    after (exec .run (idle (pars 5 5 5 255))) (fun t => t.status.toWord == 0x101#32 && t.cmd == 0xF#32 &&
      t.latched == pars 5 5 5 255) = true := by decide +kernel

/-- V-CTL-2: the last step of RUN. -/
theorem test_run_last_step :
    after (exec .run (fill (busyAt .run [.hyst] (pars 3 3 1 1)) .sup2 [0, 0, 0, 0, 4, 0, 0, 0, 0])) (fun t =>
      t.status.toWord == 0x702#32) = true := by decide +kernel

/-! ## Registers, buffers, refusals, resets -/

/-- V-CTL-1, in its order: words written to CMD of an idle CEC. -/
theorem test_priority :
    after (busWrite 0x018 0x103#32 (idle (pars 0 0 4 0))) (fun t => t.status.toWord == 0x00010006#32) = true ∧
    after (busWrite 0x018 0x003#32 (idle (pars 0 5 4 0))) (fun t => t.status.toWord == 0x00020006#32) = true ∧
    after (busWrite 0x018 0x004#32 (idle (pars 1025 5 5 255))) (fun t => t.status.toWord == 0x00020006#32) = true ∧
    after (busWrite 0x018 0x003#32 (idle (pars 5 5 4 0))) (fun t => t.status.toWord == 0x00030006#32) = true ∧
    after (busWrite 0x018 0x101#32 (idle (pars 5 5 0 255))) (fun t => t.status.toWord == 0x00030006#32) = true ∧
    after (busWrite 0x018 0x00F#32 (idle (pars 5 5 5 0))) (fun t => t.status.toWord == 0x00040006#32) = true ∧
    after (busWrite 0x018 0x006#32 (idle (pars 5 5 4 0))) (fun t => t.status.toWord == 0x00000601#32) = true ∧
    after (busWrite 0x018 0x000#32 (idle (pars 0 0 0 0))) (fun t => t.status.toWord == 0x00000001#32) = true := by
  decide +kernel

/-- V-REG-2: reserved bits and widths. -/
theorem test_register_widths :
    after (busWrite 0x020 0xFFFF0005#32 State.reset) (fun t => t.busRead 0x020 == (.okay, 0x5#32)) = true ∧
    after (busWrite 0x028 0x00000103#32 State.reset) (fun t => t.busRead 0x028 == (.okay, 0x3#32)) = true ∧
    after (busWrite 0x02C 0x00010000#32 State.reset) (fun t => t.busRead 0x02C == (.okay, 0x0#32)) = true ∧
    after (busWrite 0x034 0xFFFFFFEC#32 State.reset) (fun t => t.live.Tl == -20) = true ∧
    after (busWrite 0x000 0x0#32 State.reset) (fun t => t.busRead 0x000 == (.okay, 0x43454331#32)) = true ∧
    after (busWrite 0x010 0xFFFFFFFD#32 State.reset) (fun t => t.busRead 0x010 == (.okay, 0x1#32)) = true := by
  decide +kernel

/-- R23, R24: MAX_W above MAX_H in CAP0, MAX_N in CAP1. -/
theorem test_cap_words :
    let s := { State.reset with params := { maxH := 3, maxW := 5, maxN := 7, cecBase := 0 } }
    s.busRead 0x008 = (.okay, 0x00050003#32) ∧ s.busRead 0x00C = (.okay, 0x7#32) := by decide +kernel

/-- V-REG-3: write one to clear. -/
theorem test_status_clear :
    let st : Status := { busy := false, done := true, err := true, ovr := true, convOvf := true, stage := 0#3, errcode := .ksize }
    st.toWord = 0x0003001E#32 ∧ (st.clearBits 0x10#32).toWord = 0x0003000E#32 ∧
    ((st.clearBits 0x10#32).clearBits 0x4#32).toWord = 0x0000000A#32 ∧ (st.clearBits 0xFFFFFFFF#32).toWord = 0#32 ∧
    ({ Status.reset with done := true, stage := 7#3 }.clearBits 0x702#32).toWord = 0x700#32 := by decide +kernel

/-- V-MEM-2: Q keeps two bits of each byte. -/
theorem test_q_two_bits :
    after (busWrite 0x02600000 0xFFFFFFFF#32 State.reset) (fun t => t.busRead 0x02600000 == (.okay, 0x03030303#32)) = true ∧
    after (busWrite 0x02600000 0x07060504#32 State.reset) (fun t => t.busRead 0x02600000 == (.okay, 0x03020100#32)) = true := by
  decide +kernel

/-- V-MEM-4: the high half of a u64 element. -/
theorem test_u64_halves :
    after (busWrite 0x01400014 0x80000000#32 (fill State.reset .mag2 [0, 0, 148225])) (fun t =>
      t.elem .mag2 2 == 9223372036854775808 + 148225) = true := by decide +kernel

/-- V-MEM-5. -/
theorem test_bus_errors :
    (∀ a ∈ [0x00100001, 0x12, 0x1C, 0x38, 0x100, 0x00280000, 0x02900000, 0x03FFFFFC, 0x0023F804, 0x0027FFFC],
      State.reset.busRead a = (.busError, 0#32)) ∧
    State.reset.writeStatus 0x0023F800 = .okay ∧ State.reset.writeStatus 0x028FFFFC = .okay := by decide +kernel

/-- V-CTL-4: a soft reset with CONVY of a GRAD in progress; CX stays, the registers are zeroed. -/
theorem test_soft_reset_busy :
    after (busWrite 0x010 0x2#32 (fillInts (busyAt .grad [.convY, .descaleXY] (pars 1 1 1 1)) .cx [7])) (fun t =>
      t.ie == false && t.status.toWord == 0#32 && t.cmd == 0#32 && t.elemInts .cx 1 == [7] && t.stages == []) = true := by
  decide +kernel

/-! ## Witnesses: for each statement with hypotheses, a state and operands that meet them together -/

/-- A host about to write `w` to CMD. -/
def issuing (s : State) (w : Word) (ts : List Turn) : State :=
  { s with turns := ts, host := { s.host with prog := [.wr 0x18#26 w] } }

/-- A host about to make one transaction. -/
def hosting (s : State) (l : HostLine) : State := { s with turns := [.host], host := { s.host with prog := [l] } }

/-- A RUN in progress, with two bytes written. -/
def runInProgress : State :=
  { busyAt .run [.dir, .nms, .hyst] (pars 3 3 3 2) with mem := [(0x00100000, 7#8), (0x02600002, 3#8)] }

theorem witness_IllegalWordsRefused :
    ((8 ≤ (0x08#32 &&& 0xFF#32).toNat ∧ (0x0E#32 &&& 0xFF#32).toNat ≤ 0x0E) ∧ 0x10 ≤ (0x10#32 &&& 0xFF#32).toNat) ∧
    ((0x100#32).getLsbD 8 = true ∧ 0x100#32 &&& 0xFF#32 ≠ 1#32 ∧ 0x100#32 &&& 0xFF#32 ≠ 2#32) ∧
    (0x201#32 >>> 9 ≠ 0#32 ∧ 0x80000001#32 >>> 9 ≠ 0#32) ∧
    (decode 0x08#32 = .error .reservedOpcode ∧ decode 0x100#32 = .error .kselNotAllowed ∧
      decode 0x80000001#32 = .error .reservedBits) ∧ State.reset.status.busy = false := by decide

theorem witness_CmdWriteRunsDecodedCommand :
    let s := issuing (idle (pars 5 5 5 255)) 0xF#32 [.host, .engine]
    s.turns = .host :: [.engine] ∧ s.host.prog[s.host.pc]? = some (.wr 0x18#26 0xF#32) ∧ s.status.busy = false ∧
      decode 0xF#32 = .ok .run := by decide +kernel

theorem witness_EngineTurnRunsCommandInProgress :
    let s := busyAt .mag [.mag] (pars 1 1 0 0)
    s.status.busy = true ∧ decode s.cmd = .ok .mag ∧ s.turns = [] ∧
      { s with turns := [.engine] }.turns = .engine :: [] ∧
      ({ State.reset with turns := [.engine] }.status.busy = false ∧
        { State.reset with turns := [.engine] }.turns = .engine :: []) := by decide +kernel

theorem witness_PlacedWordRunsNext :
    decodeTableWord 32 0x101 = some .convY ∧ decodeTableWord 32 0 = some .nop := by decide +kernel

/-- The clauses of `AcceptedAs`, which the ten commands' statements share: each first code, at the edges of the checks,
and a valid set at both ends of the ranges. -/
theorem witness_AcceptedAs :
    (∀ s : State, s = idle (pars 0 5 4 0) ∨ s = idle (pars 1025 5 4 0) ∨ s = idle (pars 5 0 4 0) →
      s.status.busy = false ∧ ¬ DimsValid s.params s.live) ∧
    (∀ s : State, s = idle (pars 1 1024 4 0) ∨ s = idle (pars 1024 1 0 0) →
      s.status.busy = false ∧ DimsValid s.params s.live ∧ ¬ KsizeValid s.params s.live) ∧
    (∀ s : State, s = idle (pars 1 1 1 0) →
      s.status.busy = false ∧ DimsValid s.params s.live ∧ KsizeValid s.params s.live ∧ ¬ ScaleValid s.live) ∧
    (∀ s : State, s = idle (pars 1 1 1 1) ∨ s = idle (pars 1024 1024 255 65535) →
      s.status.busy = false ∧ DimsValid s.params s.live ∧ KsizeValid s.params s.live ∧ ScaleValid s.live) := by
  unfold DimsValid KsizeValid ScaleValid
  refine ⟨?_, ?_, ?_, ?_⟩
  · rintro s (rfl | rfl | rfl) <;> decide +kernel
  · rintro s (rfl | rfl) <;> decide +kernel
  · rintro s rfl; decide +kernel
  · rintro s (rfl | rfl) <;> decide +kernel

/-- The running states of the commands' statements, the whole region of the reference buffers among them. -/
theorem witness_RunningStages :
    RunningStages (busyAt .nop [.none] (pars 0 0 0 0)) [.none] ∧
    RunningStages (busyAt .convX [.convX] (pars 3 3 3 255)) [.convX] ∧
    RunningStages (busyAt .convY [.convY] (pars 3 3 3 255)) [.convY] ∧
    RunningStages (busyAt .descaleX [.descaleX] (pars 3 3 0 2)) [.descaleX] ∧
    RunningStages (busyAt .descaleY [.descaleY] (pars 3 3 0 2)) [.descaleY] ∧
    RunningStages (busyAt .hyst [.hyst] (pars 3 3 0 0)) [.hyst] := by
  unfold RunningStages; decide +kernel

/-- Dimensions up to 1024 fit the reference buffers. -/
theorem fits (i : Instr) (l : List Stage) {p : ParamRegs}
    (h : 1 ≤ p.imgH.toNat ∧ p.imgH.toNat ≤ 1024 ∧ 1 ≤ p.imgW.toNat ∧ p.imgW.toNat ≤ 1024) :
    RegionFits (busyAt i l p) := ⟨by show Params.reference.legal; decide, h⟩

theorem witness_RunningStages_RegionFits :
    (RunningStages (busyAt .grad [.convX, .convY, .descaleXY] (pars 3 3 3 2)) [.convX, .convY, .descaleXY] ∧
      RegionFits (busyAt .grad [.convX, .convY, .descaleXY] (pars 3 3 3 2))) ∧
    (RunningStages (busyAt .mag [.mag] (pars 1024 1024 0 0)) [.mag] ∧
      RegionFits (busyAt .mag [.mag] (pars 1024 1024 0 0))) ∧
    (RunningStages (busyAt .dir [.dir] (pars 1 1 0 0)) [.dir] ∧ RegionFits (busyAt .dir [.dir] (pars 1 1 0 0))) ∧
    (RunningStages (busyAt .nms [.nms] (pars 3 3 0 0)) [.nms] ∧ RegionFits (busyAt .nms [.nms] (pars 3 3 0 0))) ∧
    (RunningStages (busyAt .run [.convX, .convY, .descaleXY, .mag, .dir, .nms, .hyst] (pars 3 3 3 2))
        [.convX, .convY, .descaleXY, .mag, .dir, .nms, .hyst] ∧
      RegionFits (busyAt .run [.convX, .convY, .descaleXY, .mag, .dir, .nms, .hyst] (pars 3 3 3 2))) :=
  ⟨⟨⟨rfl, rfl⟩, fits _ _ (by decide)⟩, ⟨⟨rfl, rfl⟩, fits _ _ (by decide)⟩, ⟨⟨rfl, rfl⟩, fits _ _ (by decide)⟩,
    ⟨⟨rfl, rfl⟩, fits _ _ (by decide)⟩, ⟨⟨rfl, rfl⟩, fits _ _ (by decide)⟩⟩

theorem witness_EngineStepRunsHeadStage :
    (busyAt .run [.mag, .dir, .nms, .hyst] (pars 3 3 3 2)).status.busy = true ∧
    (busyAt .run [.mag, .dir, .nms, .hyst] (pars 3 3 3 2)).stages = .mag :: [.dir, .nms, .hyst] ∧
    (busyAt .run [.hyst] (pars 3 3 3 2)).stages = .hyst :: [] := by decide +kernel

theorem witness_OverrunOnlySetsOvr : (busyAt .run [.hyst] (pars 3 3 3 2)).status.busy = true := by decide +kernel

theorem witness_RunningCommandIgnoresLiveParameters :
    ∃ t, (busyAt .run [.mag, .dir] (pars 3 3 3 2)).status.busy = true ∧
      exec .run (busyAt .run [.mag, .dir] (pars 3 3 3 2)) = .next t := ⟨_, rfl, rfl⟩

theorem witness_CmdWriteLeavesBusyOrDone :
    (∃ t, busWrite 0x018 0xF#32 (idle (pars 5 5 5 255)) = .next t ∧
      (idle (pars 5 5 5 255)).status.busy = false ∧ t.status.busy = true) ∧
    (∃ t, busWrite 0x018 0x8#32 State.reset = .next t ∧ t.status.busy = false) ∧
    (∃ t, busWrite 0x018 0x4#32 runInProgress = .next t ∧ runInProgress.status.busy = true) :=
  ⟨⟨_, rfl, rfl, rfl⟩, ⟨_, rfl, rfl⟩, ⟨_, rfl, rfl⟩⟩

theorem witness_CommandsNeverFailAfterAccept : (busyAt .nms [.nms] (pars 3 3 0 0)).status.busy = true := by
  decide +kernel

theorem runInProgress_inv : runInProgress.Inv where
  legal := by decide +kernel
  memWf := by decide +kernel
  backed := by
    intro c hc
    simp only [runInProgress, List.mem_cons, List.not_mem_nil, or_false] at hc
    rcases hc with rfl | rfl
    · exact ⟨.img, by decide +kernel, by decide +kernel⟩
    · exact ⟨.q, by decide +kernel, by decide +kernel⟩
  classes := by
    intro c hc
    simp only [runInProgress, List.mem_cons, List.not_mem_nil, or_false] at hc
    rcases hc with rfl | rfl <;> decide +kernel
  busyIff := by decide +kernel
  busyFlags := by decide +kernel
  busyRuns := fun _ => ⟨.run, rfl, by decide +kernel, ⟨[.convX, .convY, .descaleXY, .mag], rfl⟩⟩
  errIff := by decide +kernel

/-- An idle CEC about to be given a RUN. -/
def idleIssuing : State := issuing (idle (pars 3 3 3 2)) 0xF#32 []

theorem idleIssuing_inv : idleIssuing.Inv where
  legal := by decide +kernel
  memWf := by decide +kernel
  backed := by intro c hc; simp [idleIssuing, issuing, idle, State.reset] at hc
  classes := by intro c hc; simp [idleIssuing, issuing, idle, State.reset] at hc
  busyIff := by decide +kernel
  busyFlags := by decide +kernel
  busyRuns := fun h => absurd h (by decide +kernel)
  errIff := by decide +kernel

theorem witness_BusyCommandCompletes :
    runInProgress.Inv ∧ runInProgress.status.busy = true ∧ runInProgress.turns = [] ∧
      2 < runInProgress.stages.length := ⟨runInProgress_inv, rfl, rfl, by decide +kernel⟩

theorem witness_StepsReachAfterCommand :
    let s := issuing (idle (pars 3 3 3 2)) (encode .grad) [.host]
    s.status.busy = false ∧ s.stages = [] ∧ s.turns = [.host] ∧
      s.host.prog[s.host.pc]? = some (.wr 0x18#26 (encode .grad)) := by decide +kernel

theorem witness_RunEqualsSeparateCommands :
    let s := idle (pars 1024 1024 255 65535)
    s.params.legal ∧ s.status.busy = false ∧ s.stages = [] ∧ DimsValid s.params s.live ∧
      KsizeValid s.params s.live ∧ ScaleValid s.live := by
  unfold DimsValid KsizeValid ScaleValid; decide +kernel

theorem witness_StagesDoNotReadTheirOutputs :
    let s := busyAt .convX [.convX] (pars 1 1 1 1)
    let s' := s.writeRegion .cx [5]
    RegionFits s ∧ KsizeValid s.params s.latched ∧ s'.latched = s.latched ∧ s'.params = s.params ∧
      (∀ b, b ∉ Stage.convX.outputs → ∀ e, e < b.capacity s.params → s'.elem b e = s.elem b e) ∧
      Buf.cx ∈ Stage.convX.outputs ∧ 0 < rows s * cols s := by
  have hp : Params.reference.legal := by decide +kernel
  refine ⟨?_, ?_, rfl, rfl, ?_, by decide +kernel, by decide +kernel⟩
  · exact fits _ _ (by decide)
  · unfold KsizeValid; decide +kernel
  · intro b hb e he
    have hne : Buf.cx ≠ b := by rintro rfl; exact hb (by decide)
    exact elem_writeRegion_ne (p := Params.reference) hp hne (by decide) he

theorem witness_CommandsWriteOnlyTheirRegions :
    let s := busyAt .run [.nms, .hyst] (pars 3 3 3 2)
    s.status.busy = true ∧ RegionFits s ∧ (∃ t, exec .run s = .next t) ∧ 65024 < Buf.kx.capacity s.params ∧
      rows s * cols s ≤ 9 ∧ 9 < Buf.sup2.capacity s.params := by
  refine ⟨rfl, ?_, ⟨_, rfl⟩, by decide +kernel, by decide +kernel, by decide +kernel⟩
  exact fits _ _ (by decide)

/-- One offset for each cause of a busError (V-MEM-5). -/
theorem witness_BusErrorExactly :
    0x00100001 % 4 ≠ 0 ∧ (0x1C ∉ registerOffsets ∧ ¬ InWindow 0x1C) ∧ ¬ InWindow 0x00280000 ∧ ¬ InWindow 0x02900000 ∧
    Unbacked State.reset.params 0x0023F804 ∧ ¬ Unbacked State.reset.params 0x0023F800 ∧ InWindow 0x028FFFFC ∧
    (busyAt .run [.hyst] (pars 3 3 3 2)).status.busy = true := by
  refine ⟨by decide, ⟨by decide, ?_⟩, ?_, ?_, ⟨(0x00200000, 0x0023FFFF, 4, true), by decide, by decide⟩, ?_, ?_, rfl⟩
  · simp [InWindow, windows]
  · simp [InWindow, windows]
  · simp [InWindow, windows]
  · simp [Unbacked, windows, State.reset, Params.reference]
  · simp [InWindow, windows]

theorem witness_BusyGate :
    (busyAt .run [.hyst] (pars 3 3 3 2)).status.busy = true ∧ InWindow 0x00100000 ∧ InWindow 0x00240000 ∧
      InWindow 0x028FFFFC := by
  refine ⟨rfl, ?_, ?_, ?_⟩ <;> simp [InWindow, windows]

/-- The first word, the last word, and a word of which one lane alone is backed. -/
theorem witness_ByteBufferWords :
    (State.reset.params.legal ∧ Buf.img.elemBytes = 1 ∧ 0 % 4 = 0 ∧ 0 < Buf.img.capacity State.reset.params ∧
      State.reset.status.busy = false) ∧
    (Buf.q.elemBytes = 1 ∧ 1048572 % 4 = 0 ∧ 1048572 < Buf.q.capacity State.reset.params) ∧
    (let s := { State.reset with params := { maxH := 1, maxW := 5, maxN := 1, cecBase := 0x04000000 } };
      s.params.legal ∧ 4 < Buf.edge.capacity s.params ∧ ¬ 4 + 1 < Buf.edge.capacity s.params) := by decide +kernel

theorem witness_IntBufferWords :
    State.reset.params.legal ∧ Buf.kx.elemBytes = 4 ∧ 65024 < Buf.kx.capacity State.reset.params ∧
      Buf.fy.elemBytes = 4 ∧ 1048575 < Buf.fy.capacity State.reset.params ∧ State.reset.status.busy = false := by
  decide +kernel

theorem witness_LongBufferWords :
    State.reset.params.legal ∧ Buf.mag2.elemBytes = 8 ∧ 1048575 < Buf.mag2.capacity State.reset.params ∧
      State.reset.status.busy = false := by decide +kernel

theorem witness_StatusLayoutAndClear : (0x4#32).getLsbD 2 = true ∧ (0xFFFFFFFB#32).getLsbD 2 = false := by decide

theorem witness_CtrlWrite : (0xFFFFFFFD#32).getLsbD 1 = false ∧ (0x2#32).getLsbD 1 = true := by decide

theorem witness_IrqLevel :
    RunningStages (busyAt .nop [.none] (pars 0 0 0 0)) [.none] ∧ (0x2#32).getLsbD 1 = true ∧
      (0x0#32).getLsbD 0 = false := by
  unfold RunningStages; decide +kernel

theorem witness_HardReset : { runInProgress with turns := [.rst, .host] }.turns = .rst :: [.host] := rfl

theorem witness_SoftReset :
    (0x3#32).getLsbD 1 = true ∧ State.reset.status.busy = false ∧
    (let s := busyAt .grad [.convY, .descaleXY] (pars 1 1 1 1);
      s.status.busy = true ∧ s.stages = .convY :: [.descaleXY] ∧ Buf.cy ∈ Stage.convY.outputs ∧
        3 < Buf.cy.elemBytes * (rows s * cols s) ∧
        ∀ b ∈ Stage.convY.outputs, 0x00400000 < b.base ∨
          b.base + b.elemBytes * (rows s * cols s) ≤ 0x00400000) := by decide +kernel

theorem witness_RhazIsNearest : 1 ≤ 255 ∧ 255 % 2 = 1 ∧ 2 * |(128 : Int) - 1 * 255| ≤ 255 := by decide

theorem witness_ConvolutionSumsBounded :
    let s := fillInts (busyAt .convX [.convX] (pars 1 1 1 1)) .kx [-8421504]
    (∑ di ∈ Finset.range (side s), ∑ dj ∈ Finset.range (side s), |s.elemInt .kx (di * side s + dj)|) ≤ 8421504 := by
  decide +kernel

theorem witness_Norm8IsExactRescale :
    (0 ∈ [0, 1, 4] ∧ 4 ∈ [0, 1, 4] ∧ (∀ v ∈ [0, 1, 4], 0 ≤ v ∧ v ≤ 4) ∧ 4 ≠ 0 ∧ 2 < [0, 1, 4].length) ∧
    (5 ∈ [5, 5] ∧ ∀ v ∈ [5, 5], 5 ≤ v ∧ v ≤ 5) := by decide

theorem witness_NmsNeverIncreases :
    Interior 3 3 1 1 ∧ ¬ Interior 3 3 0 1 ∧
    (let s := busyAt .nms [.nms] (pars 3 3 0 0);
      RunningStages s [.nms] ∧ RegionFits s ∧ (∃ t, exec .nms s = .next t) ∧ 2 < rows s ∧ 2 < cols s) := by
  refine ⟨by unfold Interior; decide, by unfold Interior; decide, ⟨rfl, rfl⟩, ?_, ⟨_, rfl⟩, by decide +kernel,
    by decide +kernel⟩
  exact fits _ _ (by decide)

theorem witness_TracerMarksExactlyReachable : 50 ≤ 100 ∧ 2 < 3 ∧ 0 < 3 := by decide

theorem witness_WorkListOrderIsIrrelevant : 50 ≤ 100 ∧ ∀ e, e < 3 * 3 → e ∈ (List.range 9).reverse := by decide

theorem witness_ZeroThresholds : Interior 3 3 1 1 ∧ Interior 5 7 3 5 := by unfold Interior; decide

theorem witness_HystProperties :
    ((50 ≤ 100 ∧ 1 < 3 ∧ 1 < 3) ∧ [0, 0, 0, 0, 49].getD (1 * 3 + 1) 0 < 50 ∧
      100 ≤ [0, 0, 0, 0, 100].getD (1 * 3 + 1) 0 ∧ Interior 3 3 1 1 ∧ ¬ Interior 3 3 2 2) ∧
    (let s := busyAt .hyst [.hyst] (pars 3 3 0 0);
      RunningStages s [.hyst] ∧ RegionFits s ∧ ∃ t u, exec .hyst s = .next t ∧
        exec .hyst { t with stages := [.hyst], status := { t.status with busy := true } } = .next u) := by
  refine ⟨by unfold Interior; decide, ⟨rfl, rfl⟩, ?_, ⟨_, _, rfl, rfl⟩⟩
  exact fits _ _ (by decide)

theorem witness_StepKeepsInvariant :
    (runInProgress.Inv ∧ ∃ t, step runInProgress = .next t) ∧ (idleIssuing.Inv ∧ ∃ t, step idleIssuing = .next t) :=
  ⟨⟨runInProgress_inv, ⟨_, rfl⟩⟩, ⟨idleIssuing_inv, ⟨_, rfl⟩⟩⟩

/-- Both sticky flags, cleared by a STATUS write, by a soft reset and by `rst`. -/
theorem witness_StickyFlagsStay :
    let s := { State.reset with status := { Status.reset with ovr := true, convOvf := true } }
    ∀ s' : State, s' = hosting s (.wr 0x14#26 0x18#32) ∨ s' = hosting s (.wr 0x10#26 0x2#32) ∨
      s' = { s with turns := [.rst] } →
      s'.status.ovr = true ∧ s'.status.convOvf = true ∧
        ∃ t, step s' = .next t ∧ t.status.ovr = false ∧ t.status.convOvf = false := by
  have key : ∀ o : Host.Outcome State Fault Refusal, after o (fun t => !t.status.ovr && !t.status.convOvf) = true →
      ∃ t, o = .next t ∧ t.status.ovr = false ∧ t.status.convOvf = false := by
    rintro (t | f | r) h
    · exact ⟨t, rfl, by simpa [after] using h⟩
    · exact absurd h (by simp [after])
    · exact absurd h (by simp [after])
  rintro s s' (rfl | rfl | rfl)
  · exact ⟨rfl, rfl, key _ (by decide +kernel)⟩
  · exact ⟨rfl, rfl, key _ (by decide +kernel)⟩
  · exact ⟨rfl, rfl, key _ (by decide +kernel)⟩

/-- A CEC that becomes busy, and one that becomes idle by its last stage. -/
theorem witness_BusyChangesOnlyAtAcceptAndEnd :
    (idleIssuing.Inv ∧ idleIssuing.status.busy = false ∧ ∃ t, step idleIssuing = .next t ∧ t.status.busy = true) ∧
    (let s := { runInProgress with stages := [.hyst], status := { runInProgress.status with stage := 7#3 } };
      s.Inv ∧ s.status.busy = true ∧ ∃ t, step s = .next t ∧ t.status.busy = false) := by
  refine ⟨⟨idleIssuing_inv, rfl, _, rfl, rfl⟩, ?_, rfl, _, rfl, rfl⟩
  have h := runInProgress_inv
  exact ⟨h.legal, h.memWf, h.backed, h.classes, by decide +kernel, by decide +kernel,
    fun _ => ⟨.run, rfl, by decide +kernel, ⟨[.convX, .convY, .descaleXY, .mag, .dir, .nms], rfl⟩⟩, h.errIff⟩

theorem witness_ConstantsNeverChange :
    (∃ t, step runInProgress = .next t) ∧ runInProgress.mover = .engine ∧
    (∃ t, step { runInProgress with turns := [.rst] } = .next t) ∧
    { runInProgress with turns := [.rst] }.mover = .rst ∧
    { State.reset with params := { maxH := 3, maxW := 1024, maxN := 5, cecBase := 0 } }.params.legal :=
  ⟨⟨_, rfl⟩, by decide +kernel, ⟨_, rfl⟩, by decide +kernel, by decide +kernel⟩

/-- Each kind of line, the end of the program, and addresses just outside a window that does not start at 0. -/
theorem witness_HostLineEffects :
    (let s := hosting State.reset (.rd 0x14#26);
      s.turns = .host :: [] ∧ s.host.prog[s.host.pc]? = some (.rd 0x14#26) ∧
        { s with host := { s.host with pc := 1 } }.host.prog[1]? = none) ∧
    (let s := { State.reset with params := { Params.reference with cecBase := 0x04000000 } };
      s.params.legal ∧ 0x03FFFFFF < s.params.cecBase ∧ s.params.cecBase + 0x04000000 ≤ 0x08000000) ∧
    let s := { hosting State.reset (.label 7) with host := { HostState.initial with prog := [.label 7], lastRead := 1#32 } }
    s.host.lastRead &&& 0x2#32 = 0#32 ∧ s.host.lastRead &&& 0x1#32 ≠ 0#32 ∧ HostLine.label 7 ∈ s.host.prog ∧
      HostLine.label 8 ∉ s.host.prog := by decide +kernel

theorem witness_KernelsOddSymmetric : 5 % 2 = 1 ∧ 0 < 5 ∧ 4 < 5 := by decide

theorem witness_KernelValuesBounded : (0 : ℝ) < 1 := by norm_num

theorem filterSize_of_valid {sigma T : ℝ} (h1 : 1 / 2 ≤ sigma) (h2 : 0 < T) (h3 : T < 1) :
    ∃ n s, Reference.filterSize sigma T = some (n, s) := by
  unfold Reference.filterSize
  rw [if_neg (by rintro (h | h | h) <;> linarith)]
  exact ⟨_, _, rfl⟩

theorem witness_FilterSizeOddAndMonotone :
    (∃ n s n' s', (1 : ℝ) ≤ 2 ∧ Reference.filterSize 1 (1 / 2) = some (n, s) ∧
      Reference.filterSize 2 (1 / 2) = some (n', s')) ∧
    (∃ n s n' s', (1 / 4 : ℝ) ≤ 1 / 2 ∧ Reference.filterSize 1 (1 / 4) = some (n, s) ∧
      Reference.filterSize 1 (1 / 2) = some (n', s')) := by
  obtain ⟨n, s, h⟩ := filterSize_of_valid (sigma := 1) (T := 1 / 2) (by norm_num) (by norm_num) (by norm_num)
  obtain ⟨n', s', h'⟩ := filterSize_of_valid (sigma := 2) (T := 1 / 2) (by norm_num) (by norm_num) (by norm_num)
  obtain ⟨n'', s'', h''⟩ := filterSize_of_valid (sigma := 1) (T := 1 / 4) (by norm_num) (by norm_num) (by norm_num)
  exact ⟨⟨n, s, n', s', by norm_num, h, h'⟩, ⟨n'', s'', n, s, by norm_num, h'', h⟩⟩

end Sys2Proof.Tests
end

/-! PROOFS. Two states that agree on what a stage reads give its outputs the same elements: a stage is one or two
region writes (R42, R207), and the lists it writes depend on its inputs alone. -/

namespace Sys2Proof.Machine

/-- Two states hold the same elements `0 .. n-1` in a buffer. -/
def AgreeOn (s s' : State) (b : Buf) (n : Nat) : Prop := ∀ e, e < n → s'.elem b e = s.elem b e

/-! ### Region writes -/

theorem AgreeOn.mono {s s' : State} {b : Buf} {m n : Nat} (h : AgreeOn s s' b n) (hmn : m ≤ n) : AgreeOn s s' b m :=
  fun e he => h e (lt_of_lt_of_le he hmn)

theorem agreeOn_writeRegion_same (s s' : State) (b : Buf) (v : List Nat) :
    AgreeOn (s.writeRegion b v) (s'.writeRegion b v) b v.length :=
  fun _ he => by rw [elem_writeRegion_same he, elem_writeRegion_same he]

theorem AgreeOn.writeRegion_ne {s s' : State} {p : Params} (hp : p.legal) {b c : Buf} {n : Nat}
    (h : AgreeOn s s' c n) (hbc : b ≠ c) {v : List Nat} (hv : v.length ≤ b.capacity p) (hn : n ≤ c.capacity p) :
    AgreeOn (s.writeRegion b v) (s'.writeRegion b v) c n := fun e he => by
  have hc : e < c.capacity p := lt_of_lt_of_le he hn
  rw [elem_writeRegion_ne hp hbc hv hc, elem_writeRegion_ne hp hbc hv hc, h e he]

/-- Two regions written one after the other with the same lists: the second write does not disturb what the first
left. -/
theorem agreeOn_writeRegion_two (s s' : State) {p : Params} (hp : p.legal) {b b' : Buf} (hb : b ≠ b') {n : Nat}
    {v v' : List Nat} (hv : v.length = n) (hv' : v'.length = n) (hn : n ≤ b.capacity p) (hn' : n ≤ b'.capacity p) :
    ∀ c ∈ [b, b'], AgreeOn ((s.writeRegion b v).writeRegion b' v') ((s'.writeRegion b v).writeRegion b' v') c n := by
  subst hv
  have h := (agreeOn_writeRegion_same s s' b v).writeRegion_ne hp hb.symm (hv'.trans_le hn') hn
  have h' := (agreeOn_writeRegion_same (s.writeRegion b v) (s'.writeRegion b v) b' v').mono hv'.ge
  simpa only [List.forall_mem_cons, List.not_mem_nil, false_imp_iff, implies_true, and_true] using ⟨h, h'⟩

theorem nmsStage_eq (s : State) :
    nmsStage s = (s.writeRegion .sup2 s.suppressed).writeRegion .sup8 (norm8 s.suppressed) := rfl

/-! ### The lists a stage writes depend on its inputs alone -/

section
variable {s s' : State} (hl : s'.latched = s.latched)
include hl

theorem convSums_congr {k : Buf} (hi : AgreeOn s s' .img s.latched.region)
    (hk : AgreeOn s s' k (s.latched.N * s.latched.N)) : s'.convSums k = s.convSums k := by
  rw [State.convSums, State.convSums, hl, elems_congr hi, elemInts_congr hk]

theorem magSquares_congr (hx : AgreeOn s s' .fx s.latched.region) (hy : AgreeOn s s' .fy s.latched.region) :
    s'.magSquares = s.magSquares := by
  rw [State.magSquares, State.magSquares, hl, elemInts_congr hx, elemInts_congr hy]

theorem suppressed_congr (hm : AgreeOn s s' .mag2 s.latched.region) (hq : AgreeOn s s' .q s.latched.region) :
    s'.suppressed = s.suppressed := by
  rw [State.suppressed, State.suppressed, hl, elems_congr hm, elemClasses_congr hq]

/-! ### Each stage -/

theorem convStage_agreeOn {k : Buf} (out : Buf) (hi : AgreeOn s s' .img s.latched.region)
    (hk : AgreeOn s s' k (s.latched.N * s.latched.N)) :
    AgreeOn (convStage k out s) (convStage k out s') out s.latched.region := fun e he => by
  rw [convStage, convStage, elem_orConvOvf, elem_orConvOvf, convSums_congr hl hi hk]
  exact agreeOn_writeRegion_same s s' out _ e (by simpa using he)

theorem descaleStage_agreeOn {src : Buf} (out : Buf) (hc : AgreeOn s s' src s.latched.region) :
    AgreeOn (descaleStage src out s) (descaleStage src out s') out s.latched.region := fun e he => by
  rw [descaleStage, descaleStage, hl, elemInts_congr hc]
  exact agreeOn_writeRegion_same s s' out _ e (by simpa using he)

theorem hystStage_agreeOn (h : AgreeOn s s' .sup2 s.latched.region) :
    AgreeOn (hystStage s) (hystStage s') .edge s.latched.region := fun e he => by
  rw [hystStage, hystStage, hl, elems_congr h]
  exact agreeOn_writeRegion_same s s' .edge _ e (by simpa using he)

variable {p : Params} (hp : p.legal) (hr : s.latched.region ≤ p.maxH * p.maxW)
include hp hr

/-- The second DESCALE reads CY and writes FY, both apart from the FX region the first one wrote (R126). -/
theorem descaleBoth_agreeOn (hx : AgreeOn s s' .cx s.latched.region) (hy : AgreeOn s s' .cy s.latched.region) :
    ∀ b ∈ [Buf.fx, .fy], AgreeOn (descaleBoth s) (descaleBoth s') b s.latched.region := by
  have hcy : AgreeOn (descaleStage .cx .fx s) (descaleStage .cx .fx s') .cy s.latched.region := by
    rw [descaleStage, descaleStage, hl, elemInts_congr hx]
    exact hy.writeRegion_ne hp (by decide) (by simpa [Buf.capacity] using hr) hr
  have hvals : (descaleStage .cx .fx s').elemInts .cy s.latched.region =
      (descaleStage .cx .fx s).elemInts .cy s.latched.region := elemInts_congr hcy
  simp only [descaleBoth, descaleStage, writeRegion_latched, hl, elemInts_congr hx] at hvals ⊢
  rw [hvals]
  exact agreeOn_writeRegion_two s s' hp (by decide) (by simp) (by simp) hr hr

theorem magStage_agreeOn (hx : AgreeOn s s' .fx s.latched.region) (hy : AgreeOn s s' .fy s.latched.region) :
    ∀ b ∈ [Buf.mag2, .mag8], AgreeOn (magStage s) (magStage s') b s.latched.region := by
  rw [magStage, magStage, magSquares_congr hl hx hy]
  exact agreeOn_writeRegion_two s s' hp (by decide) (by simp) (by simp) hr hr

theorem dirStage_agreeOn (hx : AgreeOn s s' .fx s.latched.region) (hy : AgreeOn s s' .fy s.latched.region) :
    ∀ b ∈ [Buf.phi8, .q], AgreeOn (dirStage s) (dirStage s') b s.latched.region := by
  rw [dirStage, dirStage, hl, elemInts_congr hx, elemInts_congr hy]
  exact agreeOn_writeRegion_two s s' hp (by decide) (by simp) (by simp) hr hr

theorem nmsStage_agreeOn (hm : AgreeOn s s' .mag2 s.latched.region) (hq : AgreeOn s s' .q s.latched.region) :
    ∀ b ∈ [Buf.sup2, .sup8], AgreeOn (nmsStage s) (nmsStage s') b s.latched.region := by
  rw [nmsStage_eq, nmsStage_eq, suppressed_congr hl hm hq]
  exact agreeOn_writeRegion_two s s' hp (by decide) (by simp) (by simp) hr hr

/-- The inputs of each stage are kernels and image-sized buffers it does not write, so agreement on those carries over
to its outputs (R3). -/
theorem performStage_agreeOn (st : Stage)
    (himg : ∀ b, b ∉ st.outputs → b.capacity p = p.maxH * p.maxW → AgreeOn s s' b s.latched.region)
    (hker : ∀ k ∈ [Buf.kx, .ky], AgreeOn s s' k (s.latched.N * s.latched.N)) :
    ∀ b ∈ st.outputs, AgreeOn (performStage st s) (performStage st s') b s.latched.region := by
  cases st with
  | none => exact fun b hb => absurd hb List.not_mem_nil
  | convX =>
    exact List.forall_mem_singleton.2
      (convStage_agreeOn hl .cx (himg .img (by decide) rfl) (hker .kx (by decide)))
  | convY =>
    exact List.forall_mem_singleton.2
      (convStage_agreeOn hl .cy (himg .img (by decide) rfl) (hker .ky (by decide)))
  | descaleX => exact List.forall_mem_singleton.2 (descaleStage_agreeOn hl .fx (himg .cx (by decide) rfl))
  | descaleY => exact List.forall_mem_singleton.2 (descaleStage_agreeOn hl .fy (himg .cy (by decide) rfl))
  | descaleXY => exact descaleBoth_agreeOn hl hp hr (himg .cx (by decide) rfl) (himg .cy (by decide) rfl)
  | mag => exact magStage_agreeOn hl hp hr (himg .fx (by decide) rfl) (himg .fy (by decide) rfl)
  | dir => exact dirStage_agreeOn hl hp hr (himg .fx (by decide) rfl) (himg .fy (by decide) rfl)
  | nms => exact nmsStage_agreeOn hl hp hr (himg .mag2 (by decide) rfl) (himg .q (by decide) rfl)
  | hyst => exact List.forall_mem_singleton.2 (hystStage_agreeOn hl (himg .sup2 (by decide) rfl))

end

/-- No stage writes a kernel (R42). -/
theorem Stage.kernel_notMem_outputs (st : Stage) : ∀ k ∈ [Buf.kx, .ky], k ∉ st.outputs := by
  cases st <;> decide

end Sys2Proof.Machine

namespace Sys2Proof.Slice0
open Sys2Proof.Machine

theorem RegionFits.region_le {s : State} (h : RegionFits s) :
    s.latched.region ≤ s.params.maxH * s.params.maxW := by
  obtain ⟨-, -, hH, -, hW⟩ := h
  exact Nat.mul_le_mul hH hW

/-- Settles O24: a valid latched set keeps a stage's reads below the capacities, where the two states agree. -/
theorem stagesDoNotReadTheirOutputs : Obligations.StagesDoNotReadTheirOutputs := by
  intro st s s' hfit hks hl _ hagree
  have hr := hfit.region_le
  have hagree' : ∀ b, b ∉ st.outputs → AgreeOn s s' b (b.capacity s.params) := hagree
  refine performStage_agreeOn hl hfit.1 hr st (fun b hb hcap => (hagree' b hb).mono (hcap ▸ hr)) fun k hk => ?_
  have hcap : k.capacity s.params = s.params.maxN * s.params.maxN := by
    simp only [List.mem_cons, List.not_mem_nil, or_false] at hk
    rcases hk with rfl | rfl <;> rfl
  obtain ⟨-, -, hN⟩ := hks
  exact (hagree' k (st.kernel_notMem_outputs k hk)).mono (hcap ▸ Nat.mul_le_mul hN hN)

end Sys2Proof.Slice0

/-! PROOFS. What one step of the machine does, as one case per kind of effect: who moved, and for a host write which
register or buffer it reached (20_memory R61, R72).  The rules about all steps are case analyses over it; the invariant
first (10_state R30 to R32, R41). -/

namespace Sys2Proof.Machine

/-! ### Writes of the host -/

@[simp] theorem busWrite_reg (r : Reg) (w : Word) (s : State) : busWrite r.offset w s = regWrite r w s := by
  rw [busWrite, access_reg]

/-- A register is served only at its own offset (R22). -/
theorem offset_of_access_reg {s : State} {a : Nat} {r : Reg} (h : s.access a = some (.reg r)) : r.offset = a := by
  unfold State.access at h
  split at h
  · cases h
  · split at h
    · obtain ⟨r', hr', heq⟩ := Option.map_eq_some_iff.1 h
      cases heq
      exact Reg.at?_eq_some hr'
    · split at h
      · cases h
      · split at h
        · cases h
        · split at h <;> cases h

/-- What a write transaction does: nothing (busError), a buffer write, or a register write (R61, R66). -/
theorem busWrite_cases {a : Nat} {v : Word} {s t : State} (h : busWrite a v s = .next t) :
    t = s ∨ (∃ b, s.access a = some (.buf b) ∧ t = s.bufWrite b a v) ∨
      (∃ r : Reg, r.offset = a ∧ regWrite r v s = .next t) := by
  unfold busWrite at h
  split at h
  case h_1 =>
    injection h with h
    exact .inl h.symm
  case h_2 r hr => exact .inr (.inr ⟨r, offset_of_access_reg hr, h⟩)
  case h_3 b hb =>
    injection h with h
    exact .inr (.inl ⟨b, hb, h.symm⟩)

/-! ### Steps -/

/-- The state in which a host transaction takes effect: the turn is spent and the host has become `h`. -/
def State.hostMoved (s : State) (h : HostState) : State := { s.turnSpent with host := h }


/-- The effects a step can have on the state (R30 to R34, R61, R72, R205 to R210, R250). -/
inductive StepEffect (s : State) : State → Prop where
  | hardReset (hm : s.mover = .rst) : StepEffect s (hardReset s.turnSpent)
  | engineIdle (hm : s.mover = .engine) : StepEffect s s.turnSpent
  | engineStep (hm : s.mover = .engine) (hb : s.status.busy = true) : StepEffect s (engineStep s.turnSpent)
  /-- Reads, labels, branches, bus errors, writes that a register ignores, and writes of parameters and of IE. -/
  | registers (hm : s.mover = .host) (h : HostState) (p : ParamRegs) (ie : Bool) :
      StepEffect s { s.hostMoved h with live := p, ie := ie }
  | bufWrite (hm : s.mover = .host) (h : HostState) (b : Buf) (a : Nat) (v : Word)
      (ha : (s.hostMoved h).access a = some (.buf b)) : StepEffect s ((s.hostMoved h).bufWrite b a v)
  | softReset (h : HostState) (w : Word) (hw : s.hostWrites 0x010 w) (h1 : w.getLsbD 1 = true) :
      StepEffect s (softReset (s.hostMoved h))
  | clearBits (h : HostState) (w : Word) (hw : s.hostWrites 0x014 w) :
      StepEffect s { s.hostMoved h with status := s.status.clearBits w }
  | overrun (h : HostState) (hm : s.mover = .host) (hb : s.status.busy = true) :
      StepEffect s { s.hostMoved h with status := { s.status with ovr := true } }
  | refused (h : HostState) (w : Word) (c : ErrCode) (hm : s.mover = .host) (hb : s.status.busy = false)
      (hc : c ≠ .none) : StepEffect s ((s.hostMoved h).refuse w c)
  | started (h : HostState) (w : Word) (i : Instr) (hw : s.hostWrites 0x018 w) (hb : s.status.busy = false)
      (hd : decode w = .ok i) (hv : validate s.params s.live (checksOf i) = .none) :
      StepEffect s ((s.hostMoved h).start i)

/-- A register write by the host (R22, R27 to R29, R35 to R38). -/
theorem stepEffect_of_regWrite {s t : State} {h : HostState} {r : Reg} {w : Word}
    (hw : s.hostWrites r.offset w) (ht : regWrite r w (s.hostMoved h) = .next t) : StepEffect s t := by
  have hm := hw.1
  cases r with
  | ctrl =>
    injection ht with ht
    subst ht
    unfold ctrlWrite
    split
    case isTrue h1 => exact .softReset h w hw h1
    case isFalse => exact .registers hm h s.live (w.getLsbD 0)
  | cmd =>
    obtain ⟨hb, he⟩ | ⟨hb, w', c, hc, he⟩ | ⟨hb, i, hd, hv, he⟩ := cmdWrite_cases w (s.hostMoved h) <;>
      cases he.symm.trans ht
    · exact .overrun h hm hb
    · exact .refused h w' c hm hb hc
    · exact .started h w i hw hb hd hv
  | status =>
    injection ht with ht
    subst ht
    exact .clearBits h w hw
  | _ =>
    injection ht with ht
    subst ht
    exact .registers hm h _ s.ie

/-- A write line of the host (R61). -/
theorem stepEffect_of_busWrite {s t : State} {h : HostState} {a : Addr} {v : Word} (hm : s.mover = .host)
    (hl : s.host.prog[s.host.pc]? = some (.wr a v)) (ht : busWrite a.toNat v (s.hostMoved h) = .next t) :
    StepEffect s t := by
  obtain rfl | ⟨b, ha, rfl⟩ | ⟨r, hr, ht⟩ := busWrite_cases ht
  · exact .registers hm h s.live s.ie
  · exact .bufWrite hm h b _ v ha
  · have ha : a = BitVec.ofNat 26 r.offset := by rw [hr, BitVec.ofNat_toNat, BitVec.setWidth_eq]
    exact stepEffect_of_regWrite ⟨hm, ha ▸ hl⟩ ht

/-- Every step has one of the effects. -/
theorem stepEffect_of_step {s t : State} (h : step s = .next t) : StepEffect s t := by
  obtain ⟨hm, rfl⟩ | ⟨hm, rfl⟩ | ⟨hm, hh⟩ := step_cases h
  · exact .hardReset hm
  · split
    case isTrue hb => exact .engineStep hm hb
    case isFalse => exact .engineIdle hm
  · obtain ⟨-, rfl⟩ | ⟨a, v, hl, hw⟩ | ⟨-, ht⟩ := hostTurn_cases hh
    · exact .registers hm s.host s.live s.ie
    · exact stepEffect_of_busWrite hm hl hw
    · rw [ht]
      exact .registers hm t.host s.live s.ie

/-! ### What an engine step and a reset leave -/

theorem engineStep_cases (s : State) : (s.stages = [] ∧ engineStep s = s) ∨
    ∃ st rest, s.stages = st :: rest ∧ engineStep s = (performStage st s).advance rest := by
  cases hs : s.stages with
  | nil => exact .inl ⟨rfl, by rw [engineStep, hs]⟩
  | cons st rest => exact .inr ⟨st, rest, rfl, engineStep_cons hs⟩

theorem abort_idle {s : State} (hb : s.status.busy = false) : s.abort = s := by
  rw [State.abort, hb, if_neg (by decide)]

theorem abort_busy {s : State} {st : Stage} {rest : List Stage} (hb : s.status.busy = true)
    (hs : s.stages = st :: rest) :
    s.abort = { s.drawOutputs s.nextDraw st.outputs with stages := [], nextDraw := s.nextDraw + 1 } := by
  rw [State.abort, if_pos hb, hs]

/-! ### The invariant, kept by each effect -/

/-- A command that has a stage at all checks the dimensions (R206). -/
theorem checksOf_dim_of_mem_stagesOf {i : Instr} {st : Stage} (h : st ∈ stagesOf i) (hst : st ≠ .none) :
    (checksOf i).dim = true := by
  cases i with
  | nop => exact absurd (List.mem_singleton.1 h) hst
  | _ => rfl

theorem errIff_reset : Status.reset.err = true ↔ Status.reset.errcode ≠ .none := by decide

namespace State.Inv
variable {s : State} (hi : s.Inv)
include hi

theorem memOk : MemOk s.params s.mem := ⟨hi.memWf, hi.backed, hi.classes⟩

theorem stages_eq_nil (hb : s.status.busy = false) : s.stages = [] := by
  by_contra hs
  rw [hi.busyIff.2 hs] at hb
  cases hb

theorem busy_of_stages {st : Stage} {rest : List Stage} (hs : s.stages = st :: rest) : s.status.busy = true :=
  hi.busyIff.2 (by rw [hs]; exact List.cons_ne_nil _ _)

/-- The region of a running command fits the buffers: it was validated on the latched set (R205, R206). -/
theorem region_le {st : Stage} {rest : List Stage} (hs : s.stages = st :: rest) (hst : st ≠ .none) :
    s.latched.region ≤ s.params.maxH * s.params.maxW := by
  obtain ⟨i, -, hv, hsuf⟩ := hi.busyRuns (hi.busy_of_stages hs)
  have hmem : st ∈ stagesOf i := hsuf.subset (hs ▸ List.mem_cons_self)
  have hdim := ((validate_none_iff _ _ _).1 hv).1 (checksOf_dim_of_mem_stagesOf hmem hst)
  obtain ⟨-, hH, -, hW⟩ := (dimOk_iff _ _).1 hdim
  exact Nat.mul_le_mul hH hW

omit hi in
/-- An idle state meets the invariant when its memory does: the clauses about a running command are empty. -/
theorem of_idle (hl : s.params.legal) (hm : MemOk s.params s.mem) (hb : s.status.busy = false) (hs : s.stages = [])
    (he : s.status.err = true ↔ s.status.errcode ≠ .none) : s.Inv where
  legal := hl
  memWf := hm.wf
  backed := hm.backed
  classes := hm.classes
  busyIff := by simp [hb, hs]
  busyFlags h := absurd h (by simp [hb])
  busyRuns h := absurd h (by simp [hb])
  errIff := he

/-- The host, the turns, the live parameters and IE are free. -/
theorem registers (h : HostState) (p : ParamRegs) (ie : Bool) :
    State.Inv { s.hostMoved h with live := p, ie := ie } :=
  ⟨hi.legal, hi.memWf, hi.backed, hi.classes, hi.busyIff, hi.busyFlags, hi.busyRuns, hi.errIff⟩

theorem hostMoved (h : HostState) : (s.hostMoved h).Inv := hi.registers h s.live s.ie

theorem turnSpent : s.turnSpent.Inv := hi.registers s.host s.live s.ie

theorem hardReset : (hardReset s).Inv :=
  .of_idle hi.legal ⟨.nil, by simp [Machine.hardReset, State.reset], by simp [Machine.hardReset, State.reset]⟩ rfl
    rfl errIff_reset

theorem engineStep : (engineStep s).Inv := by
  obtain ⟨-, he⟩ | ⟨st, rest, hs, he⟩ := engineStep_cases s
  · rwa [he]
  · have hb := hi.busy_of_stages hs
    obtain ⟨i, hcmd, hv, hsuf⟩ := hi.busyRuns hb
    have hmem : MemOk s.params ((performStage st s).advance rest).mem := by
      simpa using hi.memOk.stage hi.legal st (hi.region_le hs)
    rw [he]
    cases rest with
    | nil => exact .of_idle (by simpa using hi.legal) (by simpa using hmem) rfl rfl (by simpa using hi.errIff)
    | cons nx more =>
      exact {
        legal := by simpa using hi.legal
        memWf := hmem.wf
        backed := by simpa [State.memBacked] using hmem.backed
        classes := hmem.classes
        busyIff := by simp [hb]
        busyFlags := fun _ => ⟨rfl, by simpa using (hi.busyFlags hb).2⟩
        busyRuns := fun _ => ⟨i, by simpa using hcmd, by simpa using hv, by
          simpa using (List.suffix_cons st _).trans (hs ▸ hsuf)⟩
        errIff := by simpa using hi.errIff }

theorem bufWrite {b : Buf} {a : Nat} (ha : s.access a = some (.buf b)) (v : Word) : (s.bufWrite b a v).Inv :=
  have hm := hi.memOk.buf hi.legal rfl ha v
  ⟨hi.legal, hm.wf, hm.backed, hm.classes, hi.busyIff, hi.busyFlags, hi.busyRuns, hi.errIff⟩

/-- An abort leaves no stage, and draws inside the regions of the stage it stops (R210). -/
theorem abort : s.abort.params = s.params ∧ MemOk s.params s.abort.mem ∧ s.abort.stages = [] := by
  cases hb : s.status.busy with
  | false => rw [abort_idle hb]; exact ⟨rfl, hi.memOk, hi.stages_eq_nil hb⟩
  | true =>
    obtain ⟨st, rest, hs⟩ := List.exists_cons_of_ne_nil (hi.busyIff.1 hb)
    have hm : MemOk s.params (s.drawOutputs s.nextDraw st.outputs).mem :=
      hi.memOk.draws hi.legal st.outputs s.nextDraw fun b hbo => by
        rw [out_cap hbo]
        exact hi.region_le hs (by rintro rfl; cases hbo)
    rw [abort_busy hb hs]
    exact ⟨by rw [drawOutputs_eq], hm, rfl⟩

theorem softReset : (softReset s).Inv := by
  obtain ⟨hp, hm, hs⟩ := hi.abort
  rw [← hp] at hm
  exact .of_idle (hp ▸ hi.legal) hm rfl hs errIff_reset

/-- DONE and ERR are 0 while busy, so a STATUS write then clears nothing the invariant speaks of (R29, R31). -/
theorem clearBits (w : Word) : State.Inv { s with status := s.status.clearBits w } := by
  refine ⟨hi.legal, hi.memWf, hi.backed, hi.classes, hi.busyIff, fun hb => ?_, hi.busyRuns, ?_⟩
  · obtain ⟨hst, hd, he⟩ := hi.busyFlags hb
    exact ⟨hst, by simp [Status.clearBits, hd], by simp [Status.clearBits, he]⟩
  · cases hw : w.getLsbD 2 <;> simp [Status.clearBits, hw, hi.errIff, and_comm]

theorem overrun : State.Inv { s with status := { s.status with ovr := true } } :=
  ⟨hi.legal, hi.memWf, hi.backed, hi.classes, hi.busyIff, hi.busyFlags, hi.busyRuns, hi.errIff⟩

theorem refuse (hb : s.status.busy = false) (w : Word) {c : ErrCode} (hc : c ≠ .none) : (s.refuse w c).Inv :=
  .of_idle hi.legal hi.memOk hb (hi.stages_eq_nil hb) (by simpa using hc)

/-- The accept latches the parameters it validated and lists all the command's stages (R205). -/
theorem start {i : Instr} (hv : validate s.params s.live (checksOf i) = .none) : (s.start i).Inv where
  legal := hi.legal
  memWf := hi.memWf
  backed := hi.backed
  classes := hi.classes
  busyIff := by simp [stagesOf_ne_nil]
  busyFlags _ := ⟨rfl, rfl, rfl⟩
  busyRuns _ := ⟨i, rfl, hv, List.suffix_refl _⟩
  errIff := by simp

theorem stepEffect {t : State} (h : StepEffect s t) : t.Inv := by
  cases h with
  | hardReset => exact hi.turnSpent.hardReset
  | engineIdle => exact hi.turnSpent
  | engineStep => exact hi.turnSpent.engineStep
  | registers _ h p ie => exact hi.registers h p ie
  | bufWrite _ h b a v ha => exact (hi.hostMoved h).bufWrite ha v
  | softReset h => exact (hi.hostMoved h).softReset
  | clearBits h w => exact (hi.hostMoved h).clearBits w
  | overrun h => exact (hi.hostMoved h).overrun
  | refused h w c _ hb hc => exact (hi.hostMoved h).refuse hb w hc
  | started h w i _ _ _ hv => exact (hi.hostMoved h).start hv

end State.Inv

end Sys2Proof.Machine

namespace Sys2Proof.Slice0
open Sys2Proof.Machine

/-- Settles O53: each effect a step can have keeps the invariant. -/
theorem stepKeepsInvariant : Obligations.StepKeepsInvariant :=
  fun _ _ hi h => hi.stepEffect (stepEffect_of_step h)

end Sys2Proof.Slice0

/-! PROOFS. The rules about all steps and about a busy step, read off the effects: what keeps OVR and CONV_OVF, what
moves BUSY, what never changes, and what an engine step leaves alone (10_state R30, R33, R34, R42). -/

namespace Sys2Proof.Machine

/-! ### Decoding -/

theorem toNat_encode_of_decodePlain {n : Nat} {i : Instr} (h : decodePlain n = some i) : (encode i).toNat = n := by
  unfold decodePlain at h
  split at h <;> cases h <;> rfl

theorem toNat_encode_of_decodeSelected {n : Nat} {i : Instr} (h : decodeSelected n = some i) :
    (encode i).toNat = n + 256 := by
  unfold decodeSelected at h
  split at h <;> cases h <;> rfl

/-- A word with RSVD = 0 is its OPCODE and its KSEL bit (R90 to R93). -/
theorem toNat_of_rsvdOk {w : Word} (h : Word.rsvdOk w = true) :
    w.toNat = Word.opcode w + 256 * (Word.ksel w).toNat := by
  have hr : w.toNat / 512 = 0 := by simpa [Word.rsvdOk, Word.rsvd] using h
  have hk : (Word.ksel w).toNat = w.toNat / 2 ^ 8 % 2 := by
    rw [Word.ksel, ← BitVec.testBit_toNat, Nat.toNat_testBit]
  rw [hk, Word.opcode]
  omega

/-- The only word that decodes to a command is that command's word (R94). -/
theorem eq_encode_of_decode {w : Word} {i : Instr} (h : decode w = .ok i) : w = encode i := by
  unfold decode at h
  split at h
  case isFalse => cases h
  case isTrue hr =>
    have hw := toNat_of_rsvdOk hr
    apply BitVec.eq_of_toNat_eq
    split at h
    case h_1 => cases h
    case h_2 hp =>
      split at h
      case isFalse hk =>
        cases h
        rw [hw, toNat_encode_of_decodePlain hp, Bool.eq_false_iff.2 hk]
        rfl
      case isTrue hk =>
        split at h
        case h_1 hs =>
          cases h
          rw [hw, toNat_encode_of_decodeSelected hs, hk]
          rfl
        case h_2 => cases h

/-! ### Engine steps -/

@[simp] theorem advance_ovr (s : State) (r : List Stage) : (s.advance r).status.ovr = s.status.ovr := by
  cases r <;> rfl
@[simp] theorem advance_convOvf (s : State) (r : List Stage) : (s.advance r).status.convOvf = s.status.convOvf := by
  cases r <;> rfl
theorem advance_with_live (s : State) (p : ParamRegs) (r : List Stage) :
    State.advance { s with live := p } r = { s.advance r with live := p } := by
  cases r <;> rfl

@[simp] theorem engineStep_params (s : State) : (engineStep s).params = s.params := by
  obtain ⟨-, he⟩ | ⟨st, rest, -, he⟩ := engineStep_cases s <;> simp [he]
@[simp] theorem engineStep_host (s : State) : (engineStep s).host = s.host := by
  obtain ⟨-, he⟩ | ⟨st, rest, -, he⟩ := engineStep_cases s <;> simp [he]
@[simp] theorem engineStep_ovr (s : State) : (engineStep s).status.ovr = s.status.ovr := by
  obtain ⟨-, he⟩ | ⟨st, rest, -, he⟩ := engineStep_cases s <;> simp [he]

/-- An engine step never clears CONV_OVF (R33, R121). -/
theorem engineStep_convOvf {s : State} (h : s.status.convOvf = true) : (engineStep s).status.convOvf = true := by
  obtain ⟨-, he⟩ | ⟨st, rest, -, he⟩ := engineStep_cases s
  · rwa [he]
  · rw [he, advance_convOvf, performStage_convOvf st s h]

/-- An engine step ends the command only with its last stage (R207). -/
theorem length_stages_of_engineStep_idle {s : State} (hb : s.status.busy = true)
    (ht : (engineStep s).status.busy = false) : s.stages.length = 1 := by
  obtain ⟨-, he⟩ | ⟨st, rest, hs, he⟩ := engineStep_cases s <;> rw [he] at ht
  · rw [hb] at ht
    cases ht
  · cases rest with
    | nil => rw [hs]; rfl
    | cons nx more => simp [hb] at ht

/-- The live parameters ride along with an engine step (R34). -/
theorem engineStep_with_live (s : State) (p : ParamRegs) :
    engineStep { s with live := p } = { engineStep s with live := p } := by
  obtain ⟨hs, he⟩ | ⟨st, rest, hs, he⟩ := engineStep_cases s <;> rw [he]
  · simp only [engineStep, hs]
  · rw [engineStep_cons (s := { s with live := p }) hs, performStage_live_irrelevant, advance_with_live]

/-- An engine step leaves every element of a buffer that no stage writes, and every element past the region (R42). -/
theorem elem_engineStep_other {s : State} {p : Params} (hp : p.legal) (hr : s.latched.region ≤ p.maxH * p.maxW)
    {b : Buf} {e : Nat} (he : e < b.capacity p) (h : (∀ st : Stage, b ∉ st.outputs) ∨ s.latched.region ≤ e) :
    (engineStep s).elem b e = s.elem b e := by
  obtain ⟨-, hs⟩ | ⟨st, rest, -, hs⟩ := engineStep_cases s
  · rw [hs]
  · rw [hs, elem_advance]
    exact elem_performStage_other st hp hr he (h.imp_left fun h => h st)

/-- No stage writes the image or a kernel (R42). -/
theorem Stage.input_notMem_outputs : ∀ b ∈ [Buf.img, .kx, .ky], ∀ st : Stage, b ∉ st.outputs := by
  intro b hb st
  cases st <;> revert b <;> decide

/-! ### Resets -/

@[simp] theorem softReset_params (s : State) : (softReset s).params = s.params := by
  show s.abort.params = s.params
  unfold State.abort
  split
  · split
    · rfl
    · rw [drawOutputs_eq]
  · rfl

/-! ### All steps -/

/-- The implementation parameters are constants (R7, R26). -/
theorem StepEffect.params {s t : State} (h : StepEffect s t) : t.params = s.params := by
  cases h with
  | engineStep => exact engineStep_params _
  | softReset => exact softReset_params _
  | _ => rfl

/-- A step keeps the sticky flags that are set, but for a reset and for a STATUS write, which clears the bits it names
(R33). -/
theorem StepEffect.sticky {s t : State} (h : StepEffect s t) :
    s.mover = .rst ∨ (∃ w, s.hostWrites 0x010 w ∧ w.getLsbD 1 = true) ∨
      (∃ w, s.hostWrites 0x014 w ∧ t.status = s.status.clearBits w) ∨
      ((s.status.ovr = true → t.status.ovr = true) ∧ (s.status.convOvf = true → t.status.convOvf = true)) := by
  cases h with
  | hardReset hm => exact .inl hm
  | softReset h w hw h1 => exact .inr (.inl ⟨w, hw, h1⟩)
  | clearBits h w hw => exact .inr (.inr (.inl ⟨w, hw, rfl⟩))
  | engineStep => exact .inr (.inr (.inr ⟨fun h => by simpa using h, engineStep_convOvf (s := s.turnSpent)⟩))
  | overrun => exact .inr (.inr (.inr ⟨fun _ => rfl, id⟩))
  | _ => exact .inr (.inr (.inr ⟨id, id⟩))

/-- BUSY rises only by the start of a command that validation passed, on the live parameters it latches (R30, R205). -/
theorem StepEffect.started_of_busy_rises {s t : State} (h : StepEffect s t) (hs : s.status.busy = false)
    (ht : t.status.busy = true) :
    ∃ i, s.hostWrites 0x018 (encode i) ∧ validate s.params s.live (checksOf i) = .none ∧
      t.latched = s.live ∧ t.cmd = encode i := by
  have kept (he : t.status.busy = s.status.busy) : False := by simp [he, hs] at ht
  cases h with
  | started h w i hw _ hd hv => exact ⟨i, eq_encode_of_decode hd ▸ hw, hv, rfl, rfl⟩
  | hardReset => cases ht
  | softReset => cases ht
  | engineStep _ hb => exact absurd hb (by simp [hs])
  | _ => exact (kept rfl).elim

/-- BUSY falls only by the engine step of the last stage or by a reset (R30, R207, R210, R250). -/
theorem StepEffect.ended_of_busy_falls {s t : State} (h : StepEffect s t) (hs : s.status.busy = true)
    (ht : t.status.busy = false) :
    (s.mover = .engine ∧ s.stages.length = 1) ∨ s.mover = .rst ∨
      (∃ w, s.hostWrites 0x010 w ∧ w.getLsbD 1 = true) := by
  have kept (he : t.status.busy = s.status.busy) : False := by simp [he, hs] at ht
  cases h with
  | engineStep hm => exact .inl ⟨hm, length_stages_of_engineStep_idle (s := s.turnSpent) hs ht⟩
  | hardReset hm => exact .inr (.inl hm)
  | softReset h w hw h1 => exact .inr (.inr ⟨w, hw, h1⟩)
  | started => cases ht
  | _ => exact (kept rfl).elim

/-- Neither the engine nor a hard reset touches the host (R71; log 19). -/
theorem StepEffect.host {s t : State} (h : StepEffect s t) (hm : s.mover ≠ .host) : t.host = s.host := by
  cases h with
  | hardReset | engineIdle => rfl
  | engineStep => exact engineStep_host _
  | registers hm' | bufWrite hm' | overrun _ hm' | refused _ _ _ hm' => exact absurd hm' hm
  | softReset _ _ hw | clearBits _ _ hw | started _ _ _ hw => exact absurd hw.1 hm

end Sys2Proof.Machine

namespace Sys2Proof.Slice0
open Sys2Proof.Machine

/-- Settles O18: no stage looks at the live parameters, and `advance` does not either. -/
theorem runningCommandIgnoresLiveParameters : Obligations.RunningCommandIgnoresLiveParameters := by
  intro i s t p hb h
  rw [exec_next, if_pos hb] at h
  injection h with h
  rw [exec_next, if_pos hb, engineStep_with_live, h]

/-- Settles O25: a stage writes its region of its outputs alone, and none of these is an input buffer. -/
theorem commandsWriteOnlyTheirRegions : Obligations.CommandsWriteOnlyTheirRegions := by
  intro i s t hb hfit h
  rw [exec_next, if_pos hb] at h
  injection h with h
  subst h
  have hr := hfit.region_le
  exact ⟨fun b hin e he => elem_engineStep_other hfit.1 hr he (.inl (Stage.input_notMem_outputs b hin)),
    fun b e hre he => elem_engineStep_other hfit.1 hr he (.inr hre)⟩

/-- Settles O54: the one other step that clears a sticky flag is a STATUS write, which clears the bits it names. -/
theorem stickyFlagsStay : Obligations.StickyFlagsStay := by
  intro s t h
  obtain hm | hw | ⟨w, hw, hst⟩ | ⟨hovr, hconv⟩ := (stepEffect_of_step h).sticky
  · exact ⟨fun _ _ => .inl hm, fun _ _ => .inl hm⟩
  · exact ⟨fun _ _ => .inr (.inr hw), fun _ _ => .inr (.inr hw)⟩
  · refine ⟨fun hs ht => .inr (.inl ⟨w, hw, ?_⟩), fun hs ht => .inr (.inl ⟨w, hw, ?_⟩)⟩
    · simpa [hst, Status.clearBits, hs] using ht
    · simpa [hst, Status.clearBits, hs] using ht
  · exact ⟨fun hs ht => absurd (hovr hs) (by simp [ht]), fun hs ht => absurd (hconv hs) (by simp [ht])⟩

/-- Settles O55: a start is a CMD write that validation passed; an end is the last stage or a reset. -/
theorem busyChangesOnlyAtAcceptAndEnd : Obligations.BusyChangesOnlyAtAcceptAndEnd := by
  intro s t _ h
  have heff := stepEffect_of_step h
  refine ⟨fun hs ht => ?_, heff.ended_of_busy_falls⟩
  obtain ⟨i, hw, hv, hl, hc⟩ := heff.started_of_busy_rises hs ht
  obtain ⟨hdim, hks, hsc⟩ := (validate_none_iff _ _ _).1 hv
  refine ⟨i, hw, fun hi => (dimOk_iff _ _).1 (hdim ?_), fun hi => (ksizeOk_iff _ _).1 (hks ?_),
    fun hi => (scaleOk_iff _).1 (hsc ?_), hl, hc⟩
  · cases i with
    | nop => exact absurd rfl hi
    | _ => rfl
  · revert hi; cases i <;> decide
  · revert hi; cases i <;> decide

/-- Settles O56: the parameters are kept by every effect, and the constant registers are read from them alone. -/
theorem constantsNeverChange : Obligations.ConstantsNeverChange := by
  refine ⟨fun s t h => ?_, fun s hl => ?_⟩
  · have heff := stepEffect_of_step h
    have hp := heff.params
    exact ⟨hp, by simp only [State.regRead, hp], by simp only [State.regRead, hp], rfl, rfl,
      fun hm => heff.host (by simp [hm]), fun hm => heff.host (by simp [hm])⟩
  · obtain ⟨⟨-, hH⟩, ⟨-, hW⟩, ⟨-, hN, -⟩, -⟩ := hl
    refine ⟨?_, ?_, ?_⟩
    · rw [State.regRead, BitVec.extractLsb'_append_eq_right, BitVec.toNat_ofNat, Nat.mod_eq_of_lt (by omega)]
    · rw [State.regRead, BitVec.extractLsb'_append_eq_left, BitVec.toNat_ofNat, Nat.mod_eq_of_lt (by omega)]
    · rw [State.regRead, BitVec.toNat_setWidth, BitVec.toNat_ofNat]
      omega

end Sys2Proof.Slice0

/-! PROOFS. The registers and single steps: the layout of STATUS, what each register write leaves, and the steps that
run a command's word (10_state R27 to R39, R45, 30_encoding R98). -/

namespace Sys2Proof.Machine

/-- Bits laid side by side, as a sum. -/
theorem toNat_append_add {m n : Nat} (x : BitVec m) (y : BitVec n) : (x ++ y).toNat = x.toNat * 2 ^ n + y.toNat := by
  rw [BitVec.toNat_append, ← Nat.shiftLeft_add_eq_or_of_lt y.isLt, Nat.shiftLeft_eq]

theorem ErrCode.code_lt (c : ErrCode) : c.code < 5 := by cases c <;> decide

/-- The five flags of STATUS, BUSY lowest (R29). -/
def flagBits (busy done err ovr convOvf : Bool) : BitVec 5 :=
  BitVec.ofBool convOvf ++ BitVec.ofBool ovr ++ BitVec.ofBool err ++ BitVec.ofBool done ++ BitVec.ofBool busy

theorem flagBits_getLsbD : ∀ busy done err ovr convOvf : Bool, let f := flagBits busy done err ovr convOvf
    f.getLsbD 0 = busy ∧ f.getLsbD 1 = done ∧ f.getLsbD 2 = err ∧ f.getLsbD 3 = ovr ∧ f.getLsbD 4 = convOvf := by
  decide

/-- STATUS as its fields, highest first, the reserved bits 0 between them (R29). -/
theorem toWord_eq_append (t : Status) :
    t.toWord = 0#13 ++ BitVec.ofNat 3 t.errcode.code ++ 0#5 ++ t.stage ++ 0#3 ++
      flagBits t.busy t.done t.err t.ovr t.convOvf := by
  apply BitVec.eq_of_toNat_eq
  have hc := t.errcode.code_lt
  have hs := t.stage.isLt
  have h0 := t.busy.toNat_le
  have h1 := t.done.toNat_le
  have h2 := t.err.toNat_le
  have h3 := t.ovr.toNat_le
  have h4 := t.convOvf.toNat_le
  simp only [Status.toWord, flagBits, toNat_append_add, BitVec.toNat_ofNat, BitVec.toNat_ofBool]
  omega

theorem toWord_flags (t : Status) : t.toWord.getLsbD 0 = t.busy ∧ t.toWord.getLsbD 1 = t.done ∧
    t.toWord.getLsbD 2 = t.err ∧ t.toWord.getLsbD 3 = t.ovr ∧ t.toWord.getLsbD 4 = t.convOvf := by
  have hf : ∀ k, k < 5 → t.toWord.getLsbD k = (flagBits t.busy t.done t.err t.ovr t.convOvf).getLsbD k :=
    fun k hk => by rw [toWord_eq_append, BitVec.getLsbD_append, if_pos hk]
  rw [hf 0 (by decide), hf 1 (by decide), hf 2 (by decide), hf 3 (by decide), hf 4 (by decide)]
  exact flagBits_getLsbD _ _ _ _ _

theorem toWord_stage (t : Status) : t.toWord.extractLsb' 8 3 = t.stage := by
  rw [toWord_eq_append, BitVec.extractLsb'_append_eq_of_le (by decide), BitVec.extractLsb'_append_eq_of_le (by decide)]
  exact BitVec.extractLsb'_append_eq_right

theorem toWord_errcode (t : Status) : (t.toWord.extractLsb' 16 3).toNat = t.errcode.code := by
  have h : t.toWord.extractLsb' 16 3 = BitVec.ofNat 3 t.errcode.code := by
    rw [toWord_eq_append, BitVec.extractLsb'_append_eq_of_le (by decide),
      BitVec.extractLsb'_append_eq_of_le (by decide), BitVec.extractLsb'_append_eq_of_le (by decide),
      BitVec.extractLsb'_append_eq_of_le (by decide)]
    exact BitVec.extractLsb'_append_eq_right
  have hc := t.errcode.code_lt
  rw [h, BitVec.toNat_ofNat, Nat.mod_eq_of_lt (by omega)]

/-- The reserved bits read 0 (R39). -/
theorem toWord_reserved (t : Status) : t.toWord &&& 0xFFF8F8E0#32 = 0#32 := by
  have hm : 0xFFF8F8E0#32 = 0x1FFF#13 ++ 0#3 ++ 0x1F#5 ++ 0#3 ++ 7#3 ++ 0#5 := by decide
  rw [toWord_eq_append, hm, BitVec.and_append, BitVec.and_append, BitVec.and_append, BitVec.and_append,
    BitVec.and_append, BitVec.and_zero, BitVec.and_zero, BitVec.and_zero]
  decide

theorem setWidth_setWidth_eq_and (w : Word) {k : Nat} (hk : k ≤ 32) :
    (w.setWidth k).setWidth 32 = w &&& BitVec.ofNat 32 (2 ^ k - 1) := by
  have hp : 2 ^ k ≤ 2 ^ 32 := Nat.pow_le_pow_right (by decide) hk
  apply BitVec.eq_of_toNat_eq
  rw [BitVec.toNat_and, BitVec.toNat_ofNat, Nat.mod_eq_of_lt (show 2 ^ k - 1 < 2 ^ 32 by omega),
    Nat.and_two_pow_sub_one_eq_mod, BitVec.toNat_setWidth, BitVec.toNat_setWidth, Nat.mod_eq_of_lt]
  exact lt_of_lt_of_le (Nat.mod_lt _ (Nat.two_pow_pos k)) hp

/-! ### Words placed for CMD (R90, R98) -/

/-- A word laid out in bytes reads back (R64). -/
theorem decodeBytes_bytesOfWord (w : Word) :
    decodeBytes (bytesOfWord w) = (decode w).map fun i => (i, []) := by
  have hw : wordOfBytes (BitVec.ofNat 8 w.toNat) (BitVec.ofNat 8 (w.toNat / 256)) (BitVec.ofNat 8 (w.toNat / 65536))
      (BitVec.ofNat 8 (w.toNat / 16777216)) = w := by
    apply BitVec.eq_of_toNat_eq
    simp only [wordOfBytes, BitVec.toNat_ofNat]
    omega
  rw [bytesOfWord, decodeBytes, hw]
  cases decode w <;> rfl

theorem decode_tableWord {n w : Nat} {i : Instr} (h : decodeTableWord n w = some i) :
    decode (tableWord n w) = .ok i := by
  rw [decodeTableWord, decodeBytes_bytesOfWord] at h
  cases hd : decode (tableWord n w) with
  | error e => rw [hd] at h; cases h
  | ok j => rw [hd] at h; cases h; rfl

/-- The line placed is the host's next one (log 10). -/
theorem insertCmdWrite_next (h : HostState) (w : Word) :
    (insertCmdWrite h w).prog[(insertCmdWrite h w).pc]? = some (.wr 0x18#26 w) := by
  have hl : (h.prog.take h.pc).length = min h.pc h.prog.length := List.length_take
  rw [insertCmdWrite, ← hl, List.getElem?_append_right le_rfl, Nat.sub_self]
  rfl

/-- A legal word written to CMD of an idle CEC runs as its command (R27, R205). -/
theorem busWrite_cmd_of_decode {s : State} {w : Word} {i : Instr} (hb : s.status.busy = false)
    (hd : decode w = .ok i) : busWrite 0x018 w s = exec i s :=
  (busWrite_reg .cmd w s).trans (by rw [regWrite, cmdWrite, hb, if_neg (by decide), hd])

/-! ### Interrupts (R45) and CTRL (R28) -/

theorem irq_eq_ie {s : State} (h : s.status.done = true) : s.irq = s.ie := by rw [State.irq, h, Bool.and_true]

theorem irq_eq_false {s : State} (h : s.ie = false ∨ s.status.done = false) : s.irq = false := by
  rw [State.irq, Bool.and_eq_false_iff]
  exact h

theorem ctrlWrite_of_clear {w : Word} (h : w.getLsbD 1 = false) (s : State) :
    ctrlWrite w s = { s with ie := w.getLsbD 0 } := by
  rw [ctrlWrite, h, if_neg (by decide)]

theorem ctrlWrite_ie (w : Word) (s : State) : (ctrlWrite w s).ie = (!w.getLsbD 1 && w.getLsbD 0) := by
  cases h : w.getLsbD 1 with
  | false => rw [ctrlWrite_of_clear h]; rfl
  | true => rw [ctrlWrite, h]; rfl

end Sys2Proof.Machine

namespace Sys2Proof.Slice0
open Sys2Proof.Machine

/-- Settles O4: the host's line is a write to CMD, which is served in every state. -/
theorem cmdWriteRunsDecodedCommand : Obligations.CmdWriteRunsDecodedCommand := by
  intro s ts w i hts hl hb hd
  have hm : s.mover = .host := by rw [State.mover, hts]
  have hline : hostTurn s.turnSpent = hostLine (.wr 0x18#26 w) s.turnSpent := by
    rw [hostTurn, turnSpent_host, hl]
  rw [step_eq, hm, runTurn, hline, hostLine_wr]
  refine (busWrite_cmd_of_decode (s := s.turnSpent.hostNext.noteWrite _) hb hd).trans ?_
  rw [State.turnSpent, hts]
  rfl

/-- Settles O6: the placed word is the host's next line, so O4 says what the step is. -/
theorem placedWordRunsNext : Obligations.PlacedWordRunsNext := by
  intro s n w i h
  have hstep := cmdWriteRunsDecodedCommand (s.withFetchWord n w) s.turns (tableWord n w) i rfl
    (insertCmdWrite_next s.host _) rfl (decode_tableWord h)
  exact ⟨_, hstep, rfl, rfl, rfl, rfl, rfl, rfl, rfl, rfl, rfl, rfl, rfl, fun _ => rfl⟩

/-- Settles O32: STATUS is its fields laid side by side, and a write is `Status.clearBits`. -/
theorem statusLayoutAndClear : Obligations.StatusLayoutAndClear := by
  intro s
  obtain ⟨hbusy, hdone, herr, hovr, hconv⟩ := toWord_flags s.status
  refine ⟨⟨hbusy, hdone, herr, hovr, hconv, toWord_stage _, toWord_errcode _,
    toWord_reserved _⟩, fun w => ⟨_, busWrite_reg .status w s, rfl, rfl, rfl, ?_, ?_, ?_, ?_, ?_, ?_⟩⟩
  · simp [Status.clearBits]
  · simp [Status.clearBits]
  · simp [Status.clearBits]
  · simp [Status.clearBits]
  · exact fun h => if_pos h
  · exact fun h => if_neg (by rw [h]; decide)

/-- Settles O33. -/
theorem ctrlWrite : Obligations.CtrlWrite := by
  refine fun s w => ⟨fun h => ?_, fun h => ⟨_, busWrite_reg .ctrl w s, ?_⟩, ?_⟩
  · exact (busWrite_reg .ctrl w s).trans (by rw [regWrite, ctrlWrite_of_clear h])
  · rw [ctrlWrite_ie, h]; rfl
  · rw [State.regRead, State.ctrlWord]
    cases s.ie <;> rfl

/-- Settles O34: a parameter register stores the word cut to its width, which is the word under its mask. -/
theorem parameterRegisters : Obligations.ParameterRegisters := by
  intro s w
  have h16 := setWidth_setWidth_eq_and w (k := 16) (by decide)
  have h8 := setWidth_setWidth_eq_and w (k := 8) (by decide)
  refine ⟨⟨_, busWrite_reg .imgH w s, h16, rfl⟩, ⟨_, busWrite_reg .imgW w s, h16, rfl⟩,
    ⟨_, busWrite_reg .ksize w s, h8, rfl⟩, ⟨_, busWrite_reg .scale w s, h16, rfl⟩,
    ⟨_, busWrite_reg .thHi w s, rfl, rfl⟩, ⟨_, busWrite_reg .thLo w s, rfl, rfl⟩, fun r hr => ⟨?_, ?_⟩⟩
  · rw [busWrite_reg]
    simp only [List.mem_cons, List.not_mem_nil, or_false] at hr
    obtain rfl | rfl | rfl | rfl := hr <;> rfl
  · rw [State.writeStatus, access_reg]

/-- Settles O35: each event leaves DONE set, or DONE or IE clear. -/
theorem irqLevel : Obligations.IrqLevel := by
  intro s
  refine ⟨?_, fun w code => irq_eq_ie rfl, fun w l f => irq_eq_false (.inr rfl), fun i st hst => ?_, fun w hw => ?_,
    fun w hw => ?_, irq_eq_false (.inl rfl), rfl⟩
  · rw [State.irq, Bool.and_eq_true]
  · refine ⟨_, exec_busy i hst.1 hst.2, ?_⟩
    rw [irq_eq_ie rfl, advance_ie, performStage_ie]
  · exact ⟨_, busWrite_reg .status w s, irq_eq_false (.inr (by simp [Status.clearBits, hw]))⟩
  · exact ⟨_, busWrite_reg .ctrl w s, irq_eq_false (.inl (by rw [ctrlWrite_ie, hw, Bool.and_false]))⟩

end Sys2Proof.Slice0

/-! PROOFS. The host bus: the address map as the buffers and registers say it, which accesses are refused, the words of
the buffers as numbers, and the lines of a host program (20_memory R60 to R69, 30_encoding R98). -/

namespace Sys2Proof.Machine

/-! ### The address map (R22, R62, R67) -/

/-- The row of `Slice0.windows` that describes a buffer. -/
def Buf.windowRow (b : Buf) : Nat × Nat × Nat × Bool :=
  (b.base, b.base + b.windowSize - 1, b.elemBytes, decide (b = .kx ∨ b = .ky))

/-- The rows of the map are those of the fourteen buffers. -/
theorem exists_windows_iff {P : Nat × Nat × Nat × Bool → Prop} :
    (∃ x ∈ Slice0.windows, P x) ↔ ∃ b : Buf, P b.windowRow := by
  have hmap : Slice0.windows = Buf.all.map Buf.windowRow := by decide
  simp only [hmap, List.mem_map, Buf.mem_all, true_and, exists_exists_eq_and]

theorem Buf.at?_eq_some_iff {a : Nat} {b : Buf} :
    Buf.at? a = some b ↔ b.base ≤ a ∧ a ≤ b.base + b.windowSize - 1 := by
  have hpos : 0 < b.windowSize := by cases b <;> decide
  refine ⟨fun h => ?_, fun h => Buf.at?_of_mem (by omega)⟩
  have := Buf.at?_eq_some h
  omega

theorem Buf.windowRow_capacity (p : Params) (b : Buf) :
    (if b.windowRow.2.2.2 = true then p.maxN * p.maxN else p.maxH * p.maxW) = b.capacity p := by
  cases b <;> rfl

theorem inWindow_iff {a : Nat} : Slice0.InWindow a ↔ ∃ b, Buf.at? a = some b := by
  simp only [Slice0.InWindow, exists_windows_iff, Buf.at?_eq_some_iff, Buf.windowRow]

theorem unbacked_iff {p : Params} {a : Nat} :
    Slice0.Unbacked p a ↔ ∃ b, Buf.at? a = some b ∧ b.capacity p ≤ b.elemAt a := by
  simp only [Slice0.Unbacked, exists_windows_iff, Buf.windowRow_capacity]
  simp only [Buf.at?_eq_some_iff, Buf.windowRow, Buf.elemAt, and_assoc]

theorem mem_registerOffsets {a : Nat} : a ∈ Slice0.registerOffsets ↔ ∃ r : Reg, r.offset = a := by
  have hall : ∀ r : Reg, r ∈ Reg.all := by intro r; cases r <;> decide
  have heq : Slice0.registerOffsets = Reg.all.map Reg.offset := rfl
  simp only [heq, List.mem_map, hall, true_and]

/-- The registers lie below every window. -/
theorem Buf.at?_reg_offset (r : Reg) : Buf.at? r.offset = none := by cases r <;> decide

/-! ### Refused accesses (R63, R66 to R68) -/

theorem access_misaligned {s : State} {a : Nat} (h : a % 4 ≠ 0) : s.access a = none := if_pos h

/-- A word-aligned offset in a window: the CEC has to be idle and the first element below the capacity (R67, R68). -/
theorem access_of_at? {s : State} {a : Nat} {b : Buf} (ha : a % 4 = 0) (h : Buf.at? a = some b) :
    s.access a =
      if s.status.busy then none else if b.elemAt a < b.capacity s.params then some (.buf b) else none := by
  have hge := Buf.base_ge b
  have hle := Buf.at?_eq_some_iff.1 h
  rw [State.access, if_neg (not_not.2 ha), if_neg (by omega), h]

theorem access_unmapped {s : State} {a : Nat} (hr : ∀ r : Reg, r.offset ≠ a) (hb : Buf.at? a = none) :
    s.access a = none := by
  have hreg : Reg.at? a = none := by
    cases h : Reg.at? a with
    | none => rfl
    | some r => exact absurd (Reg.at?_eq_some h) (hr r)
  simp only [State.access, hreg, hb, Option.map_none, ite_self]

/-- An access is refused exactly for a cause of R66. -/
theorem access_eq_none_iff {s : State} {a : Nat} : s.access a = none ↔ Slice0.BusErrorCause s a := by
  simp only [Slice0.BusErrorCause, mem_registerOffsets, inWindow_iff, unbacked_iff]
  by_cases ha : a % 4 = 0
  case neg => simp only [access_misaligned ha, ne_eq, ha, not_false_eq_true, true_or]
  by_cases hr : ∃ r : Reg, r.offset = a
  · obtain ⟨r, rfl⟩ := hr
    simp [access_reg, Buf.at?_reg_offset, ha]
  · cases hb : Buf.at? a with
    | none => simp [access_unmapped (not_exists.1 hr) hb, hr]
    | some b => cases hbusy : s.status.busy <;> simp [access_of_at? ha hb, ha, hbusy]

/-! What a refused access answers and does (R66). -/

section
variable {s : State} {a : Nat} (h : s.access a = none)
include h

theorem busRead_refused : s.busRead a = (.busError, 0#32) := by rw [State.busRead, h]
theorem writeStatus_refused : s.writeStatus a = .busError := by rw [State.writeStatus, h]
theorem busWrite_refused (v : Word) : busWrite a v s = .next s := by rw [busWrite, h]

end

theorem busRead_busError_iff {s : State} {a : Nat} : (s.busRead a).1 = .busError ↔ s.access a = none := by
  rw [State.busRead]
  split <;> simp [*]

theorem writeStatus_busError_iff {s : State} {a : Nat} : s.writeStatus a = .busError ↔ s.access a = none := by
  rw [State.writeStatus]
  split <;> simp [*]

@[simp] theorem busRead_reg (r : Reg) (s : State) : s.busRead r.offset = (.okay, s.regRead r) := by
  rw [State.busRead, access_reg]

@[simp] theorem writeStatus_reg (r : Reg) (s : State) : s.writeStatus r.offset = .okay := by
  rw [State.writeStatus, access_reg]

/-- No read looks at the host. -/
theorem busRead_with_host (s : State) (h : HostState) (a : Nat) : State.busRead { s with host := h } a = s.busRead a :=
  rfl

end Sys2Proof.Machine

namespace Sys2Proof.Slice0
open Sys2Proof.Machine

/-- Settles O26: all three functions go by `State.access`, which refuses exactly for the causes of R66. -/
theorem busErrorExactly : Obligations.BusErrorExactly := fun _ _ =>
  ⟨busRead_busError_iff.trans access_eq_none_iff, writeStatus_busError_iff.trans access_eq_none_iff, fun hc =>
    have h := access_eq_none_iff.2 hc
    ⟨by rw [busRead_refused h], busWrite_refused h⟩⟩

/-- Settles O27: a busy CEC has a cause to refuse every window offset; a register is served in every state. -/
theorem busyGate : Obligations.BusyGate := by
  refine fun s => ⟨fun hb a ha => ?_, fun r => ⟨busRead_reg r s, writeStatus_reg r s, fun v => busWrite_reg r v s⟩⟩
  have h : s.access a = none := access_eq_none_iff.2 (.inr (.inr (.inr ⟨ha, hb⟩)))
  exact ⟨busRead_refused h, busWrite_refused h, writeStatus_refused h⟩

/-- Settles O28. -/
theorem readsHaveNoSideEffect : Obligations.ReadsHaveNoSideEffect := fun s a =>
  ⟨_, hostLine_rd a s, rfl, busRead_with_host s _ _⟩

end Sys2Proof.Slice0

namespace Sys2Proof.Machine

/-! ### Served buffer words (R64, R65, R67) -/

theorem Buf.base_mod_four (b : Buf) : b.base % 4 = 0 := by cases b <;> decide

/-- A word of a buffer of an idle CEC whose first byte is backed is served. -/
theorem access_backed {s : State} {b : Buf} {d : Nat} (hl : s.params.legal) (hb : s.status.busy = false)
    (hd : d % 4 = 0) (hc : d < b.elemBytes * b.capacity s.params) : s.access (b.base + d) = some (.buf b) := by
  have hbase := b.base_mod_four
  have hfit := Buf.capacity_fits hl b
  exact access_buf hb (by omega) (by omega) (by rw [Nat.add_sub_cancel_left]; exact Nat.div_lt_of_lt_mul hc)

theorem busRead_buf {s : State} {b : Buf} {a : Nat} (h : s.access a = some (.buf b)) :
    s.busRead a = (.okay, s.bufRead b a) := by rw [State.busRead, h]

theorem busWrite_buf {s : State} {b : Buf} {a : Nat} (h : s.access a = some (.buf b)) (v : Word) :
    busWrite a v s = .next (s.bufWrite b a v) := by rw [busWrite, h]

theorem bytesSameOutside_bufWrite (s : State) (b : Buf) (a : Nat) (v : Word) :
    Slice0.BytesSameOutside s (s.bufWrite b a v) a (lanesBacked s.params b a) := by
  intro k hk
  rw [byteAt_bufWrite, dif_neg (by omega)]

theorem natOfBytes_bytesOfWord (v : Word) : natOfBytes (bytesOfWord v) = v.toNat := by
  rw [bytesOfWord_eq, natOfBytes_bytesOfNat]
  exact Nat.mod_eq_of_lt v.isLt

theorem toNat_bytesOfWord_getElem (v : Word) (k : Nat) (hk : k < (bytesOfWord v).length) :
    (bytesOfWord v)[k].toNat = v.toNat / 256 ^ k % 256 := by
  rw [← natOfBytes_bytesOfWord v, natOfBytes_digit, List.getD_eq_getElem _ _ (by simpa using hk), List.getElem_map]

/-- A buffer stores all eight bits of a byte, Q the low two (R41). -/
theorem toNat_storedByte {b : Buf} {a : Nat} (h : b.base ≤ a ∧ a < b.base + b.windowSize) (v : Byte) :
    (storedByte a v).toNat = v.toNat % (if b = .q then 4 else 256) := by
  rw [storedByte, inQ_window h]
  by_cases hb : b = .q
  · rw [decide_eq_true hb, if_pos rfl, if_pos hb, BitVec.toNat_and]
    exact Nat.and_two_pow_sub_one_eq_mod v.toNat 2
  · rw [decide_eq_false hb, if_neg Bool.false_ne_true, if_neg hb, Nat.mod_eq_of_lt v.isLt]

/-! ### Byte buffers (R64) -/

section
variable {s : State} {b : Buf} (h1 : b.elemBytes = 1)
include h1

theorem elem_of_elemBytes_one (e : Nat) : s.elem b e = (s.byteAt (b.base + e)).toNat := by
  simp [State.elem, Buf.elemAddr, h1, State.bytesAt, natOfBytes]

theorem lanesBacked_of_elemBytes_one (p : Params) (e0 : Nat) :
    lanesBacked p b (b.base + e0) = min 4 (b.capacity p - e0) := by
  rw [lanesBacked, h1, one_mul, Nat.add_sub_cancel_left]

theorem bufRead_byte (e0 : Nat) {k : Nat} (hk : k < 4) :
    (s.bufRead b (b.base + e0)).toNat / 256 ^ k % 256 =
      if e0 + k < b.capacity s.params then s.elem b (e0 + k) else 0 := by
  have hn := lanesBacked_of_elemBytes_one h1 s.params e0
  have hlt : natOfBytes (s.bytesAt (b.base + e0) (lanesBacked s.params b (b.base + e0))) < 2 ^ 32 := by
    refine (natOfBytes_lt _).trans_le (Nat.pow_le_pow_right (show 0 < 256 by decide) (?_ : _ ≤ 4))
    rw [State.bytesAt, List.length_map, List.length_range]
    exact Nat.min_le_left _ _
  rw [State.bufRead, BitVec.toNat_ofNat, Nat.mod_eq_of_lt hlt, natOfBytes_digit, hn]
  split
  case isTrue h =>
    have hk' : k < min 4 (b.capacity s.params - e0) := by omega
    rw [List.getD_eq_getElem _ _ (by simpa [State.bytesAt] using hk'), elem_of_elemBytes_one h1]
    simp only [State.bytesAt, List.getElem_map, List.getElem_range, Nat.add_assoc]
  case isFalse h =>
    exact List.getD_eq_default _ _ (by simp [State.bytesAt]; omega)

theorem elem_bufWrite_byte (hl : s.params.legal) (v : Word) {e0 k : Nat} (hk : k < 4)
    (hc : e0 + k < b.capacity s.params) :
    (s.bufWrite b (b.base + e0) v).elem b (e0 + k) = v.toNat / 256 ^ k % (if b = .q then 4 else 256) := by
  have hn := lanesBacked_of_elemBytes_one h1 s.params e0
  have hfit := Buf.capacity_fits hl b
  rw [h1] at hfit
  rw [elem_of_elemBytes_one h1, byteAt_bufWrite, dif_pos (by omega), toNat_storedByte (b := b) (by omega),
    toNat_bytesOfWord_getElem, show b.base + (e0 + k) - (b.base + e0) = k by omega, Nat.mod_mod_of_dvd]
  split <;> decide

end

/-! ### Words with four lanes (R65) -/

/-- The number that the four bytes from an offset form. -/
def State.wordAt (s : State) (a : Nat) : Nat := natOfBytes (s.bytesAt a 4)

theorem elem_of_elemBytes_four {b : Buf} (h4 : b.elemBytes = 4) (s : State) (e : Nat) :
    s.elem b e = s.wordAt (b.base + 4 * e) := by
  rw [State.elem, Buf.elemAddr, h4, State.wordAt]

theorem elem_of_elemBytes_eight {b : Buf} (h8 : b.elemBytes = 8) (s : State) (e : Nat) :
    s.elem b e = s.wordAt (b.base + 8 * e) + 2 ^ 32 * s.wordAt (b.base + 8 * e + 4) := by
  rw [State.elem, Buf.elemAddr, h8, bytesAt_add s _ 4 4, natOfBytes_append]
  simp [State.wordAt, State.bytesAt]

theorem wordAt_lt (s : State) (a : Nat) : s.wordAt a < 2 ^ 32 := by
  simpa [State.wordAt, State.bytesAt] using natOfBytes_lt (s.bytesAt a 4)

theorem wordAt_congr {s t : State} {a : Nat} (h : ∀ k, a ≤ k → k < a + 4 → t.byteAt k = s.byteAt k) :
    t.wordAt a = s.wordAt a := by
  rw [State.wordAt, State.wordAt, State.bytesAt, State.bytesAt]
  congr 1
  exact List.map_congr_left fun j hj => h _ (by omega) (by rw [List.mem_range] at hj; omega)

/-- A word whose four lanes are all served, in a buffer that stores bytes whole. -/
structure ServedWhole (s : State) (b : Buf) (a : Nat) : Prop where
  access : s.access a = some (.buf b)
  lanes : lanesBacked s.params b a = 4
  notQ : inQ a = false

/-- The words below the capacity of an i32 or a u64 buffer. -/
theorem servedWhole_of_lt_capacity {s : State} {b : Buf} {d : Nat} (hl : s.params.legal)
    (hb : s.status.busy = false) (hq : b ≠ .q) (hd : d % 4 = 0) (hc : d + 4 ≤ b.elemBytes * b.capacity s.params) :
    ServedWhole s b (b.base + d) where
  access := access_backed hl hb hd (by omega)
  lanes := by rw [lanesBacked, Nat.add_sub_cancel_left]; omega
  notQ := by
    have hfit := Buf.capacity_fits hl b
    rw [inQ_window (b := b) (by omega), decide_eq_false hq]

namespace ServedWhole
variable {s : State} {b : Buf} {a : Nat} (h : ServedWhole s b a)
include h

theorem busRead : s.busRead a = (.okay, BitVec.ofNat 32 (s.wordAt a)) := by
  rw [busRead_buf h.access, State.bufRead, h.lanes, State.wordAt]

theorem bytesSameOutside (v : Word) : Slice0.BytesSameOutside s (s.bufWrite b a v) a 4 :=
  h.lanes ▸ bytesSameOutside_bufWrite s b a v

theorem wordAt_bufWrite_same (v : Word) : (s.bufWrite b a v).wordAt a = v.toNat := by
  have hbytes : (s.bufWrite b a v).bytesAt a 4 = bytesOfWord v := by
    refine List.ext_getElem (by simp [State.bytesAt]) fun j hj hj' => ?_
    have hlt : j < 4 := hj'
    simp only [State.bytesAt, List.getElem_map, List.getElem_range]
    rw [byteAt_bufWrite, dif_pos (by rw [h.lanes]; omega), storedByte, h.notQ, if_neg Bool.false_ne_true]
    simp only [Nat.add_sub_cancel_left]
  rw [State.wordAt, hbytes, natOfBytes_bytesOfWord]

theorem wordAt_bufWrite_apart (v : Word) {a' : Nat} (ha : a' + 4 ≤ a ∨ a + 4 ≤ a') :
    (s.bufWrite b a v).wordAt a' = s.wordAt a' :=
  wordAt_congr fun k _ _ => h.bytesSameOutside v k (by omega)

end ServedWhole

end Sys2Proof.Machine

namespace Sys2Proof.Slice0
open Sys2Proof.Machine

/-- Settles O29: in a byte buffer lane `k` of the word is byte `e0 + k` of the window. -/
theorem byteBufferWords : Obligations.ByteBufferWords := by
  intro s b e0 hl h1 h4 hc hb
  have hacc : s.access (b.base + e0) = some (.buf b) := access_backed hl hb h4 (by rwa [h1, one_mul])
  refine ⟨⟨_, busRead_buf hacc, fun k hk => bufRead_byte h1 e0 hk⟩, fun v =>
    ⟨_, busWrite_buf hacc v, fun k hk hlt => elem_bufWrite_byte h1 hl v hk hlt, ?_, rfl⟩⟩
  rw [← lanesBacked_of_elemBytes_one h1]
  exact bytesSameOutside_bufWrite s b _ v

/-- Settles O30: an i32 element is the number of its one word. -/
theorem intBufferWords : Obligations.IntBufferWords := by
  intro s b e hl h4 hc hb
  have hq : b ≠ .q := by rintro rfl; cases h4
  have hw : ServedWhole s b (b.base + 4 * e) := servedWhole_of_lt_capacity hl hb hq (by omega) (by rw [h4]; omega)
  refine ⟨?_, fun v => ⟨_, busWrite_buf hw.access v, ?_, hw.bytesSameOutside v, rfl⟩⟩
  · rw [hw.busRead, State.elemInt, elem_of_elemBytes_four h4, BitVec.ofInt_toInt]
  · rw [State.elemInt, elem_of_elemBytes_four h4, hw.wordAt_bufWrite_same, BitVec.ofNat_toNat, BitVec.setWidth_eq]

/-- Settles O31: a u64 element is the numbers of its two words, and a write of one leaves the other. -/
theorem longBufferWords : Obligations.LongBufferWords := by
  intro s b e hl h8 hc hb
  have hq : b ≠ .q := by rintro rfl; cases h8
  have hlo : ServedWhole s b (b.base + 8 * e) := servedWhole_of_lt_capacity hl hb hq (by omega) (by rw [h8]; omega)
  have hhi : ServedWhole s b (b.base + 8 * e + 4) :=
    servedWhole_of_lt_capacity (d := 8 * e + 4) hl hb hq (by omega) (by rw [h8]; omega)
  have hlt := wordAt_lt s (b.base + 8 * e)
  simp only [elem_of_elemBytes_eight h8]
  refine ⟨?_, ?_, fun v => ⟨_, busWrite_buf hlo.access v, ?_, hlo.bytesSameOutside v, rfl⟩,
    fun v => ⟨_, busWrite_buf hhi.access v, ?_, hhi.bytesSameOutside v, rfl⟩⟩
  · rw [hlo.busRead, BitVec.ofNat_add, BitVec.ofNat_mul, show BitVec.ofNat 32 (2 ^ 32) = 0#32 from rfl,
      BitVec.zero_mul, BitVec.add_zero]
  · rw [hhi.busRead]
    congr 2
    omega
  · rw [hlo.wordAt_bufWrite_same, hlo.wordAt_bufWrite_apart v (.inr le_rfl)]
    omega
  · rw [hhi.wordAt_bufWrite_same, hhi.wordAt_bufWrite_apart v (.inl le_rfl)]
    omega

end Sys2Proof.Slice0

namespace Sys2Proof.Machine

/-! ### Host lines (R60, R98) -/

/-- A prescribed host turn is the host's (R72). -/
theorem step_host {s : State} {ts : List Turn} (h : s.turns = .host :: ts) :
    step s = hostTurn { s with turns := ts } := by
  rw [step, takeTurn, h]
  rfl

/-- Platform addresses outside the window have no offset in it (R60; log 15). -/
theorem Params.offset?_outside {p : Params} {addr : Nat} (h : addr < p.cecBase ∨ p.cecBase + 0x04000000 ≤ addr) :
    p.offset? addr = none := if_neg (by omega)

/-- A label the program defines is found at its first line. -/
theorem labelTarget_of_mem {prog : List HostLine} {l : Nat} (h : HostLine.label l ∈ prog) :
    ∃ k, labelTarget prog l = some (k + 1) ∧ prog[k]? = some (.label l) ∧
      ∀ j, j < k → prog[j]? ≠ some (.label l) := by
  refine ⟨_, if_pos h, List.getElem?_idxOf h, fun j hj hsome => ?_⟩
  obtain ⟨hlt, heq⟩ := List.getElem?_eq_some_iff.1 hsome
  exact Bool.false_ne_true ((List.not_of_lt_findIdx hj).symm.trans (beq_iff_eq.2 heq))

theorem labelTarget_of_notMem {prog : List HostLine} {l : Nat} (h : HostLine.label l ∉ prog) :
    labelTarget prog l = none := if_neg h

/-- BNZ goes by the last word read (R98). -/
theorem hostLine_bnz_zero {s : State} {bits : Word} (h : s.host.lastRead &&& bits = 0#32) (l : Nat) :
    hostLine (.bnz bits l) s = .next s.hostNext := if_pos h

theorem hostLine_bnz_found {s : State} {bits : Word} {l k : Nat} (h : s.host.lastRead &&& bits ≠ 0#32)
    (hk : labelTarget s.host.prog l = some k) :
    hostLine (.bnz bits l) s = .next { s with host := { s.host with pc := k } } := by
  rw [hostLine, if_neg h, hk]

theorem hostLine_bnz_missing {s : State} {bits : Word} {l : Nat} (h : s.host.lastRead &&& bits ≠ 0#32)
    (hk : labelTarget s.host.prog l = none) : hostLine (.bnz bits l) s = .fault (.undefinedLabel l) := by
  rw [hostLine, if_neg h, hk]

end Sys2Proof.Machine

namespace Sys2Proof.Slice0
open Sys2Proof.Machine

/-- Settles O57, one kind of line after the other. -/
theorem hostLineEffects : Obligations.HostLineEffects := by
  refine ⟨fun s ts hts => ⟨fun l hl => ?_, fun hl => ?_⟩, fun s a v => ?_, fun s addr v hout => ?_,
    fun s bits l => ⟨rfl, fun hz => hostLine_bnz_zero hz l, fun hnz => ⟨fun hmem => ?_, fun hmem => ?_⟩⟩⟩
  · rw [step_host hts, hostTurn, hl]
  · rw [step_host hts, hostTurn, hl]
  · have hoff : s.params.offset? (s.params.cecBase + a.toNat) = some a.toNat := Params.offset?_address s.params a
    refine ⟨hostLine_wr a v s, ?_, ?_, ?_⟩
    · rw [State.memRead, hoff, Option.map_some]
    · rw [memWrite, hoff]
    · rw [State.memWriteStatus, hoff, Option.map_some]
  · have hoff := Params.offset?_outside hout
    refine ⟨?_, ?_, ?_⟩
    · rw [State.memRead, hoff, Option.map_none]
    · rw [State.memWriteStatus, hoff, Option.map_none]
    · rw [memWrite, hoff]
  · obtain ⟨k, hk, hat, hfirst⟩ := labelTarget_of_mem hmem
    exact ⟨k, hostLine_bnz_found hnz hk, hat, hfirst⟩
  · exact hostLine_bnz_missing hnz (labelTarget_of_notMem hmem)

end Sys2Proof.Slice0

/-! PROOFS. Decoding against the encoder and against the causes of an illegal word (30_encoding R90 to R97). -/

namespace Sys2Proof.Machine

/-! ### Words and commands (R94) -/

@[simp] theorem decode_encode (i : Instr) : decode (encode i) = .ok i := by cases i <;> rfl

theorem tableWord_toNat (w : Word) : tableWord 32 w.toNat = w := by
  rw [tableWord, Nat.mod_eq_of_lt w.isLt, BitVec.ofNat_toNat, BitVec.setWidth_eq]

/-- A command's word read from its row of the table, byte by byte (R64). -/
theorem decodeTableWord_encode (i : Instr) : decodeTableWord 32 (encode i).toNat = some i := by
  rw [decodeTableWord, tableWord_toNat, decodeBytes_bytesOfWord, decode_encode]
  rfl

/-! ### Illegal words (R95) -/

theorem decodePlain_eq_none_iff {n : Nat} : decodePlain n = none ↔ 8 ≤ n ∧ n ≠ 15 := by
  unfold decodePlain
  split
  case h_10 => simp only [imp_false, true_iff] at *; omega
  all_goals simp

theorem decodeSelected_eq_none_iff {n : Nat} : decodeSelected n = none ↔ n ≠ 1 ∧ n ≠ 2 := by
  unfold decodeSelected
  split
  case h_3 => simp only [imp_false, true_iff] at *; omega
  all_goals simp

/-- The failures of `decode`: each of its two tables can miss, the second looked up under KSEL = 1 alone, and RSVD. -/
theorem exists_decode_error_iff {w : Word} : (∃ e, decode w = .error e) ↔
    decodePlain (Word.opcode w) = none ∨ (Word.ksel w = true ∧ decodeSelected (Word.opcode w) = none) ∨
      Word.rsvdOk w = false := by
  unfold decode
  cases hr : Word.rsvdOk w with
  | false => simp
  | true =>
    cases hp : decodePlain (Word.opcode w) with
    | none => simp
    | some i =>
      cases hk : Word.ksel w with
      | false => simp
      | true => cases hs : decodeSelected (Word.opcode w) <;> simp

theorem toNat_and_opcodeMask (w : Word) : (w &&& 0xFF#32).toNat = Word.opcode w :=
  (BitVec.toNat_and ..).trans (Nat.and_two_pow_sub_one_eq_mod w.toNat 8)

theorem rsvdOk_eq_false_iff {w : Word} : Word.rsvdOk w = false ↔ w >>> 9 ≠ 0#32 := by
  rw [Word.rsvdOk, beq_eq_false_iff_ne, ne_eq, ne_eq, ← BitVec.toNat_inj, BitVec.toNat_ushiftRight,
    Nat.shiftRight_eq_div_pow]
  rfl

/-- An illegal word written to CMD of an idle CEC is refused with E_CMD (R95, R205). -/
theorem busWrite_cmd_of_decode_error {s : State} {w : Word} {e : DecodeError} (hb : s.status.busy = false)
    (hd : decode w = .error e) : busWrite 0x018 w s = .next (s.refuse w .cmd) :=
  (busWrite_reg .cmd w s).trans (by rw [regWrite, cmdWrite, hb, if_neg (by decide), hd])

end Sys2Proof.Machine

namespace Sys2Proof.Slice0
open Sys2Proof.Machine

/-- Settles O2: no two words decode to one command, and each command's word decodes to it. -/
theorem decodeIsInverseOfEncode : Obligations.DecodeIsInverseOfEncode := fun _ i =>
  ⟨eq_encode_of_decode, fun h => h ▸ decode_encode i⟩

/-- Settles O3: the causes are an OPCODE outside the first table, KSEL = 1 with one outside the second, or RSVD. -/
theorem illegalWordsRefused : Obligations.IllegalWordsRefused := by
  refine ⟨fun w => ?_, fun w e s hd hb => busWrite_cmd_of_decode_error hb hd⟩
  have hlow (c : Word) : w &&& 0xFF#32 ≠ c ↔ Word.opcode w ≠ c.toNat := by
    rw [ne_eq, ← BitVec.toNat_inj, toNat_and_opcodeMask]
  rw [exists_decode_error_iff, decodePlain_eq_none_iff, decodeSelected_eq_none_iff, rsvdOk_eq_false_iff, hlow, hlow,
    toNat_and_opcodeMask]
  refine or_congr ?_ Iff.rfl
  omega

/-- Settles O1: the words written out are the encoder's. -/
theorem tableWordsDecode : Obligations.TableWordsDecode :=
  ⟨decode_encode .nop, decode_encode .convX, decode_encode .convY, decode_encode .descaleX, decode_encode .descaleY,
    decode_encode .grad, decode_encode .mag, decode_encode .dir, decode_encode .nms, decode_encode .hyst,
    decode_encode .run, fun i _ => decodeTableWord_encode i⟩

end Sys2Proof.Slice0

/-! PROOFS. The host's kernel synthesis over the reals (40_kernel_synthesis_host R110 to R116, log 18): rounding is odd
and monotone, a kernel element is a rounded derivative weight, and the filter size rests on one half side. -/

namespace Sys2Proof.Machine.Reference

/-! ### Rounding halves away from zero (R113) -/

theorem rhazReal_of_neg {v : ℝ} (h : v < 0) : rhazReal v = -⌊-v + 1 / 2⌋ := if_pos h

theorem rhazReal_of_nonneg {v : ℝ} (h : 0 ≤ v) : rhazReal v = ⌊v + 1 / 2⌋ := if_neg h.not_gt

@[simp] theorem rhazReal_natCast (k : Nat) : rhazReal k = k := by
  rw [rhazReal_of_nonneg k.cast_nonneg, Int.floor_natCast_add]
  norm_num

theorem rhazReal_neg (v : ℝ) : rhazReal (-v) = -rhazReal v := by
  rcases lt_trichotomy v 0 with h | rfl | h
  · rw [rhazReal_of_nonneg (neg_nonneg.2 h.le), rhazReal_of_neg h, neg_neg]
  · norm_num [rhazReal_of_nonneg le_rfl]
  · rw [rhazReal_of_neg (neg_neg_of_pos h), rhazReal_of_nonneg h.le, neg_neg]

theorem rhazReal_nonneg {v : ℝ} (h : 0 ≤ v) : 0 ≤ rhazReal v := by
  rw [rhazReal_of_nonneg h]
  exact Int.floor_nonneg.2 (by linarith)

theorem rhazReal_mono : Monotone rhazReal := by
  have hpos {v w : ℝ} (h0 : 0 ≤ v) (h : v ≤ w) : rhazReal v ≤ rhazReal w := by
    rw [rhazReal_of_nonneg h0, rhazReal_of_nonneg (h0.trans h)]
    exact Int.floor_mono (by linarith)
  intro v w h
  rcases le_or_gt 0 v with hv | hv
  · exact hpos hv h
  rcases le_or_gt 0 w with hw | hw
  · have hv' := rhazReal_nonneg (neg_nonneg.2 hv.le)
    rw [rhazReal_neg] at hv'
    linarith [rhazReal_nonneg hw]
  · have hvw := hpos (neg_nonneg.2 hw.le) (neg_le_neg h)
    rwa [rhazReal_neg, rhazReal_neg, neg_le_neg_iff] at hvw

theorem abs_rhazReal_le {v : ℝ} {k : Nat} (h : |v| ≤ k) : |rhazReal v| ≤ k := by
  obtain ⟨hlo, hhi⟩ := abs_le.1 h
  refine abs_le.2 ⟨?_, ?_⟩
  · simpa [rhazReal_neg] using rhazReal_mono hlo
  · simpa using rhazReal_mono hhi

/-! ### The derivative weight (R112) -/

/-- `Gx(x, y)` of R112; `Gy(x, y)` is this weight with the offsets swapped (`kernelY_eq`). -/
noncomputable def gaussX (sigma : ℝ) (x y : Int) : ℝ := -(x / sigma ^ 2) * gauss sigma x y

theorem gauss_nonneg (sigma : ℝ) (x y : Int) : 0 ≤ gauss sigma x y := Real.exp_nonneg _

theorem gauss_comm (sigma : ℝ) (x y : Int) : gauss sigma x y = gauss sigma y x := by
  rw [gauss, gauss, add_comm]

theorem gauss_neg_left (sigma : ℝ) (x y : Int) : gauss sigma (-x) y = gauss sigma x y := by
  rw [gauss, gauss, Int.cast_neg, neg_sq]

theorem gaussX_neg_left (sigma : ℝ) (x y : Int) : gaussX sigma (-x) y = -gaussX sigma x y := by
  rw [gaussX, gaussX, gauss_neg_left, Int.cast_neg, neg_div, neg_mul, neg_mul]

/-- The row factor of the Gaussian is at most 1. -/
theorem gauss_le_exp_column (sigma : ℝ) (x y : Int) :
    gauss sigma x y ≤ Real.exp (-((x : ℝ) ^ 2 / (2 * sigma ^ 2))) := by
  rw [gauss, Real.exp_le_exp, neg_div, neg_le_neg_iff]
  gcongr
  exact le_add_of_nonneg_right (sq_nonneg _)

/-- R113's bound: an integer offset is at most its square, and `u * exp (-u)` is at most `1 / e`. -/
theorem abs_gaussX_le_one (sigma : ℝ) (x y : Int) : |gaussX sigma x y| ≤ 1 := by
  have hx : |(x : ℝ)| ≤ (x : ℝ) ^ 2 := by
    exact_mod_cast (Int.abs_eq_natAbs x).trans_le (Int.natAbs_le_self_sq x)
  calc |gaussX sigma x y| = |(x : ℝ)| / sigma ^ 2 * gauss sigma x y := by
        rw [gaussX, abs_mul, abs_neg, abs_div, abs_of_nonneg (sq_nonneg sigma), gauss, Real.abs_exp]
    _ ≤ (x : ℝ) ^ 2 / sigma ^ 2 * Real.exp (-((x : ℝ) ^ 2 / (2 * sigma ^ 2))) := by
        gcongr
        · exact gauss_nonneg sigma x y
        · exact gauss_le_exp_column sigma x y
    _ = 2 * ((x : ℝ) ^ 2 / (2 * sigma ^ 2) * Real.exp (-((x : ℝ) ^ 2 / (2 * sigma ^ 2)))) := by ring
    _ ≤ 2 * Real.exp (-1) := by gcongr; exact Real.mul_exp_neg_le_exp_neg_one _
    _ ≤ 1 := by linarith [Real.exp_neg_one_lt_half]

/-! ### Kernel elements (R113, R116) -/

theorem kernelX_eq (n : Nat) (sigma : ℝ) (sf di dj : Nat) :
    kernelX n sigma sf di dj = rhazReal (sf * gaussX sigma ((dj : Int) - (n / 2 : Nat)) ((di : Int) - (n / 2 : Nat))) :=
  rfl

theorem kernelY_eq (n : Nat) (sigma : ℝ) (sf di dj : Nat) :
    kernelY n sigma sf di dj =
      rhazReal (sf * gaussX sigma ((di : Int) - (n / 2 : Nat)) ((dj : Int) - (n / 2 : Nat))) := by
  rw [gaussX, gauss_comm]
  rfl

theorem kernelY_eq_kernelX_swap (n : Nat) (sigma : ℝ) (sf di dj : Nat) :
    kernelY n sigma sf di dj = kernelX n sigma sf dj di := by
  rw [kernelY_eq, kernelX_eq]

/-- In an odd side the offset of the mirrored index is the negated offset. -/
theorem centre_offset_mirror {n d : Nat} (hn : n % 2 = 1) (hd : d < n) :
    ((n - 1 - d : Nat) : Int) - (n / 2 : Nat) = -((d : Int) - (n / 2 : Nat)) := by
  omega

theorem kernelX_mirror {n dj : Nat} (hn : n % 2 = 1) (hj : dj < n) (sigma : ℝ) (sf di : Nat) :
    kernelX n sigma sf di (n - 1 - dj) = -kernelX n sigma sf di dj := by
  rw [kernelX_eq, centre_offset_mirror hn hj, gaussX_neg_left, mul_neg, rhazReal_neg, kernelX_eq]

theorem abs_kernelX_le (n : Nat) (sigma : ℝ) (sf di dj : Nat) : |kernelX n sigma sf di dj| ≤ sf := by
  rw [kernelX_eq]
  refine abs_rhazReal_le ?_
  rw [abs_mul, Nat.abs_cast]
  exact mul_le_of_le_one_right sf.cast_nonneg (abs_gaussX_le_one ..)

/-! ### The filter size (R110, R111) -/

/-- `sHalf` of R110. -/
noncomputable def halfSide (sigma T : ℝ) : Nat := (rhazReal (Real.sqrt (-Real.log T * 2 * sigma ^ 2))).toNat

theorem filterSize_eq_none_iff {sigma T : ℝ} : filterSize sigma T = none ↔ sigma < 1 / 2 ∨ T ≤ 0 ∨ 1 ≤ T := by
  rw [filterSize, ite_eq_left_iff]
  simp only [reduceCtorEq, imp_false, not_not]

theorem filterSize_eq_some_iff {sigma T : ℝ} {n s : Nat} :
    filterSize sigma T = some (n, s) ↔
      (1 / 2 ≤ sigma ∧ 0 < T ∧ T < 1) ∧ s = halfSide sigma T ∧ n = 2 * s + 1 := by
  by_cases h : sigma < 1 / 2 ∨ T ≤ 0 ∨ 1 ≤ T
  · rw [filterSize_eq_none_iff.2 h]
    simp only [reduceCtorEq, false_iff, not_and]
    rintro ⟨h1, h2, h3⟩
    rcases h with h | h | h <;> linarith
  · have hsome : filterSize sigma T = some (2 * halfSide sigma T + 1, halfSide sigma T) := if_neg h
    simp only [not_or, not_lt, not_le] at h
    rw [hsome, Option.some_inj, Prod.mk.injEq, and_iff_right h]
    constructor <;> rintro ⟨rfl, rfl⟩ <;> exact ⟨rfl, rfl⟩

/-- The radicand of R110 grows with sigma and shrinks with T; root and rounding keep the order. -/
theorem halfSide_le_halfSide {sigma sigma' T T' : ℝ} (hs : 0 ≤ sigma) (hss : sigma ≤ sigma') (hT : 0 < T)
    (hTT : T ≤ T') (hT' : T' < 1) : halfSide sigma T' ≤ halfSide sigma' T := by
  have hlog : -Real.log T' ≤ -Real.log T := neg_le_neg (Real.log_le_log hT hTT)
  have hpos : 0 ≤ -Real.log T :=
    (neg_nonneg.2 (Real.log_nonpos (hT.le.trans hTT) hT'.le)).trans hlog
  refine Int.toNat_le_toNat (rhazReal_mono (Real.sqrt_le_sqrt ?_))
  gcongr

/-- A larger sigma and a smaller T never give a smaller side (R110). -/
theorem filterSize_le_filterSize {sigma sigma' T T' : ℝ} {n s n' s' : Nat} (hss : sigma ≤ sigma') (hTT : T ≤ T')
    (h : filterSize sigma T' = some (n, s)) (h' : filterSize sigma' T = some (n', s')) : n ≤ n' := by
  obtain ⟨⟨hs, -, hT'⟩, rfl, rfl⟩ := filterSize_eq_some_iff.1 h
  obtain ⟨⟨-, hT, -⟩, rfl, rfl⟩ := filterSize_eq_some_iff.1 h'
  have hle := halfSide_le_halfSide (by linarith) hss hT hTT hT'
  omega

end Sys2Proof.Machine.Reference

namespace Sys2Proof.Slice0
open Sys2Proof.Machine Sys2Proof.Machine.Reference

/-- Settles O58: mirroring an index negates its offset, on which weight and rounding are odd. -/
theorem kernelsOddSymmetric : Obligations.KernelsOddSymmetric := by
  intro n sigma sf di dj hn hi hj
  refine ⟨kernelX_mirror hn hj sigma sf di, ?_, kernelY_eq_kernelX_swap n sigma sf di dj⟩
  rw [kernelY_eq_kernelX_swap, kernelY_eq_kernelX_swap, kernelX_mirror hn hi]

/-- Settles O59: each derivative weight is at most 1 in magnitude, and rounding keeps an integer bound. -/
theorem kernelValuesBounded : Obligations.KernelValuesBounded := fun n sigma sf di dj _ =>
  ⟨abs_kernelX_le n sigma sf di dj,
    (kernelY_eq_kernelX_swap n sigma sf di dj).symm ▸ abs_kernelX_le n sigma sf dj di⟩

/-- Settles O60: both monotonicities are one comparison of half sides. -/
theorem filterSizeOddAndMonotone : Obligations.FilterSizeOddAndMonotone := by
  refine ⟨fun sigma T => filterSize_eq_none_iff, fun sigma T n s h => ?_,
    fun sigma sigma' T n s n' s' hss h h' => filterSize_le_filterSize hss le_rfl h h',
    fun sigma T T' n s n' s' hTT h h' => filterSize_le_filterSize le_rfl hTT h' h⟩
  obtain ⟨-, -, rfl⟩ := filterSize_eq_some_iff.1 h
  exact ⟨rfl, by omega⟩

end Sys2Proof.Slice0

/-! PROOFS. Rounding and the convolution sums as arithmetic: `rhaz` against its window, and the bounds of R122
(41_convolver R120 to R125). -/

namespace Sys2Proof.Machine

/-! ### `rhaz` as the nearest integer (R12, R125) -/

/-- `rhaz` rounds the magnitude to the integer whose half-open window of width one holds it: the lower end, a half
below, belongs to the window and the upper end does not. -/
theorem rhaz_window (c : Int) {q : Nat} (hq : 1 ≤ q) :
    2 * (|rhaz c q| * q) ≤ 2 * |c| + q ∧ 2 * |c| < 2 * (|rhaz c q| * q) + q := by
  obtain ⟨m, hrhaz, hm⟩ := rhaz_eq c q
  have habs : |rhaz c q| = m := by
    rw [hrhaz]
    split
    · rw [abs_neg, Nat.abs_cast]
    · exact Nat.abs_cast m
  have hdiv := Nat.div_add_mod' c.natAbs q
  have hmod := Nat.mod_lt c.natAbs hq
  have hnat : 2 * (m * q) ≤ 2 * c.natAbs + q ∧ 2 * c.natAbs < 2 * (m * q) + q := by
    split at hm
    · rw [hm, Nat.add_mul, Nat.one_mul]; omega
    · rw [hm, Nat.add_zero]; omega
  rw [habs, Int.abs_eq_natAbs]
  exact_mod_cast hnat

/-- Rounding keeps the sign, so distances can be measured between magnitudes. -/
theorem abs_sub_rhaz_mul (c : Int) (q : Nat) : |c - rhaz c q * q| = abs (|c| - |rhaz c q| * q) := by
  obtain ⟨hc, hr⟩ | ⟨hc, hr⟩ := rhaz_neg_or_nonneg c q
  · rw [abs_of_neg hc, abs_of_nonpos hr, ← abs_neg]
    congr 1
    ring
  · rw [abs_of_nonneg hc, abs_of_nonneg hr]

theorem abs_rhaz_le (c : Int) {q : Nat} (hq : 1 ≤ q) : |rhaz c q| ≤ |c| := by
  obtain ⟨hlow, -⟩ := rhaz_window c hq
  by_contra! hlt
  have hq' : (1 : Int) ≤ q := by exact_mod_cast hq
  have hone := le_mul_of_one_le_right (abs_nonneg c) hq'
  have hmul := mul_le_mul_of_nonneg_right (Int.add_one_le_of_lt hlt) (Int.natCast_nonneg q)
  rw [add_mul, one_mul] at hmul
  omega

theorem rhaz_eq_zero_iff (c : Int) {q : Nat} (hq : 1 ≤ q) : rhaz c q = 0 ↔ 2 * |c| < q := by
  obtain ⟨hlow, hhigh⟩ := rhaz_window c hq
  constructor
  · intro h
    simpa [h] using hhigh
  · intro h
    by_contra h0
    have hle := le_mul_of_one_le_left (Int.natCast_nonneg q) (Int.one_le_abs h0)
    omega

/-- Two multiples of `q` at less than `q / 2` from one number are the same multiple. -/
theorem eq_of_near {c v w : Int} {q : Nat} (hv : 2 * |c - v * q| < q) (hw : 2 * |c - w * q| < q) : v = w := by
  have hdist : |(v - w) * q| < q := by
    have htri := abs_sub_le (v * q) c (w * q)
    rw [sub_mul]
    rw [abs_sub_comm] at hv
    omega
  by_contra hne
  have hle := le_mul_of_one_le_left (Int.natCast_nonneg q) (Int.one_le_abs (sub_ne_zero.2 hne))
  rw [abs_mul, Nat.abs_cast] at hdist
  omega

end Sys2Proof.Machine

namespace Sys2Proof.Slice0
open Sys2Proof.Machine

/-- Settles O39: every clause is read off the window in which `rhaz` places `|c|`; an odd `q` is twice no distance. -/
theorem rhazIsNearest : Obligations.RhazIsNearest := by
  intro c q hq
  obtain ⟨hlow, hhigh⟩ := rhaz_window c hq
  have hdist := abs_sub_rhaz_mul c q
  have hsign := abs_cases (|c| - |rhaz c q| * q)
  have hnear : 2 * |c - rhaz c q * q| ≤ q := by rw [hdist]; omega
  refine ⟨hnear, fun htie => ?_, abs_rhaz_le c hq, rhaz_eq_zero_iff c hq, fun hodd v => ?_⟩
  · rw [hdist] at htie
    rw [abs_mul, Nat.abs_cast]
    omega
  · have hno (w : Int) : 2 * |c - w * q| ≠ q := by omega
    exact ⟨hno v, fun hv => eq_of_near (hv.lt_of_ne (hno v)) (hnear.lt_of_ne (hno _))⟩

/-! ### The size of the sums (R122) -/

/-- The sum of the magnitudes of the kernel's elements (R122). -/
def kernelAbsSum (s : State) (ker : Buf) : Int :=
  ∑ di ∈ Finset.range (side s), ∑ dj ∈ Finset.range (side s), |s.elemInt ker (di * side s + dj)|

/-- A pixel is a byte (R40, R120). -/
theorem abs_padded_le (s : State) (y x : Int) : |padded s y x| ≤ 255 := by
  unfold padded
  split
  · have h := elem_lt s .img (y * cols s + x).toNat
    simp only [Buf.elemBytes] at h
    rw [Nat.abs_cast]
    omega
  · decide

theorem abs_convSum_le (s : State) (ker : Buf) (r c : Nat) : |convSum s ker r c| ≤ 255 * kernelAbsSum s ker := by
  simp only [kernelAbsSum, Finset.mul_sum]
  refine (Finset.abs_sum_le_sum_abs _ _).trans (Finset.sum_le_sum fun di _ => ?_)
  refine (Finset.abs_sum_le_sum_abs _ _).trans (Finset.sum_le_sum fun dj _ => ?_)
  rw [abs_mul]
  exact mul_le_mul_of_nonneg_right (abs_padded_le s _ _) (abs_nonneg _)

/-- A kernel has at most 255 * 255 elements of 32 bits (R35, R65). -/
theorem kernelAbsSum_le (s : State) (ker : Buf) : kernelAbsSum s ker ≤ 255 * 255 * 2 ^ 31 := by
  have helem (e : Nat) : |s.elemInt ker e| ≤ 2 ^ 31 := by
    obtain ⟨hlow, hhigh⟩ := elemInt_range s ker e
    exact abs_le.2 ⟨hlow, hhigh.le⟩
  have hside : side s ≤ 255 := Nat.le_of_lt_succ s.latched.ksize.isLt
  have hcard : side s * side s ≤ 255 * 255 := Nat.mul_le_mul hside hside
  calc kernelAbsSum s ker
    _ ≤ ∑ _ ∈ Finset.range (side s), ∑ _ ∈ Finset.range (side s), (2 ^ 31 : Int) :=
      Finset.sum_le_sum fun _ _ => Finset.sum_le_sum fun _ _ => helem _
    _ = (side s * side s : Nat) * 2 ^ 31 := by simp [mul_assoc]
    _ ≤ 255 * 255 * 2 ^ 31 := by omega

/-- Settles O40: a byte times a kernel element, summed; 255 * 8421504 is below 2^31. -/
theorem convolutionSumsBounded : Obligations.ConvolutionSumsBounded := by
  intro s ker r c
  have hle := abs_convSum_le s ker
  have hker := kernelAbsSum_le s ker
  refine ⟨by have := hle r c; omega, hle r c, ?_⟩
  rintro hsmall ⟨r', c', -, -, hout⟩
  change kernelAbsSum s ker ≤ 8421504 at hsmall
  have := abs_le.1 (hle r' c')
  omega

end Sys2Proof.Slice0

/-! PROOFS. The life of a convolver command: its accept, which is the same argument for every command, and what its
stages leave (41_convolver R121, R124, R126, 45_control R205 to R207). -/

namespace Sys2Proof.Machine

/-! ### Validation (R206) -/

theorem validate_eq_dim {p : Params} {r : ParamRegs} {c : Checks} (hc : c.dim = true) (h : ¬ dimOk p r = true) :
    validate p r c = .dim := by
  rw [validate, hc, Bool.eq_false_iff.2 h]
  rfl

theorem validate_eq_ksize {p : Params} {r : ParamRegs} {c : Checks} (hdim : c.dim = true → dimOk p r = true)
    (hc : c.ksize = true) (h : ¬ ksizeOk p r = true) : validate p r c = .ksize := by
  rw [validate, if_neg (by simpa using hdim), hc, Bool.eq_false_iff.2 h]
  rfl

theorem validate_eq_scale {p : Params} {r : ParamRegs} {c : Checks} (hdim : c.dim = true → dimOk p r = true)
    (hks : c.ksize = true → ksizeOk p r = true) (hc : c.scale = true) (h : ¬ scaleOk r = true) :
    validate p r c = .scale := by
  rw [validate, if_neg (by simpa using hdim), if_neg (by simpa using hks), hc, Bool.eq_false_iff.2 h]
  rfl

theorem exec_idle_refused {i : Instr} {s : State} {code : ErrCode} (hb : s.status.busy = false)
    (hv : validate s.params s.live (checksOf i) = code) (hcode : code ≠ .none) :
    exec i s = .next (s.refuse (encode i) code) := by
  rw [exec_next, if_neg (by simp [hb]), accept_eq, hv, if_neg hcode]

theorem exec_idle_started {i : Instr} {s : State} (hb : s.status.busy = false)
    (hv : validate s.params s.live (checksOf i) = .none) : exec i s = .next (s.start i) := by
  rw [exec_next, if_neg (by simp [hb]), accept_eq, if_pos hv]

/-! ### What the stages of the convolver leave (R121, R124) -/

theorem convStage_elemInts {out : Buf} (hb : out.elemBytes = 4) (k : Buf) (s : State) :
    (convStage k out s).elemInts out s.latched.region = (s.convSums k).map wrap32 := by
  apply List.ext_getElem
  · simp
  intro e h1 h2
  simp only [State.elemInts, List.getElem_map, List.getElem_range]
  exact elemInt_convStage_same hb _

/-- A stage leaves the elements of the buffers it does not write, when its region fits the reference buffers: the region
of any legal implementation does (R7), whatever its own MAX_N. -/
theorem agreeOn_performStage_other {s : State} (hr : s.latched.region ≤ 1024 * 1024) {st : Stage} {b : Buf} {n : Nat}
    (hn : n ≤ b.capacity Params.reference) (hb : b ∉ st.outputs) : AgreeOn s (performStage st s) b n := fun _ he =>
  elem_performStage_other st (p := Params.reference) (by decide) hr (lt_of_lt_of_le he hn) (.inl hb)

end Sys2Proof.Machine

namespace Sys2Proof.Slice0
open Sys2Proof.Machine

/-! ### Accept (R205, R206), for every command -/

/-- The accept of any command, in the words of the statements: its own word, checks and stages. -/
theorem acceptedAs (i : Instr) :
    AcceptedAs i (encode i) (checksOf i).dim (checksOf i).ksize (checksOf i).scale (stagesOf i)
      (firstCode (stagesOf i)) := by
  refine ⟨rfl, decode_encode i, fun s hb => ?_⟩
  have hdim : DimsValid s.params s.live ↔ dimOk s.params s.live = true := (dimOk_iff _ _).symm
  have hks : KsizeValid s.params s.live ↔ ksizeOk s.params s.live = true := (ksizeOk_iff _ _).symm
  have hsc : ScaleValid s.live ↔ scaleOk s.live = true := (scaleOk_iff _).symm
  rw [hdim, hks, hsc]
  refine ⟨fun ⟨hc, hbad⟩ => ?_, fun hd ⟨hc, hbad⟩ => ?_, fun hd hk ⟨hc, hbad⟩ => ?_, fun hd hk hs => ?_⟩
  · exact exec_idle_refused hb (validate_eq_dim hc hbad) (by decide)
  · exact exec_idle_refused hb (validate_eq_ksize hd hc hbad) (by decide)
  · exact exec_idle_refused hb (validate_eq_scale hd hk hc hbad) (by decide)
  · exact exec_idle_started hb ((validate_none_iff _ _ _).2 ⟨hd, hk, hs⟩)

/-! ### The stages' sums as the statements write them (R121) -/

theorem convSums_pixel {s : State} (ker : Buf) {r c : Nat} (hc : c < cols s)
    (h : r * cols s + c < (s.convSums ker).length) : (s.convSums ker)[r * cols s + c] = convSum s ker r c := by
  rw [convSums_getElem, pixel_div hc, pixel_mod hc]
  simp only [convSum, padded, pad_elems]

theorem convSums_pixel_lt {s : State} (ker : Buf) {r c : Nat} (hr : r < rows s) (hc : c < cols s) :
    r * cols s + c < (s.convSums ker).length := by
  rw [convSums_length]
  exact pixel_lt hr hc

/-- The list a convolution leaves in its output, read pixel by pixel. -/
theorem holdsConvolution_of_elemInts {s t : State} {ker out : Buf}
    (h : t.elemInts out s.latched.region = (s.convSums ker).map wrap32) : HoldsConvolution s t ker out := by
  intro r c hr hc
  have hlt := convSums_pixel_lt ker hr hc
  have hget := elemInts_getD t out (pixel_lt hr hc)
  rw [← hget, h, List.getD_eq_getElem _ _ (by simpa using hlt), List.getElem_map, convSums_pixel ker hc, wrap32,
    BitVec.toInt_ofInt]

theorem outside32_iff (z : Int) : outside32 z = true ↔ z < -2 ^ 31 ∨ 2 ^ 31 - 1 < z := by
  simp [outside32]

/-- Every entry of the list of sums is the sum at some pixel of the region. -/
theorem sumOverflows_iff (s : State) (ker : Buf) : SumOverflows s ker ↔ (s.convSums ker).any outside32 = true := by
  rw [List.any_eq_true]
  constructor
  · rintro ⟨r, c, hr, hc, hout⟩
    have hlt := convSums_pixel_lt ker hr hc
    exact ⟨_, List.getElem_mem hlt, (outside32_iff _).2 (by rwa [convSums_pixel ker hc])⟩
  · rintro ⟨z, hz, hout⟩
    obtain ⟨e, he, rfl⟩ := List.getElem_of_mem hz
    have hreg : e < rows s * cols s := by simpa using he
    have hcols : 0 < cols s := Nat.pos_of_lt_mul_left hreg
    refine ⟨e / cols s, e % cols s, Nat.div_lt_of_lt_mul (by rwa [mul_comm]), Nat.mod_lt _ hcols, ?_⟩
    rw [← convSums_pixel ker (Nat.mod_lt _ hcols) (by rwa [Nat.div_add_mod'])]
    simpa only [Nat.div_add_mod'] using (outside32_iff _).1 hout

/-! ### One stage that ends its command (R207) -/

theorem endedFrom_performStage (st : Stage) (s : State) :
    EndedFrom s ((performStage st s).advance []) (performStage st s).status.convOvf := by
  cases st <;> rfl

theorem bytesSameOutside_performStage {st : Stage} {out : Buf} (h : st.outputs = [out]) (s : State)
    (rest : List Stage) :
    BytesSameOutside s ((performStage st s).advance rest) out.base (out.elemBytes * (rows s * cols s)) := by
  intro k hk
  rw [byteAt_advance]
  exact byteAt_performStage_outside st s k (by simpa [h] using hk)

/-- A command whose one stage convolves with `ker` into `out` (R121). -/
theorem conv_completes (i : Instr) {st : Stage} {ker out : Buf} (hst : performStage st = convStage ker out)
    (hout : st.outputs = [out]) (hb : out.elemBytes = 4) {s : State} (hrun : RunningStages s [st]) :
    ∃ t, exec i s = .next t ∧ HoldsConvolution s t ker out ∧
      (t.status.convOvf = true ↔ s.status.convOvf = true ∨ SumOverflows s ker) ∧
      BytesSameOutside s t out.base (4 * (rows s * cols s)) ∧ EndedFrom s t t.status.convOvf := by
  obtain ⟨hbusy, hstages⟩ := hrun
  refine ⟨_, exec_busy i hbusy hstages, ?_, ?_, hb ▸ bytesSameOutside_performStage hout s [], ?_⟩
  · apply holdsConvolution_of_elemInts
    rw [hst, ← convStage_elemInts hb]
    exact elemInts_congr fun e _ => elem_advance _ _ _ _
  · rw [advance_convOvf, hst, convStage_convOvf, Bool.or_eq_true, sumOverflows_iff]
  · rw [advance_convOvf]
    exact endedFrom_performStage st s

/-- A command whose one stage descales `src` into `out` (R124). -/
theorem descale_completes (i : Instr) {st : Stage} {src out : Buf} (hst : performStage st = descaleStage src out)
    (hout : st.outputs = [out]) (hb : out.elemBytes = 4) {s : State} (hrun : RunningStages s [st]) :
    ∃ t, exec i s = .next t ∧
      (∀ e, e < rows s * cols s → t.elemInt out e = rhaz (s.elemInt src e) (scaleFactor s)) ∧
      BytesSameOutside s t out.base (4 * (rows s * cols s)) ∧ EndedFrom s t s.status.convOvf := by
  obtain ⟨hbusy, hstages⟩ := hrun
  refine ⟨_, exec_busy i hbusy hstages, fun e he => ?_, hb ▸ bytesSameOutside_performStage hout s [], ?_⟩
  · rw [elemInt_advance, hst, elemInt_descaleStage_same hb he]
  · have hovf : (performStage st s).status.convOvf = s.status.convOvf := by rw [hst]; rfl
    exact hovf ▸ endedFrom_performStage st s

/-- Settles O8: CONV.X and CONV.Y are one argument on two pairs of buffers. -/
theorem convRunsAndCompletes : Obligations.ConvRunsAndCompletes :=
  ⟨acceptedAs .convX, acceptedAs .convY, fun _ => conv_completes .convX rfl rfl rfl,
    fun _ => conv_completes .convY rfl rfl rfl⟩

/-- Settles O9: DESCALE.X and DESCALE.Y are one argument on two pairs of buffers. -/
theorem descaleRunsAndCompletes : Obligations.DescaleRunsAndCompletes :=
  ⟨acceptedAs .descaleX, acceptedAs .descaleY, fun _ => descale_completes .descaleX rfl rfl rfl,
    fun _ => descale_completes .descaleY rfl rfl rfl⟩

end Sys2Proof.Slice0

/-! PROOFS. GRAD: three engine steps, each of which leaves what the others wrote or still have to read (41_convolver
R126). -/

namespace Sys2Proof.Machine

/-! ### One engine step (R207) -/

/-- The state after stage `st`, with `rest` still to run. -/
def State.afterStage (s : State) (st : Stage) (rest : List Stage) : State := (performStage st s).advance rest

@[simp] theorem afterStage_latched (s : State) (st : Stage) (rest : List Stage) :
    (s.afterStage st rest).latched = s.latched := by simp [State.afterStage]
@[simp] theorem afterStage_convOvf (s : State) (st : Stage) (rest : List Stage) :
    (s.afterStage st rest).status.convOvf = (performStage st s).status.convOvf := advance_convOvf _ _

/-- What an engine step with stages left can change (R207). -/
theorem afterStage_cons_eq (s : State) (st nx : Stage) (rest : List Stage) : ∃ m ovf,
    s.afterStage st (nx :: rest) = { s with
      mem := m
      stages := nx :: rest
      status := { s.status with convOvf := ovf, stage := nx.code } } :=
  ⟨(performStage st s).mem, (performStage st s).status.convOvf, by cases st <;> rfl⟩

/-- What the last engine step of a command can change (R207). -/
theorem afterStage_nil_eq (s : State) (st : Stage) : ∃ m ovf,
    s.afterStage st [] = { s with
      mem := m
      stages := []
      status := { s.status with busy := false, done := true, convOvf := ovf } } :=
  ⟨(performStage st s).mem, (performStage st s).status.convOvf, by cases st <;> rfl⟩

theorem byteAt_afterStage_outside {s : State} {st : Stage} (rest : List Stage) {k : Nat}
    (h : ∀ b ∈ st.outputs, k < b.base ∨ b.base + b.elemBytes * s.latched.region ≤ k) :
    (s.afterStage st rest).byteAt k = s.byteAt k := by
  rw [State.afterStage, byteAt_advance, byteAt_performStage_outside st s k h]

theorem agreeOn_afterStage_other {s : State} (hr : s.latched.region ≤ 1024 * 1024) {st : Stage} {b : Buf}
    (rest : List Stage) {n : Nat} (hn : n ≤ b.capacity Params.reference) (hb : b ∉ st.outputs) :
    AgreeOn s (s.afterStage st rest) b n := fun e he => by
  rw [State.afterStage, elem_advance, agreeOn_performStage_other hr hn hb e he]

/-! ### The first three stages of GRAD and RUN (R126, R202) -/

/-- The state after CONVX, CONVY and DESCALE, with the stages listed still to run after each. -/
def State.afterGradient (s : State) (l1 l2 l3 : List Stage) : State :=
  ((s.afterStage .convX l1).afterStage .convY l2).afterStage .descaleXY l3

/-- No kernel has more elements than the reference buffers hold, KSIZE being a byte (R35). -/
theorem kernel_le (p : ParamRegs) : p.N * p.N ≤ 255 * 255 :=
  Nat.mul_le_mul (Nat.le_of_lt_succ p.ksize.isLt) (Nat.le_of_lt_succ p.ksize.isLt)

theorem descaleXY_eq (s : State) : performStage .descaleXY s = performStage .descaleY (performStage .descaleX s) := rfl
theorem descaleXY_convOvf (s : State) : (performStage .descaleXY s).status.convOvf = s.status.convOvf := rfl

section
variable {s : State} (hr : s.latched.region ≤ 1024 * 1024)
include hr

/-- CONVX writes neither the image nor KY, so CONVY finds the sums that were there before it. -/
theorem convSums_afterConvX (l : List Stage) : (s.afterStage .convX l).convSums .ky = s.convSums .ky :=
  convSums_congr (afterStage_latched s _ l) (agreeOn_afterStage_other hr l hr (by decide))
    (agreeOn_afterStage_other hr l (kernel_le s.latched) (by decide))

/-- The second DESCALE does not write FX, and neither writes CX (R126). -/
theorem descaleXY_elemInt_fx {e : Nat} (he : e < s.latched.region) :
    (performStage .descaleXY s).elemInt .fx e = rhaz ((performStage .descaleXY s).elemInt .cx e) s.latched.SF := by
  have hcx := agreeOn_performStage_other (b := .cx) (st := .descaleXY) hr hr (by decide) e he
  have hfx := agreeOn_performStage_other (s := performStage .descaleX s) (b := .fx) (st := .descaleY)
    (by simpa using hr) hr (by decide) e he
  rw [elemInt_congr hcx, descaleXY_eq, elemInt_congr hfx]
  exact elemInt_descaleStage_same rfl he

/-- The first DESCALE does not write CY, which the second one reads and does not write either (R126). -/
theorem descaleXY_elemInt_fy {e : Nat} (he : e < s.latched.region) :
    (performStage .descaleXY s).elemInt .fy e = rhaz ((performStage .descaleXY s).elemInt .cy e) s.latched.SF := by
  have hcy := agreeOn_performStage_other (b := .cy) (st := .descaleXY) hr hr (by decide) e he
  have hcy' := agreeOn_performStage_other (b := .cy) (st := .descaleX) hr hr (by decide) e he
  rw [elemInt_congr hcy, descaleXY_eq, ← elemInt_congr hcy', ← performStage_latched .descaleX s]
  exact elemInt_descaleStage_same rfl (by simpa using he)

variable (l1 l2 l3 : List Stage)

theorem afterGradient_elemInts_cx :
    (s.afterGradient l1 l2 l3).elemInts .cx s.latched.region = (s.convSums .kx).map wrap32 := by
  rw [← convStage_elemInts (out := .cx) rfl .kx s]
  apply elemInts_congr
  intro e he
  rw [State.afterGradient, agreeOn_afterStage_other (by simpa using hr) l3 hr (by decide) e he,
    agreeOn_afterStage_other (by simpa using hr) l2 hr (by decide) e he]
  exact elem_advance _ _ _ _

theorem afterGradient_elemInts_cy :
    (s.afterGradient l1 l2 l3).elemInts .cy s.latched.region = (s.convSums .ky).map wrap32 := by
  rw [← convSums_afterConvX hr l1, ← afterStage_latched s .convX l1, ← convStage_elemInts (out := .cy) rfl]
  apply elemInts_congr
  intro e he
  rw [afterStage_latched] at he
  rw [State.afterGradient, agreeOn_afterStage_other (by simpa using hr) l3 hr (by decide) e he]
  exact elem_advance _ _ _ _

/-- FX and FY are the descaled CX and CY of the state the gradient leaves (R126). -/
theorem afterGradient_descaled {e : Nat} (he : e < s.latched.region) :
    (s.afterGradient l1 l2 l3).elemInt .fx e = rhaz ((s.afterGradient l1 l2 l3).elemInt .cx e) s.latched.SF ∧
    (s.afterGradient l1 l2 l3).elemInt .fy e = rhaz ((s.afterGradient l1 l2 l3).elemInt .cy e) s.latched.SF := by
  have hlatched : ((s.afterStage .convX l1).afterStage .convY l2).latched = s.latched := by simp
  rw [← hlatched] at hr he ⊢
  rw [State.afterGradient, State.afterStage, elemInt_advance, elemInt_advance, elemInt_advance, elemInt_advance]
  exact ⟨descaleXY_elemInt_fx hr he, descaleXY_elemInt_fy hr he⟩

theorem afterGradient_convOvf : (s.afterGradient l1 l2 l3).status.convOvf =
    (s.status.convOvf || (s.convSums .kx).any outside32 || (s.convSums .ky).any outside32) := by
  rw [State.afterGradient, afterStage_convOvf, descaleXY_convOvf, afterStage_convOvf, performStage,
    convStage_convOvf, convSums_afterConvX hr, afterStage_convOvf, performStage, convStage_convOvf]

end

/-- What the gradient changes beside its four buffers, when it ends its command. -/
theorem afterGradient_nil_eq (s : State) (a b : Stage) (l1 l2 : List Stage) : ∃ m ovf,
    s.afterGradient (a :: l1) (b :: l2) [] = { s with
      mem := m
      stages := []
      status := { s.status with busy := false, done := true, convOvf := ovf, stage := b.code } } := by
  obtain ⟨m1, ovf1, h1⟩ := afterStage_cons_eq s .convX a l1
  obtain ⟨m2, ovf2, h2⟩ := afterStage_cons_eq (s.afterStage .convX (a :: l1)) .convY b l2
  obtain ⟨m3, ovf3, h3⟩ :=
    afterStage_nil_eq ((s.afterStage .convX (a :: l1)).afterStage .convY (b :: l2)) .descaleXY
  exact ⟨m3, ovf3, by rw [State.afterGradient, h3, h2, h1]⟩

theorem byteAt_afterGradient_outside {s : State} (l1 l2 l3 : List Stage) {k : Nat}
    (h : ∀ b ∈ [Buf.cx, .cy, .fx, .fy], k < b.base ∨ b.base + 4 * s.latched.region ≤ k) :
    (s.afterGradient l1 l2 l3).byteAt k = s.byteAt k := by
  simp only [List.forall_mem_cons, List.not_mem_nil, false_imp_iff, implies_true, and_true] at h
  obtain ⟨hcx, hcy, hfx, hfy⟩ := h
  rw [State.afterGradient, byteAt_afterStage_outside l3, byteAt_afterStage_outside l2, byteAt_afterStage_outside l1]
  · simpa [Stage.outputs, Buf.elemBytes] using hcx
  · simpa [Stage.outputs, Buf.elemBytes] using hcy
  · simpa [Stage.outputs, Buf.elemBytes] using ⟨hfx, hfy⟩

end Sys2Proof.Machine

namespace Sys2Proof.Slice0
open Sys2Proof.Machine

theorem RegionFits.region_le_reference {s : State} (h : RegionFits s) : s.latched.region ≤ 1024 * 1024 := by
  have hle := h.region_le
  obtain ⟨⟨⟨-, hH⟩, ⟨-, hW⟩, -⟩, -⟩ := h
  exact hle.trans (Nat.mul_le_mul hH hW)

theorem RunningStages.exec {s : State} {st : Stage} {rest : List Stage} (h : RunningStages s (st :: rest)) (i : Instr) :
    Machine.exec i s = .next (s.afterStage st rest) :=
  exec_busy i h.1 h.2

theorem RunningStages.afterStage {s : State} {st nx : Stage} {rest : List Stage}
    (h : RunningStages s (st :: nx :: rest)) : RunningStages (s.afterStage st (nx :: rest)) (nx :: rest) :=
  ⟨(performStage_busy st s).trans h.1, rfl⟩

/-- Settles O10: the three engine steps are `State.afterGradient`. -/
theorem gradRunsAndCompletes : Obligations.GradRunsAndCompletes := by
  refine ⟨acceptedAs .grad, fun s hrun hfit => ?_⟩
  have hr := hfit.region_le_reference
  have hovf := afterGradient_convOvf hr [.convY, .descaleXY] [.descaleXY] []
  rw [Bool.eq_iff_iff, Bool.or_eq_true, Bool.or_eq_true, or_assoc, ← sumOverflows_iff, ← sumOverflows_iff] at hovf
  obtain ⟨m, ovf, hended⟩ := afterGradient_nil_eq s .convY .descaleXY [.descaleXY] []
  exact ⟨_, _, s.afterGradient [.convY, .descaleXY] [.descaleXY] [], hrun.exec _, hrun.afterStage.exec _,
    hrun.afterStage.afterStage.exec _, hrun.afterStage, rfl, hrun.afterStage.afterStage, rfl,
    holdsConvolution_of_elemInts (afterGradient_elemInts_cx hr _ _ _),
    holdsConvolution_of_elemInts (afterGradient_elemInts_cy hr _ _ _),
    fun _ he => (afterGradient_descaled hr _ _ _ he).1, fun _ he => (afterGradient_descaled hr _ _ _ he).2, hovf,
    fun _ hk => byteAt_afterGradient_outside _ _ _ hk, by rw [hended]; rfl⟩

end Sys2Proof.Slice0

/-! PROOFS. The MAG arithmetic: the squared magnitude fits its element, and `norm8` with its exact integer test is the
floor of the real rescale (42_gradient_direction R142 to R145). -/

namespace Sys2Proof.Machine

/-! ### Least and greatest of a list (R143) -/

theorem leastOf_mem : ∀ {vs : List Nat}, vs ≠ [] → leastOf vs ∈ vs
  | [v], _ => List.mem_singleton_self v
  | v :: w :: vs, _ => by
    have ih := leastOf_mem (List.cons_ne_nil w vs)
    rw [leastOf, min_def]
    split
    · exact List.mem_cons_self
    · exact List.mem_cons_of_mem v ih

theorem leastOf_le {vs : List Nat} {v : Nat} (h : v ∈ vs) : leastOf vs ≤ v := by
  fun_induction leastOf vs with
  | case1 => exact absurd h List.not_mem_nil
  | case2 u => exact (List.mem_singleton.1 h).ge
  | case3 u w vs ih =>
    rcases List.mem_cons.1 h with rfl | h
    · exact min_le_left _ _
    · exact (min_le_right _ _).trans (ih h)

theorem le_greatestOf {vs : List Nat} {v : Nat} (h : v ∈ vs) : v ≤ greatestOf vs := by
  induction vs with
  | nil => exact absurd h List.not_mem_nil
  | cons u vs ih =>
    rcases List.mem_cons.1 h with rfl | h
    · exact le_max_left _ _
    · exact (ih h).trans (le_max_right _ _)

theorem greatestOf_le {vs : List Nat} {m : Nat} (h : ∀ v ∈ vs, v ≤ m) : greatestOf vs ≤ m := by
  induction vs with
  | nil => exact Nat.zero_le m
  | cons u vs ih => exact max_le (h u List.mem_cons_self) (ih fun v hv => h v (List.mem_cons_of_mem u hv))

theorem leastOf_eq {vs : List Nat} {lo : Nat} (hlo : lo ∈ vs) (h : ∀ v ∈ vs, lo ≤ v) : leastOf vs = lo :=
  (leastOf_le hlo).antisymm (h _ (leastOf_mem (List.ne_nil_of_mem hlo)))

theorem greatestOf_eq {vs : List Nat} {hi : Nat} (hhi : hi ∈ vs) (h : ∀ v ∈ vs, v ≤ hi) : greatestOf vs = hi :=
  (greatestOf_le h).antisymm (le_greatestOf hhi)

theorem norm8_eq_map {vs : List Nat} {lo hi : Nat} (hlo : lo ∈ vs) (hhi : hi ∈ vs)
    (h : ∀ v ∈ vs, lo ≤ v ∧ v ≤ hi) : norm8 vs = vs.map (norm8Value lo hi) := by
  rw [norm8, leastOf_eq hlo fun v hv => (h v hv).1, greatestOf_eq hhi fun v hv => (h v hv).2]

/-! ### The exact test (R144) -/

/-- A test that a bound decides finds that bound. -/
theorem largestUpTo_eq {t : Nat → Bool} {m n : Nat} (hm : m ≤ n) (h : ∀ k ≤ n, t k = true ↔ k ≤ m) :
    largestUpTo t n = m := by
  obtain ⟨htrue, hfalse⟩ := largestUpTo_spec ((h 0 n.zero_le).2 m.zero_le) n
  refine ((h _ (largestUpTo_le t n)).1 htrue).antisymm (not_lt.1 fun hlt => ?_)
  exact absurd ((h m hm).2 le_rfl) (by simp [hfalse m hlt hm])

/-- Squaring twice removes the roots: a test of `x + y ≤ c` that mentions only the three squares. -/
theorem add_le_iff_sq {x y c : ℝ} (hx : 0 ≤ x) (hy : 0 ≤ y) (hc : 0 ≤ c) :
    x + y ≤ c ↔ 0 ≤ c ^ 2 - x ^ 2 - y ^ 2 ∧ 4 * x ^ 2 * y ^ 2 ≤ (c ^ 2 - x ^ 2 - y ^ 2) ^ 2 := by
  have hmix : 0 ≤ 2 * x * y := by positivity
  calc x + y ≤ c
      ↔ (x + y) ^ 2 ≤ c ^ 2 := (pow_le_pow_iff_left₀ (by positivity) hc two_ne_zero).symm
    _ ↔ 2 * x * y ≤ c ^ 2 - x ^ 2 - y ^ 2 := by rw [le_sub_iff_add_le, le_sub_iff_add_le]; ring_nf
    _ ↔ 0 ≤ c ^ 2 - x ^ 2 - y ^ 2 ∧ (2 * x * y) ^ 2 ≤ (c ^ 2 - x ^ 2 - y ^ 2) ^ 2 :=
        ⟨fun h => ⟨hmix.trans h, pow_le_pow_left₀ hmix h 2⟩,
          fun ⟨h0, h⟩ => (pow_le_pow_iff_left₀ hmix h0 two_ne_zero).1 h⟩
    _ ↔ _ := by rw [show (2 * x * y) ^ 2 = 4 * x ^ 2 * y ^ 2 by ring]

theorem normTest_iff {lo hi v k : Nat} (hk : k ≤ 255) :
    normTest lo hi v k = true ↔ k * √(hi : ℝ) + (255 - k) * √(lo : ℝ) ≤ 255 * √(v : ℝ) := by
  have hk' : (0 : ℝ) ≤ 255 - k := sub_nonneg.2 (by exact_mod_cast hk)
  rw [add_le_iff_sq (by positivity) (by positivity) (by positivity)]
  simp only [normTest, Bool.and_eq_true, decide_eq_true_eq, mul_pow, Real.sq_sqrt (Nat.cast_nonneg _)]
  rw [← Int.cast_le (R := ℝ), ← Int.cast_le (R := ℝ)]
  push_cast
  ring_nf

/-! ### The real rescale (R143) -/

/-- The integers at most the rescale, with the denominator cleared: the inequality of the exact test. -/
theorem le_rescale_iff {lo hi : Nat} (hlt : lo < hi) (v : Nat) (z : Int) :
    z ≤ Reference.rescale lo hi v ↔ z * √(hi : ℝ) + (255 - z) * √(lo : ℝ) ≤ 255 * √(v : ℝ) := by
  have hden : 0 < √(hi : ℝ) - √(lo : ℝ) := sub_pos.2 (Real.sqrt_lt_sqrt lo.cast_nonneg (Nat.cast_lt.2 hlt))
  rw [Reference.rescale, Int.le_floor, le_div_iff₀ hden]
  constructor <;> intro h <;> linarith

theorem rescale_nonneg {lo hi v : Nat} (hlt : lo < hi) (hlo : lo ≤ v) : 0 ≤ Reference.rescale lo hi v := by
  have : √(lo : ℝ) ≤ √(v : ℝ) := Real.sqrt_le_sqrt (Nat.cast_le.2 hlo)
  rw [le_rescale_iff hlt]
  push_cast
  linarith

theorem rescale_le {lo hi v : Nat} (hlt : lo < hi) (hhi : v ≤ hi) : Reference.rescale lo hi v ≤ 255 := by
  have hv : √(v : ℝ) ≤ √(hi : ℝ) := Real.sqrt_le_sqrt (Nat.cast_le.2 hhi)
  have hlo : √(lo : ℝ) < √(hi : ℝ) := Real.sqrt_lt_sqrt lo.cast_nonneg (Nat.cast_lt.2 hlt)
  refine not_lt.1 fun h => ?_
  have := (le_rescale_iff hlt v 256).1 h
  push_cast at this
  linarith

section
variable {lo hi v : Nat} (hlt : lo < hi) (hlo : lo ≤ v) (hhi : v ≤ hi)
include hlt hlo hhi

/-- The greatest `k` that passes the exact test is the floor of the real rescale (R143, R144). -/
theorem norm8Value_eq_rescale : (norm8Value lo hi v : Int) = Reference.rescale lo hi v := by
  obtain ⟨m, hm⟩ := Int.eq_ofNat_of_zero_le (rescale_nonneg hlt hlo)
  have hle := rescale_le hlt hhi
  rw [norm8Value, if_neg hlt.ne', largestUpTo_eq (m := m) (by omega) fun k hk => ?_, hm]
  rw [normTest_iff hk, ← Int.ofNat_le, ← hm, le_rescale_iff hlt]
  push_cast
  rfl

theorem norm8Value_eq_255_iff : norm8Value lo hi v = 255 ↔ v = hi := by
  have hle := norm8Value_le lo hi v
  calc norm8Value lo hi v = 255
      ↔ (255 : Int) ≤ Reference.rescale lo hi v := by rw [← norm8Value_eq_rescale hlt hlo hhi]; omega
    _ ↔ √(hi : ℝ) ≤ √(v : ℝ) := by rw [le_rescale_iff hlt]; norm_num
    _ ↔ v = hi := by rw [Real.sqrt_le_sqrt_iff v.cast_nonneg, Nat.cast_le]; exact hhi.ge_iff_eq

end

theorem norm8Value_least {lo hi : Nat} (hlt : lo < hi) : norm8Value lo hi lo = 0 := by
  have h := norm8Value_eq_rescale hlt le_rfl hlt.le
  simpa [Reference.rescale] using h

end Sys2Proof.Machine

namespace Sys2Proof.Slice0
open Sys2Proof.Machine

/-- Settles O42: each value is `norm8Value` of the least and greatest, which is the floor of the real rescale. -/
theorem norm8IsExactRescale : Obligations.Norm8IsExactRescale := by
  intro vs lo hi hlo hhi hbd
  rw [norm8_eq_map hlo hhi hbd]
  refine ⟨List.length_map _, fun heq x hx => ?_, fun hne k hk => ?_⟩
  · obtain ⟨v, -, rfl⟩ := List.mem_map.1 hx
    exact if_pos heq
  · obtain ⟨hlov, hvhi⟩ := hbd _ (List.getElem_mem hk)
    have hlt : lo < hi := (hlov.trans hvhi).lt_of_ne' hne
    rw [List.getD_eq_getElem _ _ (by simpa using hk), List.getElem_map]
    exact ⟨norm8Value_eq_rescale hlt hlov hvhi, norm8Value_le _ _ _, norm8Value_eq_255_iff hlt hlov hvhi,
      fun heq => by rw [heq, norm8Value_least hlt]⟩

/-- Settles O41: each square is at most `2 ^ 62`, and a sum of two squares is 0 only if both are. -/
theorem squaredMagnitudeFits : Obligations.SquaredMagnitudeFits := by
  intro a b
  have hsq : ∀ z : BitVec 32, z.toInt ^ 2 ≤ (2 ^ 31) ^ 2 := fun z =>
    sq_le_sq' (BitVec.le_toInt z) (BitVec.toInt_lt (x := z)).le
  have ha := hsq a
  have hb := hsq b
  have heq := magSquared_eq a.toInt b.toInt
  refine ⟨by omega, heq, ?_⟩
  rw [← Int.natCast_eq_zero, heq, add_eq_zero_iff_of_nonneg (sq_nonneg _) (sq_nonneg _), sq_eq_zero_iff,
    sq_eq_zero_iff]

end Sys2Proof.Slice0

/-! PROOFS. `phi8` in integers against the real angle: angles are counted in turns, of which multiplication of vectors
adds the fractions, and the carries of that addition are what `turnStep` counts (42_gradient_direction R146 to R148). -/

namespace Sys2Proof.Machine

/-! ### Fractions and carries -/

theorem fract_fract_add (a b : ℝ) : Int.fract (Int.fract a + b) = Int.fract (a + b) :=
  Int.fract_eq_fract.2 ⟨-⌊a⌋, by push_cast [Int.fract]; ring⟩

theorem fract_add_fract (a b : ℝ) : Int.fract (a + Int.fract b) = Int.fract (a + b) := by
  rw [add_comm, fract_fract_add, add_comm]

theorem fract_neg_fract (a : ℝ) : Int.fract (-Int.fract a) = Int.fract (-a) :=
  Int.fract_eq_fract.2 ⟨⌊a⌋, by push_cast [Int.fract]; ring⟩

/-- Adding two fractions carries exactly when the fraction of the sum falls below a summand. -/
theorem add_eq_fract_add_carry {p q : ℝ} {c : Bool} (hp0 : 0 ≤ p) (hp1 : p < 1) (hq0 : 0 ≤ q) (hq1 : q < 1)
    (hc : c = true ↔ Int.fract (p + q) < q) : p + q = Int.fract (p + q) + c.toNat := by
  rcases lt_or_ge (p + q) 1 with h | h
  · have hfract : Int.fract (p + q) = p + q := Int.fract_eq_self.2 ⟨by linarith, h⟩
    have hfalse : c = false := by rw [← Bool.not_eq_true, hc, hfract]; linarith
    simp [hfract, hfalse]
  · have hfract : Int.fract (p + q) = p + q - 1 := by
      rw [← Int.fract_sub_one, Int.fract_eq_self]
      constructor <;> linarith
    have htrue : c = true := by rw [hc, hfract]; linarith
    simp [hfract, htrue]

section
variable {p : ℝ} {c : Bool} (hp0 : 0 ≤ p) (hp1 : p < 1) (hc : c = true ↔ 1 / 2 ≤ p)
include hp0 hp1 hc

theorem floor_add_half_eq : ⌊p + 1 / 2⌋ = c.toNat := by
  rw [Int.floor_eq_iff]
  cases c with
  | false =>
    have : p < 1 / 2 := not_le.1 (hc.not.1 Bool.false_ne_true)
    constructor <;> norm_num <;> linarith
  | true =>
    have : 1 / 2 ≤ p := hc.1 rfl
    constructor <;> norm_num <;> linarith

/-- Doubling a fraction carries exactly from a half on. -/
theorem double_eq_fract_add_carry : 2 * p = Int.fract (2 * p) + c.toNat := by
  rw [two_mul]
  refine add_eq_fract_add_carry hp0 hp1 hp0 hp1 (hc.trans ?_)
  rcases lt_or_ge p (1 / 2) with h | h
  · rw [Int.fract_eq_self.2 ⟨by linarith, by linarith⟩]
    constructor <;> intro <;> linarith
  · rw [← Int.fract_sub_one, Int.fract_eq_self.2 ⟨by linarith, by linarith⟩]
    constructor <;> intro <;> linarith

end

/-- The sign of a difference of less than a half, by the halves the fractions of it and of its negation lie in. -/
theorem pos_iff_fract_halves {d : ℝ} (hlo : -(1 / 2) < d) (hhi : d < 1 / 2) :
    0 < d ↔ ¬ 1 / 2 ≤ Int.fract d ∧ 1 / 2 ≤ Int.fract (-d) := by
  rcases lt_trichotomy d 0 with h | rfl | h
  · have hfract : Int.fract d = d + 1 := by rw [← Int.fract_add_one, Int.fract_eq_self]; constructor <;> linarith
    exact iff_of_false h.not_gt fun ⟨h', _⟩ => h' (by linarith)
  · norm_num
  · have hfract : Int.fract d = d := Int.fract_eq_self.2 ⟨h.le, by linarith⟩
    have hneg : Int.fract (-d) = -d + 1 := by rw [← Int.fract_add_one, Int.fract_eq_self]; constructor <;> linarith
    exact iff_of_true h ⟨by linarith, by linarith⟩

/-! ### The angle of a complex number, in turns -/

/-- The angle in turns, in `[0, 1)`; `theta` of R146 is 360 times it (`theta_eq`). -/
noncomputable def turnOf (z : ℂ) : ℝ := Int.fract (z.arg / (2 * Real.pi))

theorem turnOf_nonneg (z : ℂ) : 0 ≤ turnOf z := Int.fract_nonneg _
theorem turnOf_lt_one (z : ℂ) : turnOf z < 1 := Int.fract_lt_one _

/-- The argument in turns lies in `(-1/2, 1/2]`; bringing it into `[0, 1)` adds a turn exactly to the negative ones. -/
theorem exists_arg_eq_turns (z : ℂ) : ∃ a : ℝ, z.arg = a * (2 * Real.pi) ∧ -(1 / 2) < a ∧ a ≤ 1 / 2 ∧
    turnOf z = if 0 ≤ a then a else a + 1 := by
  have hpi := Real.two_pi_pos
  have hlo : -(1 / 2) < z.arg / (2 * Real.pi) := by
    rw [lt_div_iff₀ hpi]
    linarith [Complex.neg_pi_lt_arg z]
  have hhi : z.arg / (2 * Real.pi) ≤ 1 / 2 := by
    rw [div_le_iff₀ hpi]
    linarith [Complex.arg_le_pi z]
  refine ⟨z.arg / (2 * Real.pi), (div_mul_cancel₀ _ hpi.ne').symm, hlo, hhi, ?_⟩
  rw [turnOf]
  split
  · exact Int.fract_eq_self.2 ⟨‹_›, by linarith⟩
  · rw [← Int.fract_add_one, Int.fract_eq_self]
    constructor <;> linarith

/-- Arguments equal up to whole turns have equal fractions of a turn. -/
theorem fract_turns_eq {a b : ℝ} (h : (a : Real.Angle) = b) :
    Int.fract (a / (2 * Real.pi)) = Int.fract (b / (2 * Real.pi)) := by
  obtain ⟨k, hk⟩ := Real.Angle.angle_eq_iff_two_pi_dvd_sub.1 h
  refine Int.fract_eq_fract.2 ⟨k, ?_⟩
  rw [← sub_div, hk, mul_div_cancel_left₀ _ Real.two_pi_pos.ne']

theorem turnOf_mul {z w : ℂ} (hz : z ≠ 0) (hw : w ≠ 0) : turnOf (z * w) = Int.fract (turnOf z + turnOf w) := by
  rw [turnOf, fract_turns_eq (Complex.arg_mul_coe_angle hz hw), turnOf, turnOf, fract_fract_add, fract_add_fract,
    add_div]

theorem turnOf_conj (z : ℂ) : turnOf (starRingEnd ℂ z) = Int.fract (-turnOf z) := by
  rw [turnOf, fract_turns_eq (Complex.arg_conj_coe_angle z), turnOf, neg_div, fract_neg_fract]

theorem half_le_turnOf_iff (z : ℂ) : 1 / 2 ≤ turnOf z ↔ z.im < 0 ∨ (z.re < 0 ∧ z.im = 0) := by
  obtain ⟨a, ha, hlo, hhi, hturn⟩ := exists_arg_eq_turns z
  have hneg : z.arg < 0 ↔ a < 0 := by rw [ha, ← not_le, ← not_le, mul_nonneg_iff_of_pos_right Real.two_pi_pos]
  have hhalf : z.arg = Real.pi ↔ a = 1 / 2 := by
    rw [ha, ← mul_left_inj' (a := a) (b := 1 / 2) Real.two_pi_pos.ne', show 1 / 2 * (2 * Real.pi) = Real.pi by ring]
  rw [← Complex.arg_neg_iff, ← Complex.arg_eq_pi_iff, hneg, hhalf, hturn]
  split
  · constructor
    · exact fun h => .inr (le_antisymm hhi h)
    · rintro (h | h) <;> linarith
  · exact ⟨fun _ => .inl (not_le.1 ‹_›), fun _ => by linarith⟩

/-- The upper half plane, by the halves a number and its conjugate lie in. -/
theorem im_pos_iff (z : ℂ) : 0 < z.im ↔ ¬ 1 / 2 ≤ turnOf z ∧ 1 / 2 ≤ turnOf (starRingEnd ℂ z) := by
  rw [half_le_turnOf_iff, half_le_turnOf_iff, Complex.conj_im, Complex.conj_re]
  constructor
  · intro h
    exact ⟨by rintro (h' | ⟨-, h'⟩) <;> linarith, .inl (by linarith)⟩
  · rintro ⟨h, h' | ⟨hre, him⟩⟩
    · linarith
    · exact absurd (.inr ⟨hre, by linarith⟩) h

/-! ### Vectors as complex numbers -/

def Vec.toComplex (v : Vec) : ℂ := ⟨v.x, v.y⟩

@[simp] theorem Vec.toComplex_re (v : Vec) : v.toComplex.re = v.x := rfl
@[simp] theorem Vec.toComplex_im (v : Vec) : v.toComplex.im = v.y := rfl

@[simp] theorem Vec.toComplex_mul (u v : Vec) : (u.mul v).toComplex = u.toComplex * v.toComplex := by
  apply Complex.ext <;> simp [Vec.mul]

theorem Vec.toComplex_eq_zero_iff (v : Vec) : v.toComplex = 0 ↔ v.x = 0 ∧ v.y = 0 := by
  simp [Complex.ext_iff]

theorem turnOf_origin : turnOf (Vec.toComplex ⟨0, 0⟩) = 0 := by
  rw [(Vec.toComplex_eq_zero_iff _).2 ⟨rfl, rfl⟩, turnOf, Complex.arg_zero, zero_div, Int.fract_zero]

/-- The real angle of R146. -/
theorem theta_eq (fx fy : Int) : Reference.theta fx fy = 360 * turnOf (Vec.toComplex ⟨fx, fy⟩) := by
  obtain ⟨a, ha, -, -, hturn⟩ := exists_arg_eq_turns (Vec.toComplex ⟨fx, fy⟩)
  have hdeg : Reference.atan2deg fy fx = 360 * a := by
    have := Real.pi_pos
    rw [Reference.atan2deg, show Complex.arg ⟨fx, fy⟩ = a * (2 * Real.pi) from ha]
    field_simp
    ring
  rw [Reference.theta]
  split
  · rename_i h0
    obtain ⟨rfl, rfl⟩ := h0
    rw [turnOf_origin, mul_zero]
  · rw [hdeg, hturn]
    by_cases h : 0 ≤ a <;> simp [h, mul_add]

theorem Vec.lowerHalf_iff (v : Vec) : v.lowerHalf = true ↔ 1 / 2 ≤ turnOf v.toComplex := by
  rw [half_le_turnOf_iff]
  simp [Vec.lowerHalf, and_comm]

section
variable {u v : Vec} (hu : u.toComplex ≠ 0) (hv : v.toComplex ≠ 0)
include hu hv

theorem Vec.mul_toComplex_ne_zero : (u.mul v).toComplex ≠ 0 := by
  rw [Vec.toComplex_mul]
  exact mul_ne_zero hu hv

theorem Vec.turnOf_mul : turnOf (u.mul v).toComplex = Int.fract (turnOf u.toComplex + turnOf v.toComplex) := by
  rw [Vec.toComplex_mul, Machine.turnOf_mul hu hv]

/-- The cross product of two vectors of one half is positive exactly when the angle grows: it is the imaginary part of
`v` times the conjugate of `u`, whose angle is the difference. -/
theorem Vec.cross_pos_iff (hsame : 1 / 2 ≤ turnOf u.toComplex ↔ 1 / 2 ≤ turnOf v.toComplex) :
    0 < u.x * v.y - u.y * v.x ↔ turnOf u.toComplex < turnOf v.toComplex := by
  have hconj : starRingEnd ℂ u.toComplex ≠ 0 := (map_ne_zero _).2 hu
  have him : (v.toComplex * starRingEnd ℂ u.toComplex).im = ((u.x * v.y - u.y * v.x : Int) : ℝ) := by
    simp
    ring
  have hturn : turnOf (v.toComplex * starRingEnd ℂ u.toComplex) =
      Int.fract (turnOf v.toComplex - turnOf u.toComplex) := by
    rw [Machine.turnOf_mul hv hconj, turnOf_conj, fract_add_fract, sub_eq_add_neg]
  have hneg : turnOf (starRingEnd ℂ (v.toComplex * starRingEnd ℂ u.toComplex)) =
      Int.fract (-(turnOf v.toComplex - turnOf u.toComplex)) := by
    rw [turnOf_conj, hturn, fract_neg_fract]
  have hnear : -(1 / 2) < turnOf v.toComplex - turnOf u.toComplex ∧
      turnOf v.toComplex - turnOf u.toComplex < 1 / 2 := by
    have hu0 := turnOf_nonneg u.toComplex
    have hu1 := turnOf_lt_one u.toComplex
    have hv0 := turnOf_nonneg v.toComplex
    have hv1 := turnOf_lt_one v.toComplex
    by_cases h : 1 / 2 ≤ turnOf u.toComplex
    · have := hsame.1 h
      constructor <;> linarith
    · have := hsame.not.1 h
      constructor <;> linarith
  rw [← Int.cast_pos (R := ℝ), ← him, im_pos_iff, hturn, hneg, ← pos_iff_fract_halves hnear.1 hnear.2, sub_pos]

theorem Vec.angleLt_iff : u.angleLt v = true ↔ turnOf u.toComplex < turnOf v.toComplex := by
  have hhalves : u.lowerHalf = v.lowerHalf ↔ (1 / 2 ≤ turnOf u.toComplex ↔ 1 / 2 ≤ turnOf v.toComplex) := by
    rw [Bool.eq_iff_iff, Vec.lowerHalf_iff, Vec.lowerHalf_iff]
  rw [Vec.angleLt]
  split
  · rename_i hsame
    rw [decide_eq_true_eq, Vec.cross_pos_iff hu hv (hhalves.1 hsame)]
  · rename_i hdiff
    rw [hhalves] at hdiff
    rw [Vec.lowerHalf_iff]
    by_cases hpv : 1 / 2 ≤ turnOf v.toComplex
    · have hpu : ¬ 1 / 2 ≤ turnOf u.toComplex := fun hpu => hdiff (iff_of_true hpu hpv)
      exact iff_of_true hpv (by linarith)
    · have hpu : 1 / 2 ≤ turnOf u.toComplex := not_not.1 fun hpu => hdiff (iff_of_false hpu hpv)
      exact iff_of_false hpv (by linarith)

end

/-! ### The turn count -/

/-- `turns` splits the angle of the power into its whole turns and the rest. -/
theorem turns_spec {z : Vec} (hz : z.toComplex ≠ 0) (k : Nat) :
    (turns z k).2.toComplex ≠ 0 ∧
      (2 ^ (k + 1) - 1) * turnOf z.toComplex = (turns z k).1 + turnOf (turns z k).2.toComplex := by
  induction k with
  | zero => exact ⟨hz, by norm_num [turns]⟩
  | succ k ih =>
    rw [turns]
    generalize turns z k = t at ih
    obtain ⟨a, w⟩ := t
    obtain ⟨hw, hsum⟩ := ih
    have hsq := Vec.mul_toComplex_ne_zero hw hw
    have hnext := Vec.mul_toComplex_ne_zero hsq hz
    have hturnsq := Vec.turnOf_mul hw hw
    have hturnnext := Vec.turnOf_mul hsq hz
    have hdouble := double_eq_fract_add_carry (turnOf_nonneg _) (turnOf_lt_one _) w.lowerHalf_iff
    have hadd := add_eq_fract_add_carry (turnOf_nonneg (w.mul w).toComplex) (turnOf_lt_one _) (turnOf_nonneg _)
      (turnOf_lt_one _) (hturnnext ▸ Vec.angleLt_iff hnext hz)
    rw [two_mul, ← hturnsq] at hdouble
    rw [← hturnnext] at hadd
    refine ⟨hnext, ?_⟩
    simp only [turnStep] at hsum ⊢
    push_cast
    linear_combination 2 * hsum + hdouble + hadd

/-- `phi8` rounds 255 times the angle in turns (R147). -/
theorem phi8_eq_floor (fx fy : Int) : (phi8 fx fy : Int) = ⌊255 * turnOf (Vec.toComplex ⟨fx, fy⟩) + 1 / 2⌋ := by
  rw [phi8]
  split
  · rename_i h0
    obtain ⟨rfl, rfl⟩ := h0
    norm_num [turnOf_origin]
  · rename_i h0
    obtain ⟨-, hspec⟩ := turns_spec ((Vec.toComplex_eq_zero_iff ⟨fx, fy⟩).not.2 h0) 7
    generalize turns ⟨fx, fy⟩ 7 = t at hspec
    obtain ⟨a, w⟩ := t
    norm_num at hspec
    rw [hspec, add_assoc, Int.floor_natCast_add,
      floor_add_half_eq (turnOf_nonneg _) (turnOf_lt_one _) w.lowerHalf_iff]
    exact Nat.cast_add _ _

end Sys2Proof.Machine

namespace Sys2Proof.Slice0
open Sys2Proof.Machine

/-- Settles O43: 255 three-hundred-and-sixtieths of the real angle are 255 times the angle in turns. -/
theorem phi8IsExactAngle : Obligations.Phi8IsExactAngle := by
  intro fx fy
  refine ⟨?_, phi8_le fx fy⟩
  rw [phi8_eq_floor, Reference.phi8, theta_eq]
  congr 2
  ring

end Sys2Proof.Slice0

/-! PROOFS. The quantizer against the bands of the real angle: the class is the quadrant of twice the angle turned by an
eighth, which two signs decide (42_gradient_direction R149, R150, R152). -/

namespace Sys2Proof.Machine

/-! ### The quantizer as two halves (R150) -/

/-- The root of 2 is irrational, so no nonzero integer vector lies on the boundary of a band. -/
theorem eq_zero_of_sq_eq_two_mul_sq {x y : Int} (h : x ^ 2 = 2 * y ^ 2) : x = 0 ∧ y = 0 := by
  have hnorm : Zsqrtd.norm (⟨x, y⟩ : ℤ√2) = 0 := by rw [Zsqrtd.norm_def]; linarith
  have hsq : ∀ n : ℤ, (2 : ℤ) ≠ n * n := fun n hn => Int.prime_two.irreducible.not_isSquare ⟨n, hn⟩
  simpa [Zsqrtd.ext_iff] using (Zsqrtd.norm_eq_zero hsq _).1 hnorm

/-- `z ^ 2 * w`: twice the angle of `z`, turned by that of `w`. -/
def Vec.doubledBy (z w : Vec) : Vec := (z.mul z).mul w

theorem Vec.doubledBy_lowerHalf_iff {z w : Vec} (hz : z.toComplex ≠ 0) (hw : w.toComplex ≠ 0) :
    (z.doubledBy w).lowerHalf = true ↔ 1 / 2 ≤ Int.fract (2 * turnOf z.toComplex + turnOf w.toComplex) := by
  rw [Vec.lowerHalf_iff, Vec.doubledBy, Vec.turnOf_mul (Vec.mul_toComplex_ne_zero hz hz) hw, Vec.turnOf_mul hz hz,
    ← two_mul, fract_fract_add]

theorem Vec.doubledBy_eighth_y (x y : Int) : (Vec.doubledBy ⟨x, y⟩ ⟨1, 1⟩).y = 2 * (x * y) + x ^ 2 - y ^ 2 := by
  simp only [Vec.doubledBy, Vec.mul]
  ring

theorem Vec.doubledBy_neg_eighth_y (x y : Int) :
    (Vec.doubledBy ⟨x, y⟩ ⟨1, -1⟩).y = 2 * (x * y) - x ^ 2 + y ^ 2 := by
  simp only [Vec.doubledBy, Vec.mul]
  ring

theorem Vec.lowerHalf_of_y_ne_zero {v : Vec} (h : v.y ≠ 0) : v.lowerHalf = decide (v.y < 0) := by
  simp [Vec.lowerHalf, h]

/-- The class by the halves in which twice the angle lands, turned by an eighth: `p` for the lower half after turning
forward, `q` for the lower half after turning back. -/
def quadrantClass (p q : Bool) : Nat := if p then (if q then 3 else 2) else (if q then 0 else 1)

/-- Each test of R150 compares the double product with the difference of the squares, so the signs of their sum and
difference decide the class. -/
theorem qclass_eq_quadrantClass {x y : Int} (h : ¬ (x = 0 ∧ y = 0)) :
    qclass x y = quadrantClass (Vec.doubledBy ⟨x, y⟩ ⟨1, 1⟩).lowerHalf (Vec.doubledBy ⟨x, y⟩ ⟨1, -1⟩).lowerHalf := by
  have hfwd : 2 * (x * y) + x ^ 2 - y ^ 2 ≠ 0 := fun h0 => by
    obtain ⟨hs, hy⟩ := eq_zero_of_sq_eq_two_mul_sq (x := x + y) (y := y) (by linarith)
    omega
  have hback : 2 * (x * y) - x ^ 2 + y ^ 2 ≠ 0 := fun h0 => by
    obtain ⟨hs, hx⟩ := eq_zero_of_sq_eq_two_mul_sq (x := x + y) (y := x) (by linarith)
    omega
  have hsq : ((x.natAbs : Int) + y.natAbs) ^ 2 = x ^ 2 + 2 * |x * y| + y ^ 2 := by
    rw [Int.natCast_natAbs, Int.natCast_natAbs, abs_mul, ← sq_abs x, ← sq_abs y]
    ring
  rw [Vec.lowerHalf_of_y_ne_zero (by rwa [Vec.doubledBy_eighth_y]),
    Vec.lowerHalf_of_y_ne_zero (by rwa [Vec.doubledBy_neg_eighth_y]), Vec.doubledBy_eighth_y,
    Vec.doubledBy_neg_eighth_y]
  simp only [qclass, if_neg h, hsq, Int.natAbs_sq, quadrantClass, decide_eq_true_eq]
  rcases abs_cases (x * y) with ⟨habs, hsign⟩ | ⟨habs, hsign⟩
  · rw [habs]
    split_ifs <;> omega
  · rw [habs]
    split_ifs <;> omega

theorem turnOf_eighth : turnOf (Vec.toComplex ⟨1, 1⟩) = 1 / 8 := by
  have harg : (Vec.toComplex ⟨1, 1⟩).arg = Real.pi / 4 := by
    have h := Complex.arg_mul_cos_add_sin_mul_I (r := √2) (θ := Real.pi / 4) (by positivity)
      ⟨by linarith [Real.pi_pos], by linarith [Real.pi_pos]⟩
    rw [← Complex.ofReal_cos, ← Complex.ofReal_sin, Real.cos_pi_div_four, Real.sin_pi_div_four] at h
    rw [← h]
    congr 1
    apply Complex.ext <;> simp [mul_div_assoc']
  rw [turnOf, harg, show Real.pi / 4 / (2 * Real.pi) = 1 / 8 by field_simp; norm_num, Int.fract_eq_self]
  norm_num

theorem turnOf_neg_eighth : turnOf (Vec.toComplex ⟨1, -1⟩) = 7 / 8 := by
  have hconj : Vec.toComplex ⟨1, -1⟩ = starRingEnd ℂ (Vec.toComplex ⟨1, 1⟩) := by
    apply Complex.ext <;> simp
  rw [hconj, turnOf_conj, turnOf_eighth, Int.fract_eq_iff]
  exact ⟨by norm_num, by norm_num, -1, by norm_num⟩

/-! ### Bands (R149) -/

/-- The number of the band, from 0 to 8, that holds the angle of `u` turns: band `k` lies around `45 * k` degrees. -/
noncomputable def bandOf (u : ℝ) : Int := ⌊8 * u + 1 / 2⌋

theorem bandOf_eq_iff {u lo hi : ℝ} (k : Int) (hlo : 45 * k - 22.5 = lo) (hhi : 45 * k + 22.5 = hi) :
    lo ≤ 360 * u ∧ 360 * u < hi ↔ bandOf u = k := by
  rw [bandOf, Int.floor_eq_iff, ← hlo, ← hhi]
  constructor <;> rintro ⟨h, h'⟩ <;> constructor <;> linarith

/-- The bands of a class are those whose number it is modulo 4. -/
theorem inClass_iff {u : ℝ} (h0 : 0 ≤ u) (h1 : u < 1) (c : Nat) :
    Reference.inClass (360 * u) c ↔ bandOf u % 4 = c := by
  have hlo : 0 ≤ bandOf u := Int.floor_nonneg.2 (by linarith)
  have hhi : bandOf u < 9 := Int.floor_lt.2 (by push_cast; linarith)
  have hfirst : 0 ≤ 360 * u ∧ 360 * u < 22.5 ↔ bandOf u = 0 := by
    rw [← bandOf_eq_iff 0 rfl (hi := 22.5) (by norm_num)]
    exact and_congr_left fun _ => iff_of_true (by linarith) (by norm_num; linarith)
  have hlast : 337.5 ≤ 360 * u ∧ 360 * u < 360 ↔ bandOf u = 8 := by
    rw [← bandOf_eq_iff 8 (lo := 337.5) (by norm_num) rfl]
    exact and_congr_right fun _ => iff_of_true (by linarith) (by norm_num; linarith)
  have hband := fun k lo hi => bandOf_eq_iff (u := u) (lo := lo) (hi := hi) k
  rw [Reference.inClass, hfirst, hlast, hband 1 22.5 67.5 (by norm_num) (by norm_num),
    hband 2 67.5 112.5 (by norm_num) (by norm_num), hband 3 112.5 157.5 (by norm_num) (by norm_num),
    hband 4 157.5 202.5 (by norm_num) (by norm_num), hband 5 202.5 247.5 (by norm_num) (by norm_num),
    hband 6 247.5 292.5 (by norm_num) (by norm_num), hband 7 292.5 337.5 (by norm_num) (by norm_num)]
  omega

/-- The half a real lies in is the parity of its doubled floor. -/
theorem half_le_fract_iff (x : ℝ) : 1 / 2 ≤ Int.fract x ↔ ⌊2 * x⌋ % 2 = 1 := by
  have hx := Int.floor_add_fract x
  have h0 := Int.fract_nonneg x
  have h1 := Int.fract_lt_one x
  rcases lt_or_ge (Int.fract x) (1 / 2) with h | h
  · have hfloor : ⌊2 * x⌋ = 2 * ⌊x⌋ := by
      rw [Int.floor_eq_iff]
      push_cast
      constructor <;> linarith
    exact iff_of_false h.not_ge (by omega)
  · have hfloor : ⌊2 * x⌋ = 2 * ⌊x⌋ + 1 := by
      rw [Int.floor_eq_iff]
      push_cast
      constructor <;> linarith
    exact iff_of_true h (by omega)

theorem quadrantClass_eq_bandOf {u : ℝ} {p q : Bool} (hp : p = true ↔ 1 / 2 ≤ Int.fract (2 * u + 1 / 8))
    (hq : q = true ↔ 1 / 2 ≤ Int.fract (2 * u + 7 / 8)) : (quadrantClass p q : Int) = bandOf u % 4 := by
  have hfwd : ⌊2 * (2 * u + 1 / 8)⌋ = bandOf u / 2 := by
    rw [bandOf, show 2 * (2 * u + 1 / 8) = (8 * u + 1 / 2) / (2 : Nat) by push_cast; ring, Int.floor_div_natCast]
    rfl
  have hback : ⌊2 * (2 * u + 7 / 8)⌋ = (bandOf u + 3) / 2 := by
    rw [bandOf, show 2 * (2 * u + 7 / 8) = (8 * u + 1 / 2 + 3) / (2 : Nat) by push_cast; ring,
      Int.floor_div_natCast, Int.floor_add_ofNat]
    rfl
  rw [half_le_fract_iff, hfwd] at hp
  rw [half_le_fract_iff, hback] at hq
  simp only [quadrantClass, hp, hq]
  split_ifs <;> omega

/-- The quantizer gives the number of the angle's band modulo 4. -/
theorem qclass_eq_bandOf (fx fy : Int) : (qclass fx fy : Int) = bandOf (turnOf (Vec.toComplex ⟨fx, fy⟩)) % 4 := by
  by_cases h : fx = 0 ∧ fy = 0
  · obtain ⟨rfl, rfl⟩ := h
    norm_num [qclass, bandOf, turnOf_origin]
  · have hz := (Vec.toComplex_eq_zero_iff ⟨fx, fy⟩).not.2 h
    have hfwd := Vec.doubledBy_lowerHalf_iff (w := ⟨1, 1⟩) hz (by simp [Vec.toComplex_eq_zero_iff])
    have hback := Vec.doubledBy_lowerHalf_iff (w := ⟨1, -1⟩) hz (by simp [Vec.toComplex_eq_zero_iff])
    rw [turnOf_eighth] at hfwd
    rw [turnOf_neg_eighth] at hback
    rw [qclass_eq_quadrantClass h, quadrantClass_eq_bandOf hfwd hback]

end Sys2Proof.Machine

namespace Sys2Proof.Slice0
open Sys2Proof.Machine

/-- Settles O44: the bands of a class and the quantizer name the same number modulo 4. -/
theorem quantizerMatchesBands : Obligations.QuantizerMatchesBands := by
  intro fx fy c
  rw [theta_eq, inClass_iff (turnOf_nonneg _) (turnOf_lt_one _), ← qclass_eq_bandOf, Int.ofNat_inj]

/-- Settles O45: the tests of the quantizer see the magnitudes and the product of the components. -/
theorem oppositeVectorsSameClass : Obligations.OppositeVectorsSameClass := by
  intro fx fy
  refine ⟨qclass_le fx fy, ?_⟩
  simp only [qclass, Int.natAbs_neg, neg_eq_zero, neg_mul_neg]

end Sys2Proof.Slice0

/-! PROOFS. The commands MAG and DIR: one stage each, which writes two buffers (42_gradient_direction R141, R151). -/

namespace Sys2Proof.Machine

section
variable {s : State} {p : Params} (hp : p.legal) (hr : s.latched.region ≤ p.maxH * p.maxW)
include hp hr

theorem magStage_elems_mag2 : (magStage s).elems .mag2 s.latched.region = s.magSquares := by
  rw [magSquares_eq]
  exact List.map_congr_left fun e he => (elem_magStage hp hr (List.mem_range.1 he)).1

theorem magStage_elems_mag8 : (magStage s).elems .mag8 s.latched.region = norm8 s.magSquares := by
  refine List.ext_getElem (by simp) fun e h1 h2 => ?_
  have he : e < s.latched.region := by simpa using h1
  rw [← List.getD_eq_getElem _ 0 h1, elems_getD _ _ he, (elem_magStage hp hr he).2]

end

end Sys2Proof.Machine

namespace Sys2Proof.Slice0
open Sys2Proof.Machine

theorem bytesSameOutside2_afterStage {st : Stage} {out out' : Buf} (h : st.outputs = [out, out']) (s : State)
    (rest : List Stage) :
    BytesSameOutside2 s (s.afterStage st rest) out.base (out.elemBytes * (rows s * cols s)) out'.base
      (out'.elemBytes * (rows s * cols s)) :=
  fun k hk hk' => byteAt_afterStage_outside rest (by simpa [h] using ⟨hk, hk'⟩)

/-- Settles O11: the one engine step is `magStage`. -/
theorem magRunsAndCompletes : Obligations.MagRunsAndCompletes := by
  refine ⟨acceptedAs .mag, fun s hrun hfit => ?_⟩
  have hframe := bytesSameOutside2_afterStage (st := .mag) rfl s []
  refine ⟨_, hrun.exec .mag, fun e he => ?_, ?_, by simpa [Buf.base, Buf.elemBytes] using hframe,
    endedFrom_performStage .mag s⟩
  · rw [← magSquared_eq, ← (elem_magStage hfit.1 hfit.region_le he).1]
    exact congrArg Nat.cast (elem_advance _ _ _ _)
  · have h2 := magStage_elems_mag2 hfit.1 hfit.region_le
    have h8 := magStage_elems_mag8 hfit.1 hfit.region_le
    rw [← h2] at h8
    rw [State.afterStage, elems_advance, elems_advance]
    exact h8

/-- Settles O12: the one engine step is `dirStage`. -/
theorem dirRunsAndCompletes : Obligations.DirRunsAndCompletes := by
  refine ⟨acceptedAs .dir, fun s hrun hfit => ?_⟩
  have hframe := bytesSameOutside2_afterStage (st := .dir) rfl s []
  have hdir := fun e => elem_dirStage (e := e) hfit.1 hfit.region_le
  exact ⟨_, hrun.exec .dir, fun e he => (elem_advance _ _ _ _).trans (hdir e he).1,
    fun e he => (elem_advance _ _ _ _).trans (hdir e he).2, by simpa [Buf.base, Buf.elemBytes] using hframe,
    endedFrom_performStage .dir s⟩

end Sys2Proof.Slice0

/-! PROOFS. NMS: where the two neighbours of a pixel lie, the suppressed field pixel by pixel, and the command, one stage
that writes two buffers (43_nms R170 to R174). -/

namespace Sys2Proof.Machine

/-! ### The offsets (R170, R172) -/

/-- An offset of a class reaches one row and one column at most. -/
theorem neighbourOffsets_within_one (cls : Nat) : ∀ d ∈ [(neighbourOffsets cls).1, (neighbourOffsets cls).2],
    (-1 ≤ d.1 ∧ d.1 ≤ 1) ∧ (-1 ≤ d.2 ∧ d.2 ≤ 1) := by
  unfold neighbourOffsets
  split_ifs <;> decide

/-! ### The two fields NMS writes (R171) -/

theorem nmsStage_elems_sup2 {s : State} {p : Params} (hp : p.legal) (hr : s.latched.region ≤ p.maxH * p.maxW) :
    (nmsStage s).elems .sup2 s.latched.region = s.suppressed :=
  List.map_congr_left fun _ he => (elem_nmsStage hp hr (List.mem_range.1 he)).1

theorem nmsStage_elems_sup8 (s : State) : (nmsStage s).elems .sup8 s.latched.region = norm8 s.suppressed := by
  have hlen : (norm8 s.suppressed).length = s.latched.region := by simp
  rw [nmsStage_eq, ← hlen]
  exact elems_writeRegion_same fun _ hx => norm8_lt hx

end Sys2Proof.Machine

namespace Sys2Proof.Slice0
open Sys2Proof.Machine

/-! ### Neighbours (R170, R172) -/

section
variable {h w r c : Nat} (hi : Interior h w r c)
include hi

theorem Interior.inside : r < h ∧ c < w := by
  obtain ⟨-, hrh, -, hcw⟩ := hi
  omega

/-- An offset of a class leads from an interior pixel to a pixel of the region. -/
theorem Interior.offset_inside {cls : Nat} {d : Int × Int}
    (hd : d ∈ [(neighbourOffsets cls).1, (neighbourOffsets cls).2]) :
    0 ≤ (r : Int) + d.1 ∧ (r : Int) + d.1 < h ∧ 0 ≤ (c : Int) + d.2 ∧ (c : Int) + d.2 < w := by
  obtain ⟨hr, hrh, hc, hcw⟩ := hi
  have hd := neighbourOffsets_within_one cls d hd
  omega

/-- The displaced pixels are R170's pair: no subtraction of the pair is cut off at an interior pixel. -/
theorem Interior.offset_eq_neighbourPair (cls : Nat) :
    ((r : Int) + (neighbourOffsets cls).1.1 = (neighbourPair cls r c).1.1 ∧
      (c : Int) + (neighbourOffsets cls).1.2 = (neighbourPair cls r c).1.2) ∧
    ((r : Int) + (neighbourOffsets cls).2.1 = (neighbourPair cls r c).2.1 ∧
      (c : Int) + (neighbourOffsets cls).2.2 = (neighbourPair cls r c).2.2) := by
  obtain ⟨hr, hrh, hc, hcw⟩ := hi
  rcases cls with _ | _ | _ | cls <;> simp [neighbourOffsets, neighbourPair] <;> omega

theorem Interior.atOffset_eq_neighbourPair (cls : Nat) (m : List Nat) :
    atOffset m w r c (neighbourOffsets cls).1 =
      m.getD ((neighbourPair cls r c).1.1 * w + (neighbourPair cls r c).1.2) 0 ∧
    atOffset m w r c (neighbourOffsets cls).2 =
      m.getD ((neighbourPair cls r c).2.1 * w + (neighbourPair cls r c).2.2) 0 := by
  obtain ⟨⟨hr1, hc1⟩, ⟨hr2, hc2⟩⟩ := hi.offset_eq_neighbourPair cls
  exact ⟨atOffset_eq m w hr1 hc1, atOffset_eq m w hr2 hc2⟩

theorem Interior.neighbourPair_inside (cls : Nat) :
    ((neighbourPair cls r c).1.1 < h ∧ (neighbourPair cls r c).1.2 < w) ∧
      ((neighbourPair cls r c).2.1 < h ∧ (neighbourPair cls r c).2.2 < w) := by
  have h1 := hi.offset_inside (List.mem_cons_self ..) (cls := cls)
  have h2 := hi.offset_inside (List.mem_cons_of_mem _ (List.mem_cons_self ..)) (cls := cls)
  have heq := hi.offset_eq_neighbourPair cls
  omega

end

/-! ### The suppressed field (R171) -/

/-- What the NMS stage computes at a pixel: `nmsValue` of the region's squared magnitudes and classes. -/
def suppressedAt (s : State) (r c : Nat) : Nat :=
  nmsValue (s.elems .mag2 s.latched.region) (s.elemClasses s.latched.region) (rows s) (cols s) r c

theorem mag2_getD {s : State} {q : Nat × Nat} (hr : q.1 < rows s) (hc : q.2 < cols s) :
    (s.elems .mag2 s.latched.region).getD (q.1 * cols s + q.2) 0 = mag2At s q :=
  elems_getD s .mag2 (pixel_lt hr hc)

theorem suppressedAt_border {s : State} {r c : Nat} (hi : ¬ Interior (rows s) (cols s) r c) :
    suppressedAt s r c = 0 := if_neg fun h => hi ((interior_iff _ _ _ _).1 h)

/-- The two comparisons of the stage at an interior pixel are those of `LocalMaxAt`. -/
theorem suppressedAt_interior {s : State} {r c : Nat} (hi : Interior (rows s) (cols s) r c) :
    (LocalMaxAt s r c → suppressedAt s r c = mag2At s (r, c)) ∧ (¬ LocalMaxAt s r c → suppressedAt s r c = 0) := by
  obtain ⟨hr, hc⟩ := hi.inside
  obtain ⟨⟨hr1, hc1⟩, ⟨hr2, hc2⟩⟩ := hi.neighbourPair_inside (s.elemClass (r * cols s + c))
  obtain ⟨h1, h2⟩ := hi.atOffset_eq_neighbourPair (s.elemClass (r * cols s + c)) (s.elems .mag2 s.latched.region)
  rw [mag2_getD hr1 hc1] at h1
  rw [mag2_getD hr2 hc2] at h2
  rw [suppressedAt, nmsValue, if_pos ((interior_iff _ _ _ _).2 hi), elemClasses_getD s (pixel_lt hr hc)]
  simp only [h1, h2, mag2_getD (q := (r, c)) hr hc]
  exact ⟨fun hmax => if_pos hmax, fun hmax => if_neg hmax⟩

theorem elem_sup2_nmsStage {s : State} (hfit : RegionFits s) {r c : Nat} (hr : r < rows s) (hc : c < cols s) :
    (nmsStage s).elem .sup2 (r * cols s + c) = suppressedAt s r c := by
  rw [(elem_nmsStage hfit.1 hfit.region_le (pixel_lt hr hc)).1, pixel_div hc, pixel_mod hc]
  rfl

theorem holdsSuppressed_afterStage {s : State} (hfit : RegionFits s) (rest : List Stage) :
    HoldsSuppressed s (s.afterStage .nms rest) := by
  intro r c hr hc
  have helem : (s.afterStage .nms rest).elem .sup2 (r * cols s + c) = suppressedAt s r c :=
    (elem_advance _ _ _ _).trans (elem_sup2_nmsStage hfit hr hc)
  rw [helem]
  refine ⟨fun ⟨hi, hmax⟩ => (suppressedAt_interior hi).1 hmax, fun hnot => ?_⟩
  by_cases hi : Interior (rows s) (cols s) r c
  · exact (suppressedAt_interior hi).2 fun hmax => hnot ⟨hi, hmax⟩
  · exact suppressedAt_border hi

/-- Settles O13: the one engine step is `nmsStage`. -/
theorem nmsRunsAndCompletes : Obligations.NmsRunsAndCompletes := by
  refine ⟨acceptedAs .nms, fun s hrun hfit => ?_⟩
  have hframe := bytesSameOutside2_afterStage (st := .nms) rfl s []
  refine ⟨_, hrun.exec .nms, holdsSuppressed_afterStage hfit [], ?_, by simpa [Buf.base, Buf.elemBytes] using hframe,
    endedFrom_performStage .nms s⟩
  rw [State.afterStage, elems_advance, elems_advance]
  exact (nmsStage_elems_sup8 s).trans (congrArg norm8 (nmsStage_elems_sup2 hfit.1 hfit.region_le).symm)

/-- Settles O46: the offsets stay within one pixel, and a pixel that is no interior local maximum becomes 0. -/
theorem nmsNeverIncreases : Obligations.NmsNeverIncreases := by
  refine ⟨fun h w cls r c hi d hd => ?_, fun h w cls r c m hi => hi.atOffset_eq_neighbourPair cls m,
    fun s t hrun hfit hexec r c hr hc => ?_⟩
  · obtain ⟨hrow, hrow', hcol, hcol'⟩ := hi.offset_inside hd
    exact ⟨⟨hrow, hrow', hcol, hcol'⟩,
      fun m => atOffset_eq m w (Int.toNat_of_nonneg hrow).symm (Int.toNat_of_nonneg hcol).symm⟩
  · obtain rfl : s.afterStage .nms [] = t := Host.Outcome.next.inj ((hrun.exec .nms).symm.trans hexec)
    obtain ⟨hkept, hzero⟩ := holdsSuppressed_afterStage hfit [] r c hr hc
    exact ⟨(em _).imp hkept hzero, fun hborder => hzero fun h => hborder h.1⟩

end Sys2Proof.Slice0

/-! PROOFS. HYST: the conditioned thresholds, neighbours as pixels, and the tracer's marks as the set `Edge`
(44_hysteresis R180 to R184, R187). -/

namespace Sys2Proof.Slice0
open Sys2Proof.Machine

/-! ### Threshold conditioning (R180) -/

theorem toNat_clamp (z : Int) : (clamp z 0 255).toNat = clampedThreshold z := by
  unfold clamp clampedThreshold
  split_ifs <;> omega

theorem clampedThreshold_le (z : Int) : clampedThreshold z ≤ 255 := by
  unfold clampedThreshold
  omega

theorem conditionThresholds_eq (Th Tl : Int) :
    conditionThresholds Th Tl =
      (max (clampedThreshold Th) (clampedThreshold Tl), min (clampedThreshold Th) (clampedThreshold Tl)) := by
  simp only [conditionThresholds, toNat_clamp]
  split
  case isTrue h => rw [max_eq_right h.le, min_eq_left h.le]
  case isFalse h => rw [max_eq_left (not_lt.1 h), min_eq_right (not_lt.1 h)]

/-- Settles O47: the pair is a greater and a lesser of two clamped values, in which a swap changes nothing. -/
theorem thresholdsConditioned : Obligations.ThresholdsConditioned := by
  intro Th Tl
  have hTh := clampedThreshold_le Th
  have hTl := clampedThreshold_le Tl
  simp only [conditionThresholds_eq, max_comm (clampedThreshold Tl), min_comm (clampedThreshold Tl), true_and, and_true]
  exact ⟨min_le_max, max_le hTh hTl⟩

/-! ### Elements as pixels (R14, R183) -/

/-- The row and the column of element `e`. -/
def pixelOf (w e : Nat) : Nat × Nat := (e / w, e % w)

theorem pixelOf_pixel {w r c : Nat} (hc : c < w) : pixelOf w (r * w + c) = (r, c) :=
  Prod.ext (pixel_div hc) (pixel_mod hc)

theorem pixel_inj {w r c r' c' : Nat} (hc : c < w) (hc' : c' < w) : r * w + c = r' * w + c' ↔ r = r' ∧ c = c' := by
  constructor
  · intro h
    have hpx := congrArg (pixelOf w) h
    rwa [pixelOf_pixel hc, pixelOf_pixel hc', Prod.mk.injEq] at hpx
  · rintro ⟨rfl, rfl⟩
    rfl

theorem atLeast_iff_reachesLevel {n : List Nat} {h w t e : Nat} :
    atLeast n h w t e = true ↔ ReachesLevel n h w t (pixelOf w e) := by
  rw [atLeast_iff, ReachesLevel, Interior, pixelOf, Nat.div_add_mod']

theorem ReachesLevel.inside {n : List Nat} {h w t : Nat} {p : Nat × Nat} (hp : ReachesLevel n h w t p) :
    p.1 < h ∧ p.2 < w := hp.1.inside

theorem ReachesLevel.mono {n : List Nat} {h w t t' : Nat} {p : Nat × Nat} (hp : ReachesLevel n h w t' p)
    (ht : t ≤ t') : ReachesLevel n h w t p := ⟨hp.1, ht.trans hp.2⟩

theorem ReachesLevel.atLeast {n : List Nat} {h w t : Nat} {p : Nat × Nat} (hp : ReachesLevel n h w t p) :
    Machine.atLeast n h w t (p.1 * w + p.2) = true := by
  rw [atLeast_iff_reachesLevel, pixelOf_pixel hp.inside.2]
  exact hp

theorem lt_of_atLeast {n : List Nat} {h w t e : Nat} (he : atLeast n h w t e = true) : e < h * w := by
  obtain ⟨hr, hc⟩ := (atLeast_iff_reachesLevel.1 he).inside
  have hlt := pixel_lt hr hc
  rwa [pixelOf, Nat.div_add_mod'] at hlt

theorem Adjacent.symm {p q : Nat × Nat} : Adjacent p q → Adjacent q p := by
  rintro ⟨hne, hr, hr', hc, hc'⟩
  exact ⟨hne.symm, hr', hr, hc', hc⟩

/-- The eight elements of an interior pixel are those of its adjacent pixels: no column leaves the row. -/
theorem Interior.mem_neighbours_iff {h w r c : Nat} (hi : Interior h w r c) (q : Nat) :
    q ∈ neighbours w r c ↔ Adjacent (r, c) (pixelOf w q) := by
  obtain ⟨hr, -, hc, hcw⟩ := hi
  have hq : q % w < w := Nat.mod_lt _ (by omega)
  conv_lhs => rw [← Nat.div_add_mod' q w]
  simp (disch := omega) only [neighbours, List.mem_cons, List.not_mem_nil, or_false, pixel_inj]
  simp only [Adjacent, pixelOf, ne_eq, Prod.mk.injEq]
  omega

theorem mem_neighbours_iff {n : List Nat} {h w t e q : Nat} (he : atLeast n h w t e = true) :
    q ∈ neighbours w (e / w) (e % w) ↔ Adjacent (pixelOf w e) (pixelOf w q) :=
  (atLeast_iff_reachesLevel.1 he).1.mem_neighbours_iff q

theorem mem_neighbours_comm {n : List Nat} {h w t e q : Nat} (he : atLeast n h w t e = true)
    (hq : atLeast n h w t q = true) :
    q ∈ neighbours w (e / w) (e % w) ↔ e ∈ neighbours w (q / w) (q % w) := by
  rw [mem_neighbours_iff he, mem_neighbours_iff hq]
  exact ⟨Adjacent.symm, Adjacent.symm⟩

/-! ### The set `Edge` (R181, R184) -/

section
variable {n : List Nat} {h w th tl : Nat}

theorem ReachesLevel.isEdge {p : Nat × Nat} (hp : ReachesLevel n h w th p) (ht : tl ≤ th) : IsEdge n h w th tl p :=
  ⟨hp.mono ht, p, hp, .refl⟩

theorem IsEdge.of_adjacent {p q : Nat × Nat} (hp : ReachesLevel n h w tl p) (hpq : Adjacent p q)
    (hq : IsEdge n h w th tl q) : IsEdge n h w th tl p := by
  obtain ⟨hweak, z, hz, hpath⟩ := hq
  exact ⟨hp, z, hz, .head ⟨hpq, hweak⟩ hpath⟩

/-- The same for elements: an edge passes on to the weak pixels that have it as a neighbour. -/
theorem IsEdge.of_mem_neighbours {e q : Nat} (he : atLeast n h w tl e = true)
    (hmem : q ∈ neighbours w (e / w) (e % w)) (hq : IsEdge n h w th tl (pixelOf w q)) :
    IsEdge n h w th tl (pixelOf w e) :=
  .of_adjacent (atLeast_iff_reachesLevel.1 he) ((mem_neighbours_iff he).1 hmem) hq

/-- Marks that hold every strong pixel, and every weak pixel with a neighbour they hold. -/
structure ClosedMarks (n : List Nat) (h w th tl : Nat) (m : List Bool) : Prop where
  strong : ∀ e, atLeast n h w th e = true → m.getD e false = true
  weak : ∀ e q, atLeast n h w tl e = true → q ∈ neighbours w (e / w) (e % w) → m.getD q false = true →
    m.getD e false = true

/-- Closed marks hold every edge: from its strong end a path is marked pixel by pixel. -/
theorem ClosedMarks.of_isEdge {m : List Bool} (hm : ClosedMarks n h w th tl m) {p : Nat × Nat}
    (hp : IsEdge n h w th tl p) : m.getD (p.1 * w + p.2) false = true := by
  obtain ⟨hweak, q, hq, hpath⟩ := hp
  induction hpath using Relation.ReflTransGen.head_induction_on with
  | refl => exact hm.strong _ hq.atLeast
  | head hstep _ ih =>
    obtain ⟨hadj, hnext⟩ := hstep
    refine hm.weak _ _ hweak.atLeast ?_ (ih hnext)
    rwa [mem_neighbours_iff hweak.atLeast, pixelOf_pixel hweak.inside.2, pixelOf_pixel hnext.inside.2]

/-- The marks of a region that are exactly its edges. -/
structure EdgeMarks (n : List Nat) (h w th tl : Nat) (m : List Bool) : Prop where
  length : m.length = h * w
  isEdge_iff : ∀ e, m.getD e false = true ↔ IsEdge n h w th tl (pixelOf w e)

theorem ClosedMarks.edgeMarks {m : List Bool} (hm : ClosedMarks n h w th tl m) (hlen : m.length = h * w)
    (hsound : ∀ e, m.getD e false = true → IsEdge n h w th tl (pixelOf w e)) : EdgeMarks n h w th tl m :=
  ⟨hlen, fun e => ⟨hsound e, fun he => by simpa only [pixelOf, Nat.div_add_mod'] using hm.of_isEdge he⟩⟩

theorem EdgeMarks.unique {m m' : List Bool} (hm : EdgeMarks n h w th tl m) (hm' : EdgeMarks n h w th tl m') :
    m = m' := by
  refine List.ext_getElem (hm.length.trans hm'.length.symm) fun e he he' => ?_
  rw [← List.getD_eq_getElem m false he, ← List.getD_eq_getElem m' false he', Bool.eq_iff_iff, hm.isEdge_iff,
    hm'.isEdge_iff]

/-! ### The stage's marks (R181, R184) -/

/-- The passes start from the strong pixels and end in a fixed point. -/
theorem traceMarks_closed : ClosedMarks n h w th tl (traceMarks n h w th tl) where
  strong e he := relax_ge _ (by simp) e (by rw [strong_getD, he, decide_eq_true (lt_of_atLeast he)]; rfl)
  weak e q he hq hmark := by
    have hfix : relaxPass n h w tl (traceMarks n h w th tl) = traceMarks n h w th tl :=
      relax_fix n h w tl _ _ (by simp) (Nat.le_add_right _ _)
    have hany : (neighbours w (e / w) (e % w)).any (fun q => (traceMarks n h w th tl).getD q false) = true :=
      List.any_eq_true.2 ⟨q, hq, hmark⟩
    rw [← hfix, relaxPass_getD, he, hany, decide_eq_true (lt_of_atLeast he), Bool.and_self, Bool.or_true,
      Bool.and_self]

theorem traceMarks_edgeMarks (ht : tl ≤ th) : EdgeMarks n h w th tl (traceMarks n h w th tl) := by
  refine traceMarks_closed.edgeMarks (traceMarks_length ..) ?_
  refine relax_ind _ (fun e q _ he hq hedge => .of_mem_neighbours he hq hedge) _ fun e he => ?_
  rw [strong_getD, Bool.and_eq_true] at he
  exact (atLeast_iff_reachesLevel.1 he.2).isEdge ht

theorem traceMarks_iff_isEdge (ht : tl ≤ th) {r c : Nat} (hc : c < w) :
    (traceMarks n h w th tl).getD (r * w + c) false = true ↔ IsEdge n h w th tl (r, c) := by
  rw [(traceMarks_edgeMarks ht).isEdge_iff, pixelOf_pixel hc]

end

/-- Settles O48: the fixed point of the passes is closed, and every mark inherits its path from a neighbour. -/
theorem tracerMarksExactlyReachable : Obligations.TracerMarksExactlyReachable :=
  fun _ _ _ _ _ _ _ ht _ hc => traceMarks_iff_isEdge ht hc

/-! ### Zero thresholds (R187) -/

/-- Two pixels of the interior are joined by a path inside it: along the column, then along the row. -/
theorem Interior.joined {h w r c r' c' : Nat} (hp : Interior h w r c) (hq : Interior h w r' c') :
    Relation.ReflTransGen (fun a b => Adjacent a b ∧ Interior h w b.1 b.2) (r, c) (r', c') := by
  obtain ⟨hr, hrh, hc, hcw⟩ := hp
  obtain ⟨hr', hrh', hc', hcw'⟩ := hq
  have column : Relation.ReflTransGen (fun a b => Adjacent (a, c) (b, c) ∧ Interior h w b c) r r' := by
    refine reflTransGen_of_succ _ (fun i hi => ?_) fun i hi => ?_ <;>
      simp only [Set.mem_Ico, Nat.succ_eq_succ, Adjacent, Interior, ne_eq, Prod.mk.injEq] at hi ⊢ <;> omega
  have row : Relation.ReflTransGen (fun a b => Adjacent (r', a) (r', b) ∧ Interior h w r' b) c c' := by
    refine reflTransGen_of_succ _ (fun i hi => ?_) fun i hi => ?_ <;>
      simp only [Set.mem_Ico, Nat.succ_eq_succ, Adjacent, Interior, ne_eq, Prod.mk.injEq] at hi ⊢ <;> omega
  exact (column.lift (·, c) fun _ _ hstep => hstep).trans (row.lift (r', ·) fun _ _ hstep => hstep)

/-- With `tl = 0` every interior pixel is weak. -/
theorem Interior.isEdge_zero_iff {n : List Nat} {h w th r c : Nat} (hi : Interior h w r c) :
    IsEdge n h w th 0 (r, c) ↔ ∃ p, ReachesLevel n h w th p := by
  constructor
  · rintro ⟨-, q, hq, -⟩
    exact ⟨q, hq⟩
  · rintro ⟨q, hq⟩
    have hweak : ∀ a b, Adjacent a b ∧ Interior h w b.1 b.2 → Adjacent a b ∧ ReachesLevel n h w 0 b :=
      fun _ _ hstep => hstep.imp_right fun hb => ⟨hb, Nat.zero_le _⟩
    exact ⟨⟨hi, Nat.zero_le _⟩, q, hq, Relation.ReflTransGen.mono hweak _ _ (hi.joined hq.1)⟩

/-- Settles O50: with `th = 0` the pixel itself is strong; with `tl = 0` the interior is one component. -/
theorem zeroThresholds : Obligations.ZeroThresholds := by
  intro n h w th r c hi
  have hlevel : ReachesLevel n h w 0 (r, c) := ⟨hi, Nat.zero_le _⟩
  rw [traceMarks_iff_isEdge le_rfl hi.inside.2, traceMarks_iff_isEdge (Nat.zero_le th) hi.inside.2]
  exact ⟨hlevel.isEdge le_rfl, hi.isEdge_zero_iff⟩

end Sys2Proof.Slice0

/-! PROOFS. HYST as a command, and HYST issued twice: the second run reads the same SUP2 and writes the same block
(44_hysteresis R181, R186, R188). -/

namespace Sys2Proof.Machine

/-- Writing the same block again changes nothing. -/
theorem Memory.write_write (m : Memory) (a : Nat) (bs : List Byte) : (m.write a bs).write a bs = m.write a bs := by
  have hblock : ∀ p : Host.Cell → Bool, (∀ c, p c = true → c.1 < a ∨ a + bs.length ≤ c.1) →
      (Memory.block a bs).filter p = [] := fun p hp => List.filter_eq_nil_iff.2 fun c hc hpc => by
    have hin := Memory.mem_block hc
    have hout := hp c hpc
    omega
  have hcross : m.filter (fun c => decide (c.1 < a) && decide (a + bs.length ≤ c.1)) = [] :=
    List.filter_eq_nil_iff.2 fun c _ => by
      rw [Bool.and_eq_true, decide_eq_true_eq, decide_eq_true_eq]
      omega
  have hcross' : m.filter (fun c => decide (a + bs.length ≤ c.1) && decide (c.1 < a)) = [] := by
    simpa only [Bool.and_comm] using hcross
  have below : (m.write a bs).filter (fun c => decide (c.1 < a)) = m.filter (fun c => decide (c.1 < a)) := by
    simp only [Memory.write, List.filter_append, List.filter_filter, Bool.and_self, hcross, List.append_nil]
    rw [hblock _ fun _ hc => .inl (of_decide_eq_true hc), List.append_nil]
  have above : (m.write a bs).filter (fun c => decide (a + bs.length ≤ c.1)) =
      m.filter (fun c => decide (a + bs.length ≤ c.1)) := by
    simp only [Memory.write, List.filter_append, List.filter_filter, Bool.and_self, hcross', List.nil_append]
    rw [hblock _ fun _ hc => .inr (of_decide_eq_true hc), List.nil_append]
  conv_lhs => rw [Memory.write, below, above, ← Memory.write]

/-- What HYST writes: a block of EDGE made from SUP2 and the latched set alone (R186). -/
theorem hystStage_mem (s : State) :
    (hystStage s).mem = s.mem.write Buf.edge.base (regionBytes .edge
      (traceEdges (s.elems .sup2 s.latched.region) s.latched.H s.latched.W s.latched.Th s.latched.Tl)) := rfl

/-- HYST on the memory it has left, with the same latched set and the same SUP2. -/
theorem hystStage_mem_again {s t : State} (hm : t.mem = (hystStage s).mem) (hl : t.latched = s.latched)
    (hsup : t.elems .sup2 s.latched.region = s.elems .sup2 s.latched.region) : (hystStage t).mem = t.mem := by
  rw [hystStage_mem, hl, hsup, hm, hystStage_mem, Memory.write_write]

end Sys2Proof.Machine

namespace Sys2Proof.Slice0
open Sys2Proof.Machine

theorem conditionThresholds_latched (s : State) :
    conditionThresholds s.latched.Th s.latched.Tl = (highThreshold s, lowThreshold s) := conditionThresholds_eq _ _

theorem holdsEdges_afterStage (s : State) (rest : List Stage) : HoldsEdges s (s.afterStage .hyst rest) := by
  intro r c hr hc
  have helem : (s.afterStage .hyst rest).elem .edge (r * cols s + c) = _ :=
    (elem_advance _ _ _ _).trans (elem_hystStage (pixel_lt hr hc))
  rw [helem, conditionThresholds_latched]
  exact ⟨fun hedge => if_pos ((traceMarks_iff_isEdge min_le_max hc).2 hedge),
    fun hedge => if_neg (mt (traceMarks_iff_isEdge min_le_max hc).1 hedge)⟩

/-- Settles O14: the one engine step is `hystStage`. -/
theorem hystRunsAndCompletes : Obligations.HystRunsAndCompletes := by
  refine ⟨acceptedAs .hyst, fun s hrun => ?_⟩
  have hframe : BytesSameOutside s (s.afterStage .hyst []) 0x02800000 (1 * (rows s * cols s)) :=
    bytesSameOutside_performStage (st := .hyst) (out := .edge) rfl s []
  rw [one_mul] at hframe
  exact ⟨_, hrun.exec .hyst, holdsEdges_afterStage s [], hframe, endedFrom_performStage .hyst s⟩

/-- Settles O51: the pixel clauses are O48's, and a second HYST finds SUP2 and the latched set unchanged. -/
theorem hystProperties : Obligations.HystProperties := by
  refine ⟨fun n h w th tl r c ht hr hc => ?_, fun s t u hrun hfit ht hu => ?_⟩
  · rw [← Bool.not_eq_true, traceMarks_iff_isEdge ht hc]
    exact ⟨fun hlow hedge => hlow.not_ge hedge.1.2, fun hborder hedge => hborder hedge.1.1,
      fun hi hth => ReachesLevel.isEdge ⟨hi, hth⟩ ht⟩
  · obtain rfl : s.afterStage .hyst [] = t := Host.Outcome.next.inj ((hrun.exec .hyst).symm.trans ht)
    obtain rfl := Host.Outcome.next.inj ((exec_busy .hyst rfl rfl).symm.trans hu)
    have hr := hfit.region_le_reference
    have hsup := elems_congr (agreeOn_afterStage_other (st := .hyst) hr [] (b := .sup2) hr (by decide))
    exact (advance_mem _ _).trans (hystStage_mem_again (advance_mem _ _) (afterStage_latched s .hyst []) hsup)

end Sys2Proof.Slice0

/-! PROOFS. The work-list procedure: whatever the order, it ends with an empty work list and the set `Edge`, the marks of
the stage (44_hysteresis R184, R185, 70_reset R263). -/

namespace Sys2Proof.Machine

/-! ### Visiting a pixel -/

/-- The pixel is marked. -/
def WorkState.Marked (s : WorkState) (e : Nat) : Prop := s.marked.getD e false = true

/-- A pixel is visited: marked, and put on the work list. -/
def WorkState.visit (s : WorkState) (q : Nat) : WorkState := { marked := s.marked.set q true, work := q :: s.work }

/-- How many turns are left at most: one for each entry of the work list and one for each pixel not yet marked. -/
def WorkState.turnsLeft (s : WorkState) : Nat := s.work.length + s.marked.count false

@[simp] theorem visit_work (s : WorkState) (q : Nat) : (s.visit q).work = q :: s.work := rfl

@[simp] theorem visit_marked_length (s : WorkState) (q : Nat) : (s.visit q).marked.length = s.marked.length :=
  List.length_set

theorem marked_visit_iff {s : WorkState} {q : Nat} (hq : q < s.marked.length) (e : Nat) :
    (s.visit q).Marked e ↔ e = q ∨ s.Marked e := by
  simp only [WorkState.Marked, WorkState.visit, List.getD_eq_getElem?_getD]
  by_cases he : q = e
  · subst he
    simp [hq]
  · simp [List.getElem?_set_ne he, Ne.symm he]

theorem turnsLeft_visit {s : WorkState} {q : Nat} (hq : q < s.marked.length) (hnew : ¬ s.Marked q) :
    (s.visit q).turnsLeft = s.turnsLeft := by
  have hfalse : s.marked[q] = false := by
    rwa [WorkState.Marked, List.getD_eq_getElem _ _ hq, Bool.not_eq_true] at hnew
  have hpos : 0 < s.marked.count false := List.count_pos_iff.2 (hfalse ▸ List.getElem_mem hq)
  have hcount : (s.marked.set q true).count false = s.marked.count false - 1 := by
    simp [List.count_set hq, hfalse]
  simp only [WorkState.turnsLeft, WorkState.visit, List.length_cons, hcount]
  omega

/-- A neighbour is visited when it is weak and not yet marked, and else passed over (R185). -/
theorem pushIfWeak_cases (n : List Nat) (h w tl : Nat) (s : WorkState) (q : Nat) :
    (atLeast n h w tl q = true ∧ ¬ s.Marked q ∧ pushIfWeak n h w tl s q = s.visit q) ∨
      ((atLeast n h w tl q = true → s.Marked q) ∧ pushIfWeak n h w tl s q = s) := by
  simp only [pushIfWeak, WorkState.Marked]
  cases atLeast n h w tl q <;> cases s.marked.getD q false <;> simp [WorkState.visit]

/-- A seed starts a traversal when it is strong and not yet marked, and else is passed over (R185). -/
theorem traceSeed_cases (n : List Nat) (h w th tl : Nat) (pick : List Nat → Nat) (s : WorkState) (p : Nat) :
    (atLeast n h w th p = true ∧ ¬ s.Marked p ∧
        traceSeed n h w th tl pick s p = drain n h w tl pick (h * w) (s.visit p)) ∨
      ((atLeast n h w th p = true → s.Marked p) ∧ traceSeed n h w th tl pick s p = s) := by
  simp only [traceSeed, WorkState.Marked]
  cases atLeast n h w th p <;> cases s.marked.getD p false <;> simp [WorkState.visit]

/-- A turn takes one entry off the work list, whichever it is, and looks at that entry's neighbours. -/
theorem serveOne_eq (n : List Nat) (h w tl : Nat) (pick : List Nat → Nat) {s : WorkState} (hs : s.work ≠ []) :
    ∃ q rest, s.work.Perm (q :: rest) ∧ serveOne n h w tl pick s =
      (neighbours w (q / w) (q % w)).foldl (pushIfWeak n h w tl) { s with work := rest } := by
  have hk : pick s.work % s.work.length < s.work.length := Nat.mod_lt _ (List.length_pos_iff.2 hs)
  refine ⟨s.work[pick s.work % s.work.length], s.work.eraseIdx (pick s.work % s.work.length),
    (List.getElem_cons_eraseIdx_perm hk).symm, ?_⟩
  rw [serveOne, List.getD_eq_getElem _ _ hk]

end Sys2Proof.Machine

namespace Sys2Proof.Slice0
open Sys2Proof.Machine

section
variable {n : List Nat} {h w th tl : Nat}

/-! ### The invariant of the inner loop -/

/-- Every mark is an edge, and has its weak neighbours marked unless it still waits on the work list or is being
served. -/
structure Tracing (n : List Nat) (h w th tl : Nat) (served : List Nat) (s : WorkState) : Prop where
  length : s.marked.length = h * w
  isEdge : ∀ e, s.Marked e → IsEdge n h w th tl (pixelOf w e)
  listed : ∀ e ∈ s.work, s.Marked e
  passedOn : ∀ e, s.Marked e → e ∈ s.work ∨ e ∈ served ∨
    ∀ q ∈ neighbours w (e / w) (e % w), atLeast n h w tl q = true → s.Marked q

/-- One state of a traversal after another: no mark is lost, and no turn is gained. -/
structure Follows (s t : WorkState) : Prop where
  marks : ∀ e, s.Marked e → t.Marked e
  turns : t.turnsLeft ≤ s.turnsLeft

theorem Follows.refl (s : WorkState) : Follows s s := ⟨fun _ he => he, le_rfl⟩

theorem Follows.trans {s t u : WorkState} (hst : Follows s t) (htu : Follows t u) : Follows s u :=
  ⟨fun e he => htu.marks e (hst.marks e he), htu.turns.trans hst.turns⟩

theorem Tracing.visit {served : List Nat} {s : WorkState} (hs : Tracing n h w th tl served s) {q : Nat}
    (hq : IsEdge n h w th tl (pixelOf w q)) (hnew : ¬ s.Marked q) :
    Tracing n h w th tl served (s.visit q) ∧ Follows s (s.visit q) ∧ (s.visit q).Marked q := by
  have hlt : q < s.marked.length := hs.length ▸ lt_of_atLeast (atLeast_iff_reachesLevel.2 hq.1)
  have hiff := marked_visit_iff hlt
  have hmono : ∀ e, s.Marked e → (s.visit q).Marked e := fun e he => (hiff e).2 (.inr he)
  have hself : (s.visit q).Marked q := (hiff q).2 (.inl rfl)
  refine ⟨⟨(visit_marked_length s q).trans hs.length, fun e he => ?_, fun e he => ?_, fun e he => ?_⟩,
    ⟨hmono, (turnsLeft_visit hlt hnew).le⟩, hself⟩
  · obtain rfl | he := (hiff e).1 he
    · exact hq
    · exact hs.isEdge e he
  · obtain rfl | he := List.mem_cons.1 he
    · exact hself
    · exact hmono e (hs.listed e he)
  · obtain rfl | he := (hiff e).1 he
    · exact .inl List.mem_cons_self
    · exact (hs.passedOn e he).imp (List.mem_cons_of_mem q)
        (Or.imp_right fun hall z hz hweak => hmono z (hall z hz hweak))

theorem Tracing.pushIfWeak {served : List Nat} {s : WorkState} (hs : Tracing n h w th tl served s) {q : Nat}
    (hq : atLeast n h w tl q = true → IsEdge n h w th tl (pixelOf w q)) :
    Tracing n h w th tl served (pushIfWeak n h w tl s q) ∧ Follows s (pushIfWeak n h w tl s q) ∧
      (atLeast n h w tl q = true → (pushIfWeak n h w tl s q).Marked q) := by
  obtain ⟨hweak, hnew, heq⟩ | ⟨hmarked, heq⟩ := pushIfWeak_cases n h w tl s q
  · obtain ⟨hvisit, hfollows, hself⟩ := hs.visit (hq hweak) hnew
    exact heq ▸ ⟨hvisit, hfollows, fun _ => hself⟩
  · exact heq.symm ▸ ⟨hs, .refl s, hmarked⟩

theorem Tracing.foldl_pushIfWeak {served : List Nat} (qs : List Nat) {s : WorkState}
    (hs : Tracing n h w th tl served s)
    (hqs : ∀ q ∈ qs, atLeast n h w tl q = true → IsEdge n h w th tl (pixelOf w q)) :
    Tracing n h w th tl served (qs.foldl (Machine.pushIfWeak n h w tl) s) ∧
      Follows s (qs.foldl (Machine.pushIfWeak n h w tl) s) ∧
      ∀ q ∈ qs, atLeast n h w tl q = true → (qs.foldl (Machine.pushIfWeak n h w tl) s).Marked q := by
  induction qs generalizing s with
  | nil => exact ⟨hs, .refl s, by simp⟩
  | cons q qs ih =>
    obtain ⟨hq, hqs⟩ := List.forall_mem_cons.1 hqs
    obtain ⟨hpush, hfirst, hself⟩ := hs.pushIfWeak hq
    obtain ⟨hall, hrest, hmarked⟩ := ih hpush hqs
    exact ⟨hall, hfirst.trans hrest,
      List.forall_mem_cons.2 ⟨fun hweak => hrest.marks q (hself hweak), hmarked⟩⟩

/-- A turn serves its entry whole: all its weak neighbours are marked afterwards. -/
theorem Tracing.serveOne {s : WorkState} (hs : Tracing n h w th tl [] s) (pick : List Nat → Nat)
    (hwork : s.work ≠ []) :
    Tracing n h w th tl [] (serveOne n h w tl pick s) ∧
      (∀ e, s.Marked e → (serveOne n h w tl pick s).Marked e) ∧
      (serveOne n h w tl pick s).turnsLeft < s.turnsLeft := by
  obtain ⟨q, rest, hperm, heq⟩ := serveOne_eq n h w tl pick hwork
  have hmem : ∀ e, e ∈ s.work ↔ e ∈ q :: rest := fun e => hperm.mem_iff
  have hedge : IsEdge n h w th tl (pixelOf w q) := hs.isEdge q (hs.listed q ((hmem q).2 List.mem_cons_self))
  have htaken : Tracing n h w th tl [q] { s with work := rest } := by
    refine ⟨hs.length, hs.isEdge, fun e he => hs.listed e ((hmem e).2 (List.mem_cons_of_mem q he)), fun e he => ?_⟩
    obtain hlisted | hnone | hall := hs.passedOn e he
    · obtain rfl | hrest := List.mem_cons.1 ((hmem e).1 hlisted)
      · exact .inr (.inl List.mem_cons_self)
      · exact .inl hrest
    · exact absurd hnone List.not_mem_nil
    · exact .inr (.inr hall)
  obtain ⟨hall, hfollows, hserved⟩ := htaken.foldl_pushIfWeak (neighbours w (q / w) (q % w))
    fun z hz hweak => .of_mem_neighbours hweak
      ((mem_neighbours_comm (atLeast_iff_reachesLevel.2 hedge.1) hweak).1 hz) hedge
  rw [← heq] at hall hfollows hserved
  refine ⟨⟨hall.length, hall.isEdge, hall.listed, fun e he => ?_⟩, hfollows.marks, ?_⟩
  · obtain hlisted | hserving | hdone := hall.passedOn e he
    · exact .inl hlisted
    · obtain rfl := List.mem_singleton.1 hserving
      exact .inr (.inr hserved)
    · exact .inr (.inr hdone)
  · refine lt_of_le_of_lt hfollows.turns ?_
    simp only [WorkState.turnsLeft, hperm.length_eq, List.length_cons]
    omega

/-! ### Between two seeds -/

/-- The inner loop empties the work list within the turns left. -/
theorem Tracing.drain (pick : List Nat → Nat) (fuel : Nat) {s : WorkState} (hs : Tracing n h w th tl [] s)
    (hfuel : s.turnsLeft ≤ fuel) :
    Tracing n h w th tl [] (drain n h w tl pick fuel s) ∧ (drain n h w tl pick fuel s).work = [] ∧
      ∀ e, s.Marked e → (drain n h w tl pick fuel s).Marked e := by
  induction fuel generalizing s with
  | zero =>
    have hwork : s.work.length ≤ 0 := (Nat.le_add_right _ _).trans hfuel
    exact ⟨hs, List.length_eq_zero_iff.1 (Nat.le_zero.1 hwork), fun _ he => he⟩
  | succ fuel ih =>
    rw [Machine.drain]
    split
    case isTrue hwork => exact ⟨hs, hwork, fun _ he => he⟩
    case isFalse hwork =>
      obtain ⟨hserve, hmarks, hturns⟩ := hs.serveOne pick hwork
      obtain ⟨hdrain, hempty, hmarks'⟩ := ih hserve (by omega)
      exact ⟨hdrain, hempty, fun e he => hmarks' e (hmarks e he)⟩

/-- Each seed leaves an empty work list, keeps the marks, and is marked if it is strong. -/
theorem Tracing.traceSeed (ht : tl ≤ th) (pick : List Nat → Nat) {s : WorkState} (hs : Tracing n h w th tl [] s)
    (hwork : s.work = []) (p : Nat) :
    Tracing n h w th tl [] (traceSeed n h w th tl pick s p) ∧ (traceSeed n h w th tl pick s p).work = [] ∧
      (∀ e, s.Marked e → (traceSeed n h w th tl pick s p).Marked e) ∧
      (atLeast n h w th p = true → (traceSeed n h w th tl pick s p).Marked p) := by
  obtain ⟨hstrong, hnew, heq⟩ | ⟨hmarked, heq⟩ := traceSeed_cases n h w th tl pick s p
  · obtain ⟨hvisit, hfollows, hself⟩ := hs.visit ((atLeast_iff_reachesLevel.1 hstrong).isEdge ht) hnew
    have hturns : s.turnsLeft ≤ h * w := by
      rw [WorkState.turnsLeft, hwork, List.length_nil, Nat.zero_add, ← hs.length]
      exact List.count_le_length
    obtain ⟨hdrain, hempty, hmarks⟩ := hvisit.drain pick (h * w) (hfollows.turns.trans hturns)
    exact heq ▸ ⟨hdrain, hempty, fun e he => hmarks e (hfollows.marks e he), fun _ => hmarks p hself⟩
  · exact heq.symm ▸ ⟨hs, hwork, fun _ he => he, hmarked⟩

theorem Tracing.foldl_traceSeed (ht : tl ≤ th) (pick : List Nat → Nat) (seeds : List Nat) {s : WorkState}
    (hs : Tracing n h w th tl [] s) (hwork : s.work = []) :
    Tracing n h w th tl [] (seeds.foldl (Machine.traceSeed n h w th tl pick) s) ∧
      (seeds.foldl (Machine.traceSeed n h w th tl pick) s).work = [] ∧
      (∀ e, s.Marked e → (seeds.foldl (Machine.traceSeed n h w th tl pick) s).Marked e) ∧
      ∀ p ∈ seeds, atLeast n h w th p = true → (seeds.foldl (Machine.traceSeed n h w th tl pick) s).Marked p := by
  induction seeds generalizing s with
  | nil => exact ⟨hs, hwork, fun _ he => he, by simp⟩
  | cons p seeds ih =>
    obtain ⟨hseed, hempty, hmarks, hself⟩ := hs.traceSeed ht pick hwork p
    obtain ⟨hall, hdone, hmarks', hseeds⟩ := ih hseed hempty
    exact ⟨hall, hdone, fun e he => hmarks' e (hmarks e he),
      List.forall_mem_cons.2 ⟨fun hstrong => hmarks' p (hself hstrong), hseeds⟩⟩

/-- Nothing is marked before the first seed. -/
theorem tracing_start : Tracing n h w th tl [] { marked := List.replicate (h * w) false, work := [] } := by
  have hnone : ∀ e, ¬ WorkState.Marked { marked := List.replicate (h * w) false, work := [] } e := fun e => by
    rw [WorkState.Marked, List.getD_eq_getElem?_getD, List.getElem?_getD_replicate_default_eq]
    exact Bool.false_ne_true
  exact ⟨List.length_replicate, fun e he => absurd he (hnone e), by simp, fun e he => absurd he (hnone e)⟩

/-- With the work list empty and the strong pixels marked, the marks are exactly the edges. -/
theorem Tracing.edgeMarks {s : WorkState} (hs : Tracing n h w th tl [] s) (hwork : s.work = [])
    (hstrong : ∀ e, atLeast n h w th e = true → s.Marked e) : EdgeMarks n h w th tl s.marked := by
  refine ClosedMarks.edgeMarks ⟨hstrong, fun e q hweak hmem hq => ?_⟩ hs.length hs.isEdge
  have hqweak := atLeast_iff_reachesLevel.2 (hs.isEdge q hq).1
  obtain hlisted | hnone | hall := hs.passedOn q hq
  · exact absurd (hwork ▸ hlisted) List.not_mem_nil
  · exact absurd hnone List.not_mem_nil
  · exact hall e ((mem_neighbours_comm hweak hqweak).1 hmem) hweak

end

/-- Settles O49: both lists of marks are exactly the edges. -/
theorem workListOrderIsIrrelevant : Obligations.WorkListOrderIsIrrelevant := by
  intro n h w th tl pick seeds ht hseeds
  obtain ⟨htrace, hempty, -, hstrong⟩ := tracing_start.foldl_traceSeed (n := n) ht pick seeds rfl
  have hmarks := htrace.edgeMarks hempty fun e he => hstrong e (hseeds e (lt_of_atLeast he)) he
  exact ⟨hempty, hmarks.unique (traceMarks_edgeMarks ht)⟩

end Sys2Proof.Slice0

/-! PROOFS. Turns and writes that meet a running command: the engine's turn, NOP, an overrun, and what an engine step
leaves of STATUS (45_control R201, R206 to R208). -/

namespace Sys2Proof.Machine

/-! ### The engine's turn (R72, R207) -/

theorem step_engine {s : State} {ts : List Turn} (h : s.turns = .engine :: ts) :
    step s = engineTurn { s with turns := ts } := by
  rw [step, takeTurn, h]
  rfl

/-- With no turn prescribed a busy CEC's engine moves (log 2). -/
theorem step_busy_of_no_turns {s : State} (hb : s.status.busy = true) (h : s.turns = []) : step s = engineTurn s := by
  rw [step, takeTurn, h]
  exact if_pos hb

theorem engineTurn_busy {s : State} (hb : s.status.busy = true) (i : Instr) : engineTurn s = exec i s := by
  rw [engineTurn_eq, exec_next, if_pos hb, if_pos hb]

/-! ### What an engine step leaves (R207) -/

@[simp] theorem advance_err (s : State) (r : List Stage) : (s.advance r).status.err = s.status.err := by
  cases r <;> rfl
@[simp] theorem advance_errcode (s : State) (r : List Stage) : (s.advance r).status.errcode = s.status.errcode := by
  cases r <;> rfl

@[simp] theorem engineStep_err (s : State) : (engineStep s).status.err = s.status.err := by
  obtain ⟨-, he⟩ | ⟨st, rest, -, he⟩ := engineStep_cases s <;> simp [he]
@[simp] theorem engineStep_errcode (s : State) : (engineStep s).status.errcode = s.status.errcode := by
  obtain ⟨-, he⟩ | ⟨st, rest, -, he⟩ := engineStep_cases s <;> simp [he]

end Sys2Proof.Machine

namespace Sys2Proof.Slice0
open Sys2Proof.Machine

/-- Settles O5: whichever command CMD holds, its `exec` in a busy state is the engine step. -/
theorem engineTurnRunsCommandInProgress : Obligations.EngineTurnRunsCommandInProgress := by
  refine ⟨fun s i hb _ => ⟨fun ts hts => ?_, fun hts => ?_⟩, fun s ts hb hts => ?_⟩
  · rw [step_engine hts]
    exact engineTurn_busy (s := { s with turns := ts }) hb i
  · rw [step_busy_of_no_turns hb hts, engineTurn_busy hb i]
  · rw [step_engine hts, engineTurn_eq]
    exact congrArg _ (if_neg (by simp [hb]))

/-- Settles O7: NOP makes no check, and its one stage changes nothing. -/
theorem nopRunsAndCompletes : Obligations.NopRunsAndCompletes :=
  ⟨acceptedAs .nop, fun _ hrun => hrun.exec .nop⟩

/-- Settles O17: CMD is served in every state, and a busy CEC takes no word. -/
theorem overrunOnlySetsOvr : Obligations.OverrunOnlySetsOvr := fun s w hb =>
  ⟨(busWrite_reg .cmd w s).trans (if_pos hb), writeStatus_reg .cmd s⟩

/-- Settles O20: `exec` always answers, and an engine step leaves ERR and ERRCODE alone. -/
theorem commandsNeverFailAfterAccept : Obligations.CommandsNeverFailAfterAccept := fun i s =>
  ⟨_, exec_next i s, fun hb => by rw [if_pos hb]; exact ⟨engineStep_err s, engineStep_errcode s⟩⟩

end Sys2Proof.Slice0

/-! PROOFS. The engine steps of a whole command in closed form: its stages one after the other on the buffers, and the
control fields on their own, which no stage reads or writes (45_control R207). -/

namespace Sys2Proof.Machine

/-! ### The control fields -/

/-- What says how far a command has come: CMD, the stage list, and STATUS but for OVR and CONV_OVF. -/
structure Control where
  cmd : Word
  stages : List Stage
  busy : Bool
  done : Bool
  err : Bool
  stage : BitVec 3
  errcode : ErrCode

def State.control (s : State) : Control :=
  { cmd := s.cmd, stages := s.stages, busy := s.status.busy, done := s.status.done, err := s.status.err
    stage := s.status.stage, errcode := s.status.errcode }

def State.withControl (s : State) (c : Control) : State :=
  { s with
    cmd := c.cmd
    stages := c.stages
    status := { s.status with busy := c.busy, done := c.done, err := c.err, stage := c.stage, errcode := c.errcode } }

/-- The control fields after a stage, with `rest` still to run (R207). -/
def Control.next (c : Control) : List Stage → Control
  | [] => { c with stages := [], busy := false, done := true }
  | nx :: rest => { c with stages := nx :: rest, stage := nx.code }

/-- The control fields after all the stages of a list. -/
def Control.run (c : Control) : List Stage → Control
  | [] => c
  | _ :: rest => (c.next rest).run rest

/-- A command ends idle with DONE = 1 and the code of its last stage in STAGE (R207). -/
theorem Control.run_cons (c : Control) (st : Stage) (rest : List Stage) : c.run (st :: rest) =
    { c with stages := [], busy := false, done := true, stage := (rest.map Stage.code).getLastD c.stage } := by
  induction rest generalizing c st with
  | nil => rfl
  | cons nx more ih => exact (ih (c.next (nx :: more)) nx).trans (by rw [List.map_cons, List.getLastD_cons]; rfl)

theorem descaleStage_withControl (src out : Buf) (s : State) (c : Control) :
    descaleStage src out (s.withControl c) = (descaleStage src out s).withControl c := rfl

/-- No stage reads or writes a control field (R207). -/
theorem performStage_withControl (st : Stage) (s : State) (c : Control) :
    performStage st (s.withControl c) = (performStage st s).withControl c := by
  cases st with
  | descaleXY =>
    rw [performStage, performStage, descaleBoth, descaleBoth, descaleStage_withControl, descaleStage_withControl]
  | _ => rfl

theorem afterStage_eq_withControl (s : State) (st : Stage) (rest : List Stage) :
    s.afterStage st rest = (performStage st s).withControl (s.control.next rest) := by
  cases rest <;> cases st <;> rfl

/-! ### Stages one after the other -/

/-- The stages of a list performed on the buffers and CONV_OVF, the control fields kept. -/
def State.performStages (s : State) (l : List Stage) : State := l.foldl (fun t st => performStage st t) s

/-- The engine steps that run the stages of a list. -/
def State.afterStages (s : State) : List Stage → State
  | [] => s
  | st :: rest => (s.afterStage st rest).afterStages rest

theorem performStages_append (s : State) (l m : List Stage) :
    s.performStages (l ++ m) = (s.performStages l).performStages m := List.foldl_append

theorem performStages_withControl (s : State) (c : Control) (l : List Stage) :
    (s.withControl c).performStages l = (s.performStages l).withControl c := by
  induction l generalizing s with
  | nil => rfl
  | cons st rest ih => exact (congrArg (·.performStages rest) (performStage_withControl st s c)).trans (ih _)

/-- All that stages can change: the memory and CONV_OVF (R207). -/
theorem performStages_eq (s : State) (l : List Stage) : ∃ m ovf,
    s.performStages l = { s with mem := m, status := { s.status with convOvf := ovf } } := by
  induction l generalizing s with
  | nil => exact ⟨_, _, rfl⟩
  | cons st rest ih =>
    obtain ⟨m, ovf, h⟩ := ih (performStage st s)
    exact ⟨m, ovf, h.trans (by rw [performStage_eq])⟩

/-- Engine steps act on the buffers and on the control fields apart. -/
theorem afterStages_eq (s : State) (l : List Stage) :
    s.afterStages l = (s.performStages l).withControl (s.control.run l) := by
  induction l generalizing s with
  | nil => rfl
  | cons st rest ih =>
    rw [State.afterStages, ih, afterStage_eq_withControl, performStages_withControl]
    rfl

@[simp] theorem afterStages_latched (s : State) (l : List Stage) : (s.afterStages l).latched = s.latched := by
  obtain ⟨m, ovf, h⟩ := performStages_eq s l
  rw [afterStages_eq, h]
  rfl
@[simp] theorem afterStages_params (s : State) (l : List Stage) : (s.afterStages l).params = s.params := by
  obtain ⟨m, ovf, h⟩ := performStages_eq s l
  rw [afterStages_eq, h]
  rfl

/-! ### Engine steps, counted -/

/-- As many engine steps as there are stages left run them all. -/
theorem engineStep_iterate {s : State} {l : List Stage} (h : s.stages = l) :
    engineStep^[l.length] s = s.afterStages l := by
  induction l generalizing s with
  | nil => rfl
  | cons st rest ih =>
    rw [List.length_cons, Function.iterate_succ_apply, engineStep_cons h, State.afterStages]
    exact ih (advance_stages _ _)

/-- A busy CEC stays busy while stages are left (R207). -/
theorem engineStep_iterate_busy {s : State} {k : Nat} (hb : s.status.busy = true) (hk : k < s.stages.length) :
    (engineStep^[k] s).status.busy = true := by
  induction k generalizing s with
  | zero => exact hb
  | succ k ih =>
    match hs : s.stages with
    | [] | [_] => simp [hs] at hk
    | st :: nx :: more =>
      rw [hs] at hk
      rw [Function.iterate_succ_apply, engineStep_cons hs]
      exact ih (by simpa using hb) (by simpa using hk)

/-- With no turn prescribed the machine's steps are engine steps, as long as the CEC is busy (log 2). -/
theorem runSteps_eq_iterate {s : State} {k : Nat} (ht : s.turns = [])
    (hb : ∀ j, j < k → (engineStep^[j] s).status.busy = true) : runSteps k s = .next (engineStep^[k] s) := by
  induction k generalizing s with
  | zero => rfl
  | succ k ih =>
    have hb0 : s.status.busy = true := hb 0 (Nat.succ_pos k)
    have hturns : (engineStep s).turns = [] := by
      obtain ⟨-, he⟩ | ⟨st, rest, -, he⟩ := engineStep_cases s <;> simp [he, ht]
    rw [runSteps, step_busy_of_no_turns hb0 ht, engineTurn_eq, if_pos hb0]
    exact ih hturns fun j hj => hb (j + 1) (Nat.succ_lt_succ hj)

theorem runSteps_busy {s : State} {k : Nat} (hb : s.status.busy = true) (ht : s.turns = [])
    (hk : k ≤ s.stages.length) : runSteps k s = .next (engineStep^[k] s) :=
  runSteps_eq_iterate ht fun _ hj => engineStep_iterate_busy hb (lt_of_lt_of_le hj hk)

end Sys2Proof.Machine

namespace Sys2Proof.Slice0
open Sys2Proof.Machine

/-- Settles O16: the stage list is one of the control fields, which no stage looks at. -/
theorem engineStepRunsHeadStage : Obligations.EngineStepRunsHeadStage := by
  intro i j s st rest hb hs
  have halone : performStage st { s with stages := [st] } =
      (performStage st s).withControl { s.control with stages := [st] } :=
    performStage_withControl st s { s.control with stages := [st] }
  refine ⟨_, _, exec_busy i hb hs, exec_busy j (s := { s with stages := [st] }) hb rfl, ?_, ?_, advance_stages _ _,
    ?_, ?_, by simp, by simp, by simp, by simp, by simp, by simp, by simp, by simp⟩
  · rw [advance_mem, advance_mem, halone]
    rfl
  · rw [advance_convOvf, advance_convOvf, halone]
    rfl
  · rintro rfl
    exact ⟨rfl, rfl, performStage_stage st s⟩
  · rintro nx more rfl
    exact ⟨(performStage_busy st s).trans hb, performStage_done st s, rfl⟩

/-- Settles O21: the steps are engine steps, and the last one leaves what `Control.run_cons` says. -/
theorem busyCommandCompletes : Obligations.BusyCommandCompletes := by
  intro s hi hb ht
  obtain ⟨st, rest, hs⟩ := List.exists_cons_of_ne_nil (hi.busyIff.1 hb)
  obtain ⟨-, -, herr⟩ := hi.busyFlags hb
  refine ⟨⟨_, runSteps_busy hb ht le_rfl, ?_⟩,
    fun k hk => ⟨_, runSteps_busy hb ht hk.le, engineStep_iterate_busy hb hk⟩⟩
  rw [hs, engineStep_iterate hs, afterStages_eq, Control.run_cons]
  exact ⟨rfl, rfl, herr⟩

/-- Settles O22: a refused command has no stage and no step to take; a started one is busy with all of its own. -/
theorem stepsReachAfterCommand : Obligations.StepsReachAfterCommand := by
  intro s i hb hs ht hl s'
  have hstep : step s = .next (accept i s') :=
    (cmdWriteRunsDecodedCommand s [] (encode i) i ht hl hb (decode_encode i)).trans
      ((exec_next i s').trans (congrArg _ (if_neg (by simp [s', hb]))))
  rw [Nat.add_comm, runSteps, hstep, State.afterCommand]
  show runSteps _ (accept i s') = _
  rw [accept_eq]
  split
  · exact runSteps_busy rfl rfl le_rfl
  · rw [refuse_stages, show s'.stages = [] from hs]
    rfl

end Sys2Proof.Slice0

/-! PROOFS. A command given to an idle CEC and run to its end; the soft reset (45_control R204, R205, R210, 70_reset
R253, R264). -/

namespace Sys2Proof.Machine

/-! ### A whole command (R204, R264) -/

/-- The parameters latched, as an accept does (R34). -/
def State.latch (s : State) : State := { s with latched := s.live }

/-- The control fields right after the accept of a valid command (R205). -/
def Control.started (i : Instr) : Control :=
  { cmd := encode i, stages := stagesOf i, busy := true, done := false, err := false
    stage := firstCode (stagesOf i), errcode := .none }

/-- A valid command performs its stages on the latched parameters, whatever the control fields held. -/
theorem afterCommand_of_valid {s : State} {i : Instr} (h : validate s.params s.live (checksOf i) = .none) :
    s.afterCommand i =
      (s.latch.performStages (stagesOf i)).withControl ((Control.started i).run (stagesOf i)) := by
  have hstart : s.start i = s.latch.withControl (Control.started i) := rfl
  rw [State.afterCommand, accept_eq, if_pos h, start_stages, engineStep_iterate (start_stages s i), afterStages_eq,
    hstart, performStages_withControl]
  rfl

/-- A further valid command goes on from the buffers the stages before it have left. -/
theorem afterCommand_withControl {s : State} {i : Instr} (h : validate s.params s.live (checksOf i) = .none)
    (l : List Stage) (c : Control) : ((s.latch.performStages l).withControl c).afterCommand i =
      (s.latch.performStages (l ++ stagesOf i)).withControl ((Control.started i).run (stagesOf i)) := by
  obtain ⟨m, ovf, hran⟩ := performStages_eq s.latch l
  have hlatch : ((s.latch.performStages l).withControl c).latch = (s.latch.performStages l).withControl c := by
    rw [hran]
    rfl
  rw [afterCommand_of_valid (by rw [hran]; exact h), hlatch, performStages_withControl, performStages_append]
  rfl

/-- RUN and HYST end alike, but for their words: idle, STAGE naming HYST (R204). -/
theorem withControl_run_eq_hyst (s : State) : s.withControl ((Control.started .run).run (stagesOf .run)) =
    { s.withControl ((Control.started .hyst).run (stagesOf .hyst)) with cmd := 0x0000000F#32 } := rfl

/-! ### Draws and the soft reset (R210, R253) -/

theorem byteAt_drawRegion (s : State) (b : Buf) (n d a : Nat) : (s.drawRegion b n d).byteAt a =
    if b.base ≤ a ∧ a < b.base + b.elemBytes * n then drawByte d a else s.byteAt a := by
  rw [byteAt_of_write (s := s) (t := s.drawRegion b n d) rfl rfl a]
  simp only [List.length_map, List.length_range, List.getElem_map, List.getElem_range]
  split_ifs with h
  · rw [Nat.add_sub_cancel' h.1]
  · rfl

/-- Each byte drawn is the draw of its own offset, so it does not matter which region was drawn last. -/
theorem byteAt_drawOutputs (s : State) (d a : Nat) (bs : List Buf) : (s.drawOutputs d bs).byteAt a =
    if ∃ b ∈ bs, b.base ≤ a ∧ a < b.base + b.elemBytes * s.latched.region then drawByte d a else s.byteAt a := by
  induction bs generalizing s with
  | nil => rfl
  | cons b bs ih =>
    rw [State.drawOutputs, ih, byteAt_drawRegion, drawRegion_latched, ← ite_or]
    simp only [List.exists_mem_cons_iff]
    exact if_congr or_comm rfl rfl

/-- All that an abort can change (R210). -/
theorem abort_eq (s : State) : ∃ m l d, s.abort = { s with mem := m, stages := l, nextDraw := d } := by
  unfold State.abort
  split
  · split
    · exact ⟨_, _, _, rfl⟩
    · exact ⟨_, _, _, by rw [drawOutputs_eq]⟩
  · exact ⟨_, _, _, rfl⟩

theorem ctrlWrite_of_set {w : Word} (h : w.getLsbD 1 = true) (s : State) : ctrlWrite w s = softReset s := if_pos h

theorem softReset_idle {s : State} (hb : s.status.busy = false) :
    (softReset s).mem = s.mem ∧ (softReset s).stages = s.stages := by
  rw [softReset, abort_idle hb]
  exact ⟨rfl, rfl⟩

theorem softReset_busy {s : State} {st : Stage} {rest : List Stage} (hb : s.status.busy = true)
    (hs : s.stages = st :: rest) : (softReset s).stages = [] ∧
      ∀ a, (softReset s).byteAt a = (s.drawOutputs s.nextDraw st.outputs).byteAt a := by
  rw [softReset, abort_busy hb hs]
  exact ⟨rfl, fun _ => rfl⟩

end Sys2Proof.Machine

namespace Sys2Proof.Slice0
open Sys2Proof.Machine

/-- Settles O23: the stages of RUN are those of the five commands one after the other. -/
theorem runEqualsSeparateCommands : Obligations.RunEqualsSeparateCommands := by
  intro s _ _ _ hdim hks hsc
  have hv (i : Instr) : validate s.params s.live (checksOf i) = .none :=
    (validate_none_iff _ _ _).2 ⟨fun _ => (dimOk_iff _ _).2 hdim, fun _ => (ksizeOk_iff _ _).2 hks,
      fun _ => (scaleOk_iff _).2 hsc⟩
  have hstages : stagesOf .grad ++ stagesOf .mag ++ stagesOf .dir ++ stagesOf .nms ++ stagesOf .hyst = stagesOf .run :=
    rfl
  simp only [State.afterCommands]
  rw [afterCommand_of_valid (hv .run), afterCommand_of_valid (hv .grad), afterCommand_withControl (hv .mag),
    afterCommand_withControl (hv .dir), afterCommand_withControl (hv .nms), afterCommand_withControl (hv .hyst),
    hstages]
  exact withControl_run_eq_hyst _

/-- Settles O38: an abort changes no more than `abort_eq` says, and draws the regions of the stage in progress. -/
theorem softReset : Obligations.SoftReset := by
  intro s w hw
  obtain ⟨m, l, d, habort⟩ := abort_eq s
  have hreset : Machine.softReset s =
      { s with mem := m, stages := l, nextDraw := d, ie := false, status := Status.reset, cmd := 0#32 } := by
    rw [Machine.softReset, habort]
  have hwrite : busWrite 0x010 w s = .next (Machine.softReset s) :=
    (busWrite_reg .ctrl w s).trans (by rw [regWrite, ctrlWrite_of_set hw])
  refine ⟨_, hwrite, rfl, rfl, rfl, rfl, by rw [hreset], by rw [hreset], by rw [hreset], by rw [hreset],
    by rw [hreset], writeStatus_reg .ctrl s, softReset_idle, fun st rest hb hs => ?_⟩
  obtain ⟨hstages, hbytes⟩ := softReset_busy hb hs
  refine ⟨hstages, fun b hbuf k hk => ?_, fun a hout => ?_⟩
  · rw [hbytes, byteAt_drawOutputs]
    exact if_pos ⟨b, hbuf, Nat.le_add_right _ _, Nat.add_lt_add_left hk _⟩
  · rw [hbytes, byteAt_drawOutputs]
    refine if_neg fun ⟨b, hbuf, hin⟩ => ?_
    have hout : a < b.base ∨ b.base + b.elemBytes * s.latched.region ≤ a := hout b hbuf
    omega

end Sys2Proof.Slice0

/-! PROOFS. RUN: after its seven stages each output holds what its stage would make of the buffers once more, since no
later stage writes what an earlier one has read or written (45_control R202, R203). -/

namespace Sys2Proof.Machine

@[simp] theorem afterGradient_latched (s : State) (l1 l2 l3 : List Stage) :
    (s.afterGradient l1 l2 l3).latched = s.latched := by simp [State.afterGradient]

/-- The stage has nothing left to do: performed once more it leaves its outputs as they stand. -/
def Settled (st : Stage) (t : State) : Prop :=
  ∀ b ∈ st.outputs, AgreeOn t (performStage st t) b t.latched.region

theorem byteAt_afterStages_outside {s : State} {l : List Stage} {k : Nat}
    (h : ∀ st ∈ l, ∀ b ∈ st.outputs, k < b.base ∨ b.base + b.elemBytes * s.latched.region ≤ k) :
    (s.afterStages l).byteAt k = s.byteAt k := by
  induction l generalizing s with
  | nil => rfl
  | cons st rest ih =>
    obtain ⟨hst, hrest⟩ := List.forall_mem_cons.1 h
    rw [State.afterStages, ih (by simpa using hrest), byteAt_afterStage_outside rest hst]

section
variable {s : State} (hr : s.latched.region ≤ 1024 * 1024)
include hr

theorem agreeOn_afterStages_other {b : Buf} {n : Nat} (hn : n ≤ b.capacity Params.reference) {l : List Stage}
    (hb : ∀ st ∈ l, b ∉ st.outputs) : AgreeOn s (s.afterStages l) b n := by
  induction l generalizing s with
  | nil => exact fun _ _ => rfl
  | cons st rest ih =>
    obtain ⟨hst, hrest⟩ := List.forall_mem_cons.1 hb
    intro e he
    rw [State.afterStages, ih (by simpa using hr) hrest e he, agreeOn_afterStage_other hr rest hn hst e he]

/-- What a stage wrote still stands at the end, when no later stage of the list writes there. -/
theorem agreeOn_performStage_afterStages {st : Stage} {l : List Stage} {b : Buf}
    (hb : ∀ st' ∈ l, b ∉ st'.outputs) (hcap : b.capacity Params.reference = 1024 * 1024) :
    AgreeOn (performStage st s) (s.afterStages (st :: l)) b s.latched.region := fun e he => by
  rw [State.afterStages, agreeOn_afterStages_other (by simpa using hr) (hcap ▸ hr) hb e he, State.afterStage,
    elem_advance]

/-- A stage that finds at the end what it found in its turn is settled, when no later stage writes its outputs. -/
theorem settled_afterStages {st : Stage} {l : List Stage} (hl : ∀ b ∈ st.outputs, ∀ st' ∈ l, b ∉ st'.outputs)
    (h : ∀ b ∈ st.outputs, AgreeOn (performStage st s) (performStage st (s.afterStages (st :: l))) b
      s.latched.region) : Settled st (s.afterStages (st :: l)) := fun b hb e he => by
  rw [afterStages_latched] at he
  rw [h b hb e he, agreeOn_performStage_afterStages hr (hl b hb) (out_cap hb .reference) e he]

/-! The last four stages of RUN, each followed by those after it. -/

theorem settled_mag : Settled .mag (s.afterStages [.mag, .dir, .nms, .hyst]) :=
  settled_afterStages hr (by decide) (magStage_agreeOn (p := .reference) (afterStages_latched _ _) (by decide) hr
    (agreeOn_afterStages_other hr hr (by decide)) (agreeOn_afterStages_other hr hr (by decide)))

theorem settled_dir : Settled .dir (s.afterStages [.dir, .nms, .hyst]) :=
  settled_afterStages hr (by decide) (dirStage_agreeOn (p := .reference) (afterStages_latched _ _) (by decide) hr
    (agreeOn_afterStages_other hr hr (by decide)) (agreeOn_afterStages_other hr hr (by decide)))

theorem settled_nms : Settled .nms (s.afterStages [.nms, .hyst]) :=
  settled_afterStages hr (by decide) (nmsStage_agreeOn (p := .reference) (afterStages_latched _ _) (by decide) hr
    (agreeOn_afterStages_other hr hr (by decide)) (agreeOn_afterStages_other hr hr (by decide)))

theorem settled_hyst : Settled .hyst (s.afterStages [.hyst]) :=
  settled_afterStages hr (by decide) (List.forall_mem_singleton.2 (hystStage_agreeOn (afterStages_latched _ _)
    (agreeOn_afterStages_other hr hr (by decide))))

/-- All four are settled at the end of RUN. -/
theorem settled_all : let t := s.afterStages [.mag, .dir, .nms, .hyst]
    Settled .mag t ∧ Settled .dir t ∧ Settled .nms t ∧ Settled .hyst t := by
  refine ⟨settled_mag hr, ?_, ?_, ?_⟩
  · rw [State.afterStages]
    exact settled_dir (by simpa using hr)
  · rw [State.afterStages, State.afterStages]
    exact settled_nms (by simpa using hr)
  · rw [State.afterStages, State.afterStages, State.afterStages]
    exact settled_hyst (by simpa using hr)

end

/-- RUN's stages after the gradient leave CONV_OVF alone (R33, R121). -/
theorem afterStages_mag_convOvf (s : State) :
    (s.afterStages [.mag, .dir, .nms, .hyst]).status.convOvf = s.status.convOvf := by
  simp only [State.afterStages, afterStage_convOvf]
  rfl

end Sys2Proof.Machine

namespace Sys2Proof.Slice0
open Sys2Proof.Machine

theorem RegionFits.afterStages {s : State} (h : RegionFits s) (l : List Stage) : RegionFits (s.afterStages l) := by
  rw [RegionFits, afterStages_params, afterStages_latched]
  exact h

/-! ### Settled stages in the words of the statements (R141, R151, R171, R181) -/

section
variable {t : State} (hfit : RegionFits t)
include hfit

theorem elem_mag2_of_settled (h : Settled .mag t) {e : Nat} (he : e < rows t * cols t) :
    (t.elem .mag2 e : Int) = t.elemInt .fx e ^ 2 + t.elemInt .fy e ^ 2 := by
  rw [← h .mag2 (by decide) e he, ← magSquared_eq]
  exact congrArg Nat.cast (elem_magStage hfit.1 hfit.region_le he).1

theorem elems_mag8_of_settled (h : Settled .mag t) :
    t.elems .mag8 (rows t * cols t) = norm8 (t.elems .mag2 (rows t * cols t)) := by
  rw [← elems_congr (h .mag8 (by decide)), ← elems_congr (h .mag2 (by decide))]
  exact (magStage_elems_mag8 hfit.1 hfit.region_le).trans
    (congrArg norm8 (magStage_elems_mag2 hfit.1 hfit.region_le).symm)

theorem direction_of_settled (h : Settled .dir t) {e : Nat} (he : e < rows t * cols t) :
    t.elem .phi8 e = phi8 (t.elemInt .fx e) (t.elemInt .fy e) ∧
      t.elem .q e = qclass (t.elemInt .fx e) (t.elemInt .fy e) := by
  rw [← h .phi8 (by decide) e he, ← h .q (by decide) e he]
  exact elem_dirStage hfit.1 hfit.region_le he

theorem holdsSuppressed_of_settled (h : Settled .nms t) : HoldsSuppressed t t := by
  intro r c hr hc
  rw [← h .sup2 (by decide) _ (pixel_lt hr hc), ← elem_advance _ []]
  exact holdsSuppressed_afterStage hfit [] r c hr hc

theorem elems_sup8_of_settled (h : Settled .nms t) :
    t.elems .sup8 (rows t * cols t) = norm8 (t.elems .sup2 (rows t * cols t)) := by
  rw [← elems_congr (h .sup8 (by decide)), ← elems_congr (h .sup2 (by decide))]
  exact (nmsStage_elems_sup8 t).trans (congrArg norm8 (nmsStage_elems_sup2 hfit.1 hfit.region_le).symm)

end

theorem holdsEdges_of_settled {t : State} (h : Settled .hyst t) : HoldsEdges t t := by
  intro r c hr hc
  rw [← h .edge (by decide) _ (pixel_lt hr hc), ← elem_advance _ []]
  exact holdsEdges_afterStage t [] r c hr hc

/-- RUN's stages are the gradient and the four after it. -/
theorem afterStages_run (s : State) : ∃ l1 l2 l3,
    s.afterStages (stagesOf .run) = (s.afterGradient l1 l2 l3).afterStages [.mag, .dir, .nms, .hyst] :=
  ⟨[.convY, .descaleXY, .mag, .dir, .nms, .hyst], [.descaleXY, .mag, .dir, .nms, .hyst], [.mag, .dir, .nms, .hyst],
    by simp only [stagesOf, State.afterStages, State.afterGradient]⟩

/-- Seven engine steps, with the codes that STAGE names between them. -/
theorem run_steps {s : State} (hrun : RunningStages s (stagesOf .run)) :
    ∃ s1 s2 s3 s4 s5 s6, exec .run s = .next s1 ∧ exec .run s1 = .next s2 ∧ exec .run s2 = .next s3 ∧
      exec .run s3 = .next s4 ∧ exec .run s4 = .next s5 ∧ exec .run s5 = .next s6 ∧
      exec .run s6 = .next (s.afterStages (stagesOf .run)) ∧
      (s1.status.stage = 2#3 ∧ s2.status.stage = 3#3 ∧ s3.status.stage = 4#3 ∧ s4.status.stage = 5#3 ∧
        s5.status.stage = 6#3 ∧ s6.status.stage = 7#3) ∧
      (s1.status.busy = true ∧ s2.status.busy = true ∧ s3.status.busy = true ∧ s4.status.busy = true ∧
        s5.status.busy = true ∧ s6.status.busy = true) := by
  have hrun1 := hrun.afterStage
  have hrun2 := hrun1.afterStage
  have hrun3 := hrun2.afterStage
  have hrun4 := hrun3.afterStage
  have hrun5 := hrun4.afterStage
  have hrun6 := hrun5.afterStage
  exact ⟨_, _, _, _, _, _, hrun.exec _, hrun1.exec _, hrun2.exec _, hrun3.exec _, hrun4.exec _, hrun5.exec _,
    by rw [hrun6.exec]; simp only [stagesOf, State.afterStages], ⟨rfl, rfl, rfl, rfl, rfl, rfl⟩,
    ⟨hrun1.1, hrun2.1, hrun3.1, hrun4.1, hrun5.1, hrun6.1⟩⟩

/-- What the gradient leaves in its four buffers and in CONV_OVF still stands at the end of RUN (R126, R202). -/
theorem gradient_stands {s : State} (hr : s.latched.region ≤ 1024 * 1024) (l1 l2 l3 : List Stage) :
    let t := (s.afterGradient l1 l2 l3).afterStages [.mag, .dir, .nms, .hyst]
    HoldsConvolution s t .kx .cx ∧ HoldsConvolution s t .ky .cy ∧
      (∀ e, e < rows s * cols s → t.elemInt .fx e = rhaz (t.elemInt .cx e) (scaleFactor s) ∧
        t.elemInt .fy e = rhaz (t.elemInt .cy e) (scaleFactor s)) ∧
      (t.status.convOvf = true ↔ s.status.convOvf = true ∨ SumOverflows s .kx ∨ SumOverflows s .ky) := by
  intro t
  have hkept {b : Buf} (hb : ∀ st ∈ [Stage.mag, .dir, .nms, .hyst], b ∉ st.outputs)
      (hcap : b.capacity .reference = 1024 * 1024) : AgreeOn (s.afterGradient l1 l2 l3) t b s.latched.region :=
    agreeOn_afterStages_other (by simpa using hr) (hcap.symm ▸ hr) hb
  have hcx := hkept (b := .cx) (by decide) rfl
  have hcy := hkept (b := .cy) (by decide) rfl
  refine ⟨holdsConvolution_of_elemInts ((elemInts_congr hcx).trans (afterGradient_elemInts_cx hr l1 l2 l3)),
    holdsConvolution_of_elemInts ((elemInts_congr hcy).trans (afterGradient_elemInts_cy hr l1 l2 l3)),
    fun e he => ?_, ?_⟩
  · rw [elemInt_congr (hcx e he), elemInt_congr (hcy e he), elemInt_congr (hkept (b := .fx) (by decide) rfl e he),
      elemInt_congr (hkept (b := .fy) (by decide) rfl e he)]
    exact afterGradient_descaled hr l1 l2 l3 he
  · rw [afterStages_mag_convOvf, afterGradient_convOvf hr, Bool.or_eq_true, Bool.or_eq_true, or_assoc,
      sumOverflows_iff, sumOverflows_iff]

/-- The control fields at the end of RUN (R203, R207). -/
theorem afterStages_run_eq (s : State) : ∃ m ovf, s.afterStages (stagesOf .run) = { s with
    mem := m
    stages := []
    status := { s.status with busy := false, done := true, convOvf := ovf, stage := 7#3 } } := by
  obtain ⟨m, ovf, h⟩ := performStages_eq s (stagesOf .run)
  exact ⟨m, ovf, by rw [afterStages_eq, h]; rfl⟩

/-- Settles O15: the gradient as in GRAD, which no later stage writes, and then four stages that are settled at the
end. -/
theorem runRunsAndCompletes : Obligations.RunRunsAndCompletes := by
  refine ⟨acceptedAs .run, fun s hrun hfit => ?_⟩
  obtain ⟨s1, s2, s3, s4, s5, s6, h1, h2, h3, h4, h5, h6, h7, hstage, hbusy⟩ := run_steps hrun
  have hr := hfit.region_le_reference
  have hfit_t := hfit.afterStages (stagesOf .run)
  have hreg : rows (s.afterStages (stagesOf .run)) * cols (s.afterStages (stagesOf .run)) = rows s * cols s :=
    congrArg ParamRegs.region (afterStages_latched s (stagesOf .run))
  have hframe := fun k => byteAt_afterStages_outside (s := s) (l := stagesOf .run) (k := k)
  obtain ⟨m, ovf, hended⟩ := afterStages_run_eq s
  obtain ⟨l1, l2, l3, hrun_eq⟩ := afterStages_run s
  have hgrad := gradient_stands hr l1 l2 l3
  have hsettled := settled_all (s := s.afterGradient l1 l2 l3) (by simpa using hr)
  rw [← hrun_eq] at hgrad hsettled
  generalize s.afterStages (stagesOf .run) = t at *
  obtain ⟨hcx, hcy, hdescaled, hovf⟩ := hgrad
  obtain ⟨hmag, hdir, hnms, hhyst⟩ := hsettled
  refine ⟨s1, s2, s3, s4, s5, s6, t, h1, h2, h3, h4, h5, h6, h7, hstage, hbusy, hcx, hcy, fun e he => ?_,
    hreg ▸ elems_mag8_of_settled hfit_t hmag, holdsSuppressed_of_settled hfit_t hnms,
    hreg ▸ elems_sup8_of_settled hfit_t hnms, holdsEdges_of_settled hhyst, hovf, fun k hk => ?_, ?_⟩
  · have he_t : e < rows t * cols t := hreg ▸ he
    exact ⟨(hdescaled e he).1, (hdescaled e he).2, elem_mag2_of_settled hfit_t hmag he_t,
      direction_of_settled hfit_t hdir he_t⟩
  · have hout : ∀ st ∈ stagesOf .run, ∀ b ∈ st.outputs,
        b ∈ [Buf.cx, .cy, .fx, .fy, .mag2, .mag8, .phi8, .q, .sup2, .sup8, .edge] := by decide
    exact hframe k fun st hst b hb => hk b (hout st hst b hb)
  · rw [hended]

end Sys2Proof.Slice0

/-! PROOFS. The state after reset, the hard reset, and what a write to CMD leaves (70_reset R250 to R252, R259, 45_control
R205). -/

namespace Sys2Proof.Machine

/-! ### Where no byte is written (R252) -/

theorem memOk_nil (p : Params) : MemOk p [] := ⟨.nil, List.forall_mem_nil _, List.forall_mem_nil _⟩

/-- With nothing written, every byte is its draw. -/
theorem byteAt_of_mem_eq_nil {s : State} (h : s.mem = []) (a : Nat) : s.byteAt a = drawByte s.resetDraw a := by
  rw [State.byteAt, h]
  rfl

/-! ### The hard reset as a step (R250) -/

theorem step_rst {s : State} {ts : List Turn} (h : s.turns = .rst :: ts) :
    step s = .next (hardReset { s with turns := ts }) := by
  rw [step, takeTurn, h]
  rfl

/-! ### A word written to CMD of an idle CEC (R27, R205) -/

/-- CMD takes the word whether it is refused or started. -/
theorem busWrite_cmd_idle {s : State} (hb : s.status.busy = false) (w : Word) :
    (∃ c, busWrite 0x018 w s = .next (s.refuse w c)) ∨
      ∃ i, encode i = w ∧ busWrite 0x018 w s = .next (s.start i) := by
  cases hd : decode w with
  | error e => exact .inl ⟨.cmd, busWrite_cmd_of_decode_error hb hd⟩
  | ok i =>
    obtain rfl := eq_encode_of_decode hd
    rw [busWrite_cmd_of_decode hb hd, exec_next, hb, if_neg (by decide), accept_eq]
    split
    case isTrue => exact .inr ⟨i, rfl, rfl⟩
    case isFalse => exact .inl ⟨_, rfl⟩

end Sys2Proof.Machine

namespace Sys2Proof.Slice0
open Sys2Proof.Machine

/-- Settles O36: each offset is that of a register, whose value in `State.reset` is the table's; no byte is written. -/
theorem resetState : Obligations.ResetState :=
  ⟨busRead_reg .id _, busRead_reg .version _, busRead_reg .cap0 _, busRead_reg .cap1 _, busRead_reg .ctrl _,
    busRead_reg .status _, busRead_reg .cmd _, busRead_reg .imgH _, busRead_reg .imgW _, busRead_reg .ksize _,
    busRead_reg .scale _, busRead_reg .thHi _, busRead_reg .thLo _, rfl, irq_eq_false (.inl rfl),
    byteAt_of_mem_eq_nil rfl⟩

/-- Settles O52: the reset state is idle and its memory empty. -/
theorem resetMeetsInvariant : Obligations.ResetMeetsInvariant :=
  .of_idle (s := State.reset) (by decide) (memOk_nil _) rfl rfl errIff_reset

/-- Settles O37: the step is `hardReset`, whatever the CEC was doing. -/
theorem hardReset : Obligations.HardReset := fun _ _ h =>
  ⟨_, step_rst h, rfl, rfl, rfl, rfl, rfl, irq_eq_false (.inl rfl), rfl, byteAt_of_mem_eq_nil rfl, rfl, rfl, rfl⟩

/-- Settles O19: an overrun leaves BUSY and CMD; a refusal sets DONE and ERR, a start BUSY, and either takes the word. -/
theorem cmdWriteLeavesBusyOrDone : Obligations.CmdWriteLeavesBusyOrDone := by
  intro s t w h
  cases hb : s.status.busy with
  | true =>
    cases (overrunOnlySetsOvr s w hb).1.symm.trans h
    exact ⟨.inl hb, nofun, nofun, fun _ => rfl, rfl⟩
  | false =>
    obtain ⟨c, he⟩ | ⟨i, hw, he⟩ := busWrite_cmd_idle hb w <;> cases he.symm.trans h
    · exact ⟨.inr ⟨rfl, rfl⟩, fun _ ht => absurd (hb.symm.trans ht) (by decide), fun _ => rfl, nofun, rfl⟩
    · exact ⟨.inl rfl, fun _ _ => ⟨rfl, rfl⟩, fun _ => hw, nofun, rfl⟩

end Sys2Proof.Slice0
